-- ==== Sys2Proof/Word.lean ====
section
/-! DEFINITION. The sizes of the quantities of MD5CORE (spec/00_scope.md R8, R9): a byte is 8 bits, a
word 32 bits (WORD_W), the bit counter 64 bits (CNT_W), the step index 6 bits (R32).  Every quantity is unsigned (R9). -/

namespace Sys2Proof

/-- One byte of main memory (R50). -/
abbrev Byte := BitVec 8

/-- A state word, message word, constant, reference or data_len (R8: WORD_W, ADDR_W, LEN_W). -/
abbrev Word := BitVec 32

/-- The bit counter and the length field (R8: CNT_W; R53). -/
abbrev Double := BitVec 64

/-- The step index k of COMPRESS (R32, R85). -/
abbrev StepIndex := BitVec 6

/-- Four words in the roles A, B, C, D: the running state S[0..3] of a context (R21) or the working
registers a, b, c, d of COMPRESS (R30). -/
structure Quad where
  a : Word
  b : Word
  c : Word
  d : Word
deriving DecidableEq, Repr

end Sys2Proof
end

