-- ==== Sys2Proof/Machine/Bytes.lean ====
section
/-! DEFINITION. Byte order: every multi-byte quantity is little-endian (spec/20_memory.md R51), with the byte-sequence primitives of
spec/00_scope.md R12. -/

namespace Sys2Proof

/-- word_le: the byte at the lowest address is the least significant (R12, R51). -/
def wordLE (p0 p1 p2 p3 : Byte) : Word :=
  BitVec.ofNat 32 (p0.toNat + 256 * p1.toNat + 65536 * p2.toNat + 16777216 * p3.toNat)

/-- Byte `i` of a word, byte 0 the least significant. -/
def wordByte (w : Word) (i : Nat) : Byte := w.extractLsb' (8 * i) 8

/-- LE32 (R12). -/
def le32 (w : Word) : List Byte := [wordByte w 0, wordByte w 1, wordByte w 2, wordByte w 3]

/-- The low half of a 64-bit value: CNT_LO of CNT (R23). -/
def lowWord (v : Double) : Word := v.extractLsb' 0 32

/-- The high half of a 64-bit value: CNT_HI of CNT (R23). -/
def highWord (v : Double) : Word := v.extractLsb' 32 32

/-- CNT = CNT_HI * 2^32 + CNT_LO (R23). -/
def doubleOf (lo hi : Word) : Double := hi ++ lo

/-- LE64 (R12), low word first (R53). -/
def le64 (v : Double) : List Byte := le32 (lowWord v) ++ le32 (highWord v)

/-- Four state words as 16 bytes, each little-endian: the digest (R54, R163), and S[0..3] in the context (R55, R57). -/
def quadBytes (q : Quad) : List Byte := le32 q.a ++ le32 q.b ++ le32 q.c ++ le32 q.d

end Sys2Proof
end

