-- ==== Sys2Proof/Syntax.lean ====
section
/-! DEFINITION. The operations of MD5CORE as syntax: one constructor for each of the 67 rows of spec/opcode_table.json (the three host
commands, R82, and the 64 steps of the Compression Function, R85), and the two encoding spaces they live in: the command descriptor
(R81) and the 6-bit step index (R85). -/

namespace Sys2Proof

/-- The rows of spec/opcode_table.json.  Operands are whole 32-bit words (R83), in the source's order (R80). -/
inductive Instr where
  /-- INIT ctx: the source's initialize(context_ref) (R151). -/
  | init (ctx : Word)
  /-- ABSORB ctx, ptr, len: absorb(context_ref, data_ptr, data_len) (R153). -/
  | absorb (ctx ptr len : Word)
  /-- FINAL ctx, out: finalize(context_ref, digest_out) (R161). -/
  | final (ctx out : Word)
  -- FF, round 1 (R124)
  | step00 | step01 | step02 | step03 | step04 | step05 | step06 | step07
  | step08 | step09 | step10 | step11 | step12 | step13 | step14 | step15
  -- GG, round 2 (R125)
  | step16 | step17 | step18 | step19 | step20 | step21 | step22 | step23
  | step24 | step25 | step26 | step27 | step28 | step29 | step30 | step31
  -- HH, round 3 (R126)
  | step32 | step33 | step34 | step35 | step36 | step37 | step38 | step39
  | step40 | step41 | step42 | step43 | step44 | step45 | step46 | step47
  -- II, round 4 (R127)
  | step48 | step49 | step50 | step51 | step52 | step53 | step54 | step55
  | step56 | step57 | step58 | step59 | step60 | step61 | step62 | step63
deriving DecidableEq, Repr

/-- A command descriptor: four 32-bit words W0..W3, one fixed length (R81, R88). -/
structure Descriptor where
  w0 : Word
  w1 : Word
  w2 : Word
  w3 : Word
deriving DecidableEq, Repr

/-- An encoded operation: a command as a descriptor (R81), a step of COMPRESS as its step index (R85).  COMPRESS itself, loading and the
feed-forward have no encoding (R87). -/
inductive Code where
  | command (d : Descriptor)
  | stepIndex (k : StepIndex)
deriving DecidableEq, Repr

end Sys2Proof
end

