-- ==== Sys2Proof/Decode.lean ====
section
/-! DEFINITION. The decoder and the encoder.  A command is a descriptor of four words (spec/30_encoding.md R81, R82; reserved forms R84),
stored as 16 bytes, W0 first, each word little-endian; a step of COMPRESS is its 6-bit step index (R85).  Both functions are written from
the tables of that file and of spec/opcode_table.json. -/

namespace Sys2Proof

/-- Why a descriptor is reserved (R84), or why bytes are no descriptor. -/
inductive DecodeError where
  /-- OP = 3. -/
  | reservedOp
  /-- A bit of W0[31:2] is set. -/
  | reservedBits
  /-- INIT with a non-zero ARG0 or ARG1. -/
  | initArgument
  /-- FINAL with a non-zero ARG1. -/
  | finalArgument
  /-- Fewer than 16 bytes: no other length exists (R81). -/
  | truncated
deriving DecidableEq, Repr

/-- OP: W0[1:0] (R81). -/
def Descriptor.op (d : Descriptor) : BitVec 2 := d.w0.extractLsb' 0 2

/-- RSV: W0[31:2] (R81). -/
def Descriptor.rsv (d : Descriptor) : BitVec 30 := d.w0.extractLsb' 2 30

/-- The command a descriptor stands for: the opcode map R82, the reserved encodings R84. -/
def decodeDescriptor (d : Descriptor) : Except DecodeError Instr :=
  if d.rsv ≠ 0 then .error .reservedBits
  else if d.op = 0 then
    if d.w2 ≠ 0 ∨ d.w3 ≠ 0 then .error .initArgument else .ok (.init d.w1)
  else if d.op = 1 then .ok (.absorb d.w1 d.w2 d.w3)
  else if d.op = 2 then
    if d.w3 ≠ 0 then .error .finalArgument else .ok (.final d.w1 d.w2)
  else .error .reservedOp

/-- The step of index `n`: row STEPnn of spec/opcode_table.json, for n = 0..63. -/
def stepInstr : Nat → Instr
  | 0 => .step00
  | 1 => .step01
  | 2 => .step02
  | 3 => .step03
  | 4 => .step04
  | 5 => .step05
  | 6 => .step06
  | 7 => .step07
  | 8 => .step08
  | 9 => .step09
  | 10 => .step10
  | 11 => .step11
  | 12 => .step12
  | 13 => .step13
  | 14 => .step14
  | 15 => .step15
  | 16 => .step16
  | 17 => .step17
  | 18 => .step18
  | 19 => .step19
  | 20 => .step20
  | 21 => .step21
  | 22 => .step22
  | 23 => .step23
  | 24 => .step24
  | 25 => .step25
  | 26 => .step26
  | 27 => .step27
  | 28 => .step28
  | 29 => .step29
  | 30 => .step30
  | 31 => .step31
  | 32 => .step32
  | 33 => .step33
  | 34 => .step34
  | 35 => .step35
  | 36 => .step36
  | 37 => .step37
  | 38 => .step38
  | 39 => .step39
  | 40 => .step40
  | 41 => .step41
  | 42 => .step42
  | 43 => .step43
  | 44 => .step44
  | 45 => .step45
  | 46 => .step46
  | 47 => .step47
  | 48 => .step48
  | 49 => .step49
  | 50 => .step50
  | 51 => .step51
  | 52 => .step52
  | 53 => .step53
  | 54 => .step54
  | 55 => .step55
  | 56 => .step56
  | 57 => .step57
  | 58 => .step58
  | 59 => .step59
  | 60 => .step60
  | 61 => .step61
  | 62 => .step62
  | _ => .step63

/-- The step a 6-bit index selects (R85).  All 64 values are used; none is reserved. -/
def decodeStep (k : StepIndex) : Instr := stepInstr k.toNat

/-- An encoded operation of either kind. -/
def decode : Code → Except DecodeError Instr
  | .command d => decodeDescriptor d
  | .stepIndex k => .ok (decodeStep k)

/-- 16 bytes as a descriptor (R81: W0 first, each word LE32), and the bytes after it. -/
def takeDescriptor : List Byte → Option (Descriptor × List Byte)
  | a0 :: a1 :: a2 :: a3 :: b0 :: b1 :: b2 :: b3 :: c0 :: c1 :: c2 :: c3 :: e0 :: e1 :: e2 :: e3 :: rest =>
    some (⟨wordLE a0 a1 a2 a3, wordLE b0 b1 b2 b3, wordLE c0 c1 c2 c3, wordLE e0 e1 e2 e3⟩, rest)
  | _ => none

/-- The command at the head of a byte sequence, and what follows it. -/
def decodeBytes (bs : List Byte) : Except DecodeError (Instr × List Byte) :=
  match takeDescriptor bs with
  | none => .error .truncated
  | some (d, rest) =>
    match decodeDescriptor d with
    | .error e => .error e
    | .ok i => .ok (i, rest)

/-- The encoding of an instruction: W0 of the opcode map R82 with the operands in W1..W3 and zeros where R81 says so; the step index R85. -/
def encode : Instr → Code
  | .init ctx => .command ⟨0x00000000, ctx, 0, 0⟩
  | .absorb ctx ptr len => .command ⟨0x00000001, ctx, ptr, len⟩
  | .final ctx out => .command ⟨0x00000002, ctx, out, 0⟩
  | .step00 => .stepIndex 0b000000#6
  | .step01 => .stepIndex 0b000001#6
  | .step02 => .stepIndex 0b000010#6
  | .step03 => .stepIndex 0b000011#6
  | .step04 => .stepIndex 0b000100#6
  | .step05 => .stepIndex 0b000101#6
  | .step06 => .stepIndex 0b000110#6
  | .step07 => .stepIndex 0b000111#6
  | .step08 => .stepIndex 0b001000#6
  | .step09 => .stepIndex 0b001001#6
  | .step10 => .stepIndex 0b001010#6
  | .step11 => .stepIndex 0b001011#6
  | .step12 => .stepIndex 0b001100#6
  | .step13 => .stepIndex 0b001101#6
  | .step14 => .stepIndex 0b001110#6
  | .step15 => .stepIndex 0b001111#6
  | .step16 => .stepIndex 0b010000#6
  | .step17 => .stepIndex 0b010001#6
  | .step18 => .stepIndex 0b010010#6
  | .step19 => .stepIndex 0b010011#6
  | .step20 => .stepIndex 0b010100#6
  | .step21 => .stepIndex 0b010101#6
  | .step22 => .stepIndex 0b010110#6
  | .step23 => .stepIndex 0b010111#6
  | .step24 => .stepIndex 0b011000#6
  | .step25 => .stepIndex 0b011001#6
  | .step26 => .stepIndex 0b011010#6
  | .step27 => .stepIndex 0b011011#6
  | .step28 => .stepIndex 0b011100#6
  | .step29 => .stepIndex 0b011101#6
  | .step30 => .stepIndex 0b011110#6
  | .step31 => .stepIndex 0b011111#6
  | .step32 => .stepIndex 0b100000#6
  | .step33 => .stepIndex 0b100001#6
  | .step34 => .stepIndex 0b100010#6
  | .step35 => .stepIndex 0b100011#6
  | .step36 => .stepIndex 0b100100#6
  | .step37 => .stepIndex 0b100101#6
  | .step38 => .stepIndex 0b100110#6
  | .step39 => .stepIndex 0b100111#6
  | .step40 => .stepIndex 0b101000#6
  | .step41 => .stepIndex 0b101001#6
  | .step42 => .stepIndex 0b101010#6
  | .step43 => .stepIndex 0b101011#6
  | .step44 => .stepIndex 0b101100#6
  | .step45 => .stepIndex 0b101101#6
  | .step46 => .stepIndex 0b101110#6
  | .step47 => .stepIndex 0b101111#6
  | .step48 => .stepIndex 0b110000#6
  | .step49 => .stepIndex 0b110001#6
  | .step50 => .stepIndex 0b110010#6
  | .step51 => .stepIndex 0b110011#6
  | .step52 => .stepIndex 0b110100#6
  | .step53 => .stepIndex 0b110101#6
  | .step54 => .stepIndex 0b110110#6
  | .step55 => .stepIndex 0b110111#6
  | .step56 => .stepIndex 0b111000#6
  | .step57 => .stepIndex 0b111001#6
  | .step58 => .stepIndex 0b111010#6
  | .step59 => .stepIndex 0b111011#6
  | .step60 => .stepIndex 0b111100#6
  | .step61 => .stepIndex 0b111101#6
  | .step62 => .stepIndex 0b111110#6
  | .step63 => .stepIndex 0b111111#6

/-- A descriptor as it is stored in memory (R81). -/
def Descriptor.bytes (d : Descriptor) : List Byte := le32 d.w0 ++ le32 d.w1 ++ le32 d.w2 ++ le32 d.w3

/-- The descriptor whose bits, W0 first, are those of `w` (the host's numbering: bit 0 is bit 0 of W0, W1 counts on from bit 32). -/
def tableDescriptor (w : Nat) : Descriptor :=
  ⟨BitVec.ofNat 32 w, BitVec.ofNat 32 (w / 2 ^ 32), BitVec.ofNat 32 (w / 2 ^ 64), BitVec.ofNat 32 (w / 2 ^ 96)⟩

/-- A row of the table with fewer than 32 bits is a step (6 bits, R85; in whole bytes 8), one with 32 or more a command (W0 and, where
given, the operand words, R81).  The two encoding spaces overlap as numbers, so the width tells them apart (log entry 6). -/
def isStepWidth (nbits : Nat) : Bool := nbits < 32

/-- The instruction the decoder reads from a word numbered as spec/opcode_table.json numbers it. -/
def decodeTableWord (nbits w : Nat) : Option Instr :=
  if isStepWidth nbits then
    if w < 64 then some (decodeStep (BitVec.ofNat 6 w)) else none
  else
    match decodeBytes (tableDescriptor w).bytes with
    | .ok (i, _) => some i
    | .error _ => none

end Sys2Proof
end

