-- ==== Sys2Proof/Machine/ConstantTable.lean ====
section
/-! DEFINITION. The Constant Table (spec/40_constant_table.md): the 64 additive constants T[1..64] (R102), the 16 rotation amounts
(R103), and the per-step lookups (R104, R105, R106).  It is immutable (R36, R100): no command, reset or host move reaches it, so it is
a constant and not a field of State (log entry 13). -/

namespace Sys2Proof.Machine

/-- T[1..16], round 1 (R102). -/
def tRound1 : List Word :=
  [0xd76aa478, 0xe8c7b756, 0x242070db, 0xc1bdceee, 0xf57c0faf, 0x4787c62a, 0xa8304613, 0xfd469501,
   0x698098d8, 0x8b44f7af, 0xffff5bb1, 0x895cd7be, 0x6b901122, 0xfd987193, 0xa679438e, 0x49b40821]

/-- T[17..32], round 2 (R102). -/
def tRound2 : List Word :=
  [0xf61e2562, 0xc040b340, 0x265e5a51, 0xe9b6c7aa, 0xd62f105d, 0x02441453, 0xd8a1e681, 0xe7d3fbc8,
   0x21e1cde6, 0xc33707d6, 0xf4d50d87, 0x455a14ed, 0xa9e3e905, 0xfcefa3f8, 0x676f02d9, 0x8d2a4c8a]

/-- T[33..48], round 3 (R102). -/
def tRound3 : List Word :=
  [0xfffa3942, 0x8771f681, 0x6d9d6122, 0xfde5380c, 0xa4beea44, 0x4bdecfa9, 0xf6bb4b60, 0xbebfbc70,
   0x289b7ec6, 0xeaa127fa, 0xd4ef3085, 0x04881d05, 0xd9d4d039, 0xe6db99e5, 0x1fa27cf8, 0xc4ac5665]

/-- T[49..64], round 4 (R102). -/
def tRound4 : List Word :=
  [0xf4292244, 0x432aff97, 0xab9423a7, 0xfc93a039, 0x655b59c3, 0x8f0ccc92, 0xffeff47d, 0x85845dd1,
   0x6fa87e4f, 0xfe2ce6e0, 0xa3014314, 0x4e0811a1, 0xf7537e82, 0xbd3af235, 0x2ad7d2bb, 0xeb86d391]

/-- All 64 constants in index order. -/
def tTable : List Word := tRound1 ++ tRound2 ++ tRound3 ++ tRound4

/-- T[i], i = 1..64 (R102).  No step asks for another index (R109). -/
def constantT (i : Nat) : Word := tTable.getD (i - 1) 0

/-- SHIFT[round][0..3], with the round counted 0..3 (R103). -/
def shiftRow : Nat → List Nat
  | 0 => [7, 12, 17, 22]
  | 1 => [5, 9, 14, 20]
  | 2 => [4, 11, 16, 23]
  | _ => [6, 10, 15, 21]

/-- s(k) = SHIFT[round][j mod 4] (R104). -/
def rotAmount (k : Nat) : Nat := (shiftRow (k / 16)).getD (k % 4) 0

/-- g(k), the message word of step k, with j = k mod 16 (R105). -/
def wordIndex (k : Nat) : Fin 16 :=
  let j := k % 16
  match k / 16 with
  | 0 => Fin.ofNat 16 j
  | 1 => Fin.ofNat 16 (5 * j + 1)
  | 2 => Fin.ofNat 16 (3 * j + 5)
  | _ => Fin.ofNat 16 (7 * j)

/-- The constant of step k: T[k+1] (R106). -/
def stepConstant (k : Nat) : Word := constantT (k + 1)

end Sys2Proof.Machine
end

