-- ==== Sys2Proof/Machine/Flags.lean ====
section
/-! DEFINITION. MD5CORE has no flags, no condition codes, no carry flag and no status register (spec/10_state.md R35), so no flag is
computed anywhere.  This file holds the arithmetic whose carries the spec speaks of: add32, whose carry out is discarded (R130), and the
64-bit counter addition, whose carry from CNT_LO into CNT_HI is the one that matters (R35, R154). -/

namespace Sys2Proof.Machine

/-- add32(x, y) = (x + y) mod 2^32; the carry is recorded nowhere (R11, R130). -/
def add32 (x y : Word) : Word := x + y

/-- add64(x, y) = (x + y) mod 2^64 (R11). -/
def add64 (x y : Double) : Double := x + y

/-- The bits of `len` bytes: zext_64(len) << 3 (R83, R154). -/
def bitsOf (len : Word) : Double := len.setWidth 64 <<< 3

/-- CNT <- (CNT + 8 * len) mod 2^64 (R154). -/
def countAfter (cnt : Double) (len : Word) : Double := add64 cnt (bitsOf len)

/-- fill = (CNT >> 3) mod 64 = CNT[8:3] (R24). -/
def fillOf (cnt : Double) : Nat := (cnt.extractLsb' 3 6).toNat

end Sys2Proof.Machine
end

