-- ==== Sys2Proof/Machine/Sparse.lean ====
section
/-! DEFINITION. Data by address, kept as a list with strictly rising addresses: the one form in which main memory and the phases of the
contexts are held, so that equal contents are equal lists. -/

namespace Sys2Proof.Machine

/-- The entry at address `a`. -/
def Sparse.get? {α : Type} : List (Nat × α) → Nat → Option α
  | [], _ => none
  | (b, v) :: rest, a => if a = b then some v else Sparse.get? rest a

/-- The list with the entry at address `a` made `v`, in its place in the order. -/
def Sparse.set {α : Type} : List (Nat × α) → Nat → α → List (Nat × α)
  | [], a, v => [(a, v)]
  | (b, w) :: rest, a, v =>
    if a < b then (a, v) :: (b, w) :: rest
    else if a = b then (a, v) :: rest
    else (b, w) :: Sparse.set rest a v

/-- Addresses rise strictly from `lo` up and lie below `hi`. -/
def Sparse.rises {α : Type} (hi : Nat) : (lo : Nat) → List (Nat × α) → Bool
  | _, [] => true
  | lo, (a, _) :: rest => lo ≤ a && a < hi && Sparse.rises hi (a + 1) rest

end Sys2Proof.Machine
end

