-- ==== Sys2Proof/Config.lean ====
section
/-! DEFINITION. What is fixed for MD5CORE (the parameter table of spec/00_scope.md R8) and the free values: constants with no body,
which stand wherever the spec says "any value".  The parameters the spec leaves OPEN to the platform (Valid, N_ENGINES) are
not here: they are plain data in State (Machine/State.lean, Platform), so that every statement quantifies over them. -/

namespace Sys2Proof.Config

/-- CTX_HDR_BYTES: the fixed header of a context (R8, R56). -/
def headerBytes : Nat := 0x1C

/-- CTX_BYTES: header and buffer (R8, R59). -/
def contextBytes : Nat := 0x5C

/-- BLOCK_BYTES (R8). -/
def blockBytes : Nat := 64

/-- DIGEST_BYTES (R8). -/
def digestBytes : Nat := 16

/-- The first number that is not an address: ADDR_W = 32 (R8, R50). -/
def addressSpace : Nat := 2 ^ 32

/-- CTX_ALIGN (R8, R63). -/
def ctxAlign : Nat := 4

/-- DATA_ALIGN (R8, R63): any byte address. -/
def dataAlign : Nat := 1

/-- DIGEST_ALIGN (R8, R63): any byte address. -/
def digestAlign : Nat := 1

/-- FREE VALUE.  The n-th byte drawn for "any value" (BASE after INIT, R27; BUF above the fill level after ABSORB, R25; CNT
and BUF after FINAL, R28).  Log entry 2. -/
opaque freeByte : Nat → Byte

/-- FREE VALUE.  The n-th word drawn for a working, message or scheduler register between commands (R30, R31, R34).  Log entries 2, 4. -/
opaque freeWord : Nat → Word

/-- FREE VALUE.  The n-th value drawn for the step index between commands, and after the STEP with k = 63, for which `k <- k + 1`
leaves the 6 bits (R32: "k never wraps").  Log entries 2, 4, 5. -/
opaque freeIndex : Nat → StepIndex

/-- FREE VALUE.  What address `a` holds after the `epoch`-th reset until something is written there (R39, R40, R210: memory holds
any value).  Log entry 1. -/
opaque powerOnByte : (epoch a : Nat) → Byte

end Sys2Proof.Config
end

