-- ==== Sys2Proof/Machine/State.lean ====
section
/-! DEFINITION. The state of MD5CORE as plain data (spec/10_state.md R20), the host's moves (spec/70_reset_and_hazards.md R228), the reasons
a step can stop (spec/60_exceptions.md R191), and the state after a hardware reset (R39, R210).

The four context fields S, CNT, BUF and BASE are bytes of main memory at the context's address (R56, R57: "there is no copy elsewhere"),
read and written through the accessors of Machine/Context.lean.  The Constant Table (R36) is immutable and stands in
Machine/ConstantTable.lean. -/

namespace Sys2Proof.Machine

/-- Main memory: the bytes written since the last reset, by address, addresses strictly rising.  An address without an entry holds the
unknown byte `Config.powerOnByte` (R210, log entry 1). -/
abbrev Memory := List Host.Cell

/-- The lifecycle phase of a context (R29, R150): ghost state, stored nowhere in the hardware. -/
inductive Phase where
  | uninitialized
  | active
  | finalized
deriving DecidableEq, Repr

/-- The phases of all contexts, by context_ref, addresses strictly rising; a context_ref without an entry is Uninitialized. -/
abbrev Phases := List (Nat × Phase)

/-- `size` bytes of main memory from `base` (R60). -/
structure Region where
  base : Nat
  size : Nat
deriving DecidableEq, Repr

/-- The parameters the spec leaves OPEN to the platform (R8), fixed for a run (R227 P-valid). -/
structure Platform where
  /-- The predicate Valid: the addresses backed by memory the engine may access, as a union of ranges (R62). -/
  valid : List Region
  /-- N_ENGINES - 1: there is always at least one engine (R8, R200). -/
  moreEngines : Nat
deriving DecidableEq, Repr

/-- One input of the machine: a host move (R228), or a tick of the sequencer inside COMPRESS. -/
inductive Input where
  /-- The host issues a command, and no other agent acts until it has completed (R70: the command is atomic). -/
  | issue (d : Descriptor)
  /-- A host thread issues a command, and other moves may come before it completes (R71, R200). -/
  | start (d : Descriptor)
  /-- The `n`-th of the commands running on engines completes (R225: every valid command does; the moment is not specified). -/
  | complete (n : Nat)
  /-- The host writes bytes to memory (R228 rows 5 and 6). -/
  | write (addr : Word) (bytes : List Byte)
  /-- The host reads `size` bytes of memory (R228 row 4). -/
  | read (addr : Word) (size : Nat)
  /-- Hardware reset (R210). -/
  | reset
  /-- No host move: the sequencer performs the STEP its index register k selects (R32, R85).  It is the model's window on the inside of a
  COMPRESS (R137: the intermediate registers may be exposed for testing); a command performs its 64 steps within its one transition. -/
  | tick
deriving DecidableEq, Repr

/-- Faults.  The hardware has none (R190: the set of exception causes is empty; 93_implementation_defined.md: no behaviour is treated as a
fault), so no command ever faults. -/
inductive Fault where
  /-- Raised by a host read or write that runs past the last address, 2^32 - 1 (R50: no such byte exists).  Safe: the machine stops. -/
  | outsideAddressSpace
deriving DecidableEq, Repr

/-- Refusals: the contract violations V1 to V7 of R191, to which the spec gives "undefined results" and which a model refuses (decision D29),
and the host moves that are no move of the machine.  All are safe: nothing can be proved of what would follow. -/
inductive Refusal where
  /-- Raised by exec for a row with no meaning; no row is left so. -/
  | notModelled (mnemonic : String)
  /-- V1: raised by ABSORB and FINAL on a context in phase Uninitialized.  Safe. -/
  | uninitializedContext
  /-- V2: raised by ABSORB and FINAL on a context in phase Finalized.  Safe. -/
  | finalizedContext
  /-- V3: raised by a command one of whose regions has a byte that is not Valid or wraps past 2^32.  Safe. -/
  | invalidRegion
  /-- V4: raised by a command whose reference is not a multiple of its alignment.  Safe. -/
  | misalignedReference
  /-- V5: raised by ABSORB and FINAL when the context region meets the data span or the digest region.  Safe. -/
  | overlappingRegions
  /-- V6: raised by a host move that meets a region of a command in progress.  Safe. -/
  | concurrentAccess
  /-- V7: raised when a reserved descriptor is issued.  Safe. -/
  | reservedDescriptor
  /-- Raised by `complete n` when fewer than n + 1 commands are running: no such event exists.  Safe. -/
  | noSuchCommand
deriving DecidableEq, Repr

/-- The state of the machine.  INVENTORY.md lists every field with its rule and reset value.

`work`, `msg`, `k`, `pos`, `fill` and `total` are ONE set of internal registers, whatever the number of engines (DESIGN CHOICE, log entry 17):
R20 lists one set, the engines of R200 share none, and the spec does not say how a state divides them.  The set is that of the engine whose
sequencer moves: of the engine that performs a command while its effect is taken, and of one engine, not named, at a tick. -/
structure State where
  /-- Main memory (R50), which holds the contexts, the data spans and the digests. -/
  mem : Memory
  /-- The model's own: how many hardware resets have happened, which says which unknown bytes unwritten memory holds (log entry 1). -/
  epoch : Nat
  /-- phase(ctx) of every context (R29). -/
  phases : Phases
  /-- The working registers a, b, c, d of COMPRESS (R30). -/
  work : Quad
  /-- The message words M[0..15] (R31). -/
  msg : Vector Word 16
  /-- The step index k (R32). -/
  k : StepIndex
  /-- Scheduler register pos: bytes of the current span already consumed (R34). -/
  pos : Nat
  /-- Scheduler register fill: the working copy of the fill level (R34). -/
  fill : Nat
  /-- Scheduler register L: the bit count FINAL encodes (R34). -/
  total : Double
  /-- The platform's parameters (R8). -/
  platform : Platform
  /-- The commands issued and not yet completed, oldest first (R200, R216): one on each engine, the rest waiting for an engine (log entry 10). -/
  inFlight : List Instr
  /-- The inputs still to come, next first (R227). -/
  pending : List Input
  /-- The bytes the last host read handed back (R228 row 4). -/
  hostData : List Byte
  /-- The model's own: how many free values have been drawn (log entry 2). -/
  drawn : Nat
deriving DecidableEq, Repr

/-- The machine right after a hardware reset (R39, R210): no command in progress, every context Uninitialized, memory with nothing listed
(every byte unknown).  The internal registers are zero (DESIGN CHOICE, log entry 3: the spec leaves them unspecified); every address is Valid
and there is one engine (DESIGN CHOICE, log entry 7: both are the platform's). -/
def State.reset : State where
  mem := []
  epoch := 0
  phases := []
  work := ⟨0, 0, 0, 0⟩
  msg := #v[0, 0, 0, 0, 0, 0, 0, 0, 0, 0, 0, 0, 0, 0, 0, 0]
  k := 0
  pos := 0
  fill := 0
  total := 0
  platform := ⟨[⟨0, 2 ^ 32⟩], 0⟩
  inFlight := []
  pending := []
  hostData := []
  drawn := 0

end Sys2Proof.Machine
end

