-- ==== Sys2Proof/Machine/Ops.lean ====
section
/-! DEFINITION. The named operations over memory, registers, phases and free values, through which every meaning reads and writes the
state.

Taking an exception and returning from one: MD5CORE has neither (spec/60_exceptions.md R190: the set of exception causes is empty; R195:
"no state is saved, no mode changes, no vector table, no handler address, no stack. There is no trap return"), so there is no such operation
here.  What a command does instead of trapping is in Machine/Operands.lean: a contract violation is refused. -/

namespace Sys2Proof.Machine

/-! ### One setter per group of fields -/

def State.setMem (s : State) (m : Memory) : State := { s with mem := m }
def State.setPhases (s : State) (p : Phases) : State := { s with phases := p }
def State.setWork (s : State) (q : Quad) : State := { s with work := q }
def State.setMsg (s : State) (m : Vector Word 16) : State := { s with msg := m }
def State.setK (s : State) (k : StepIndex) : State := { s with k := k }
def State.setPos (s : State) (n : Nat) : State := { s with pos := n }
def State.setFill (s : State) (n : Nat) : State := { s with fill := n }
def State.setTotal (s : State) (v : Double) : State := { s with total := v }
def State.setInFlight (s : State) (l : List Instr) : State := { s with inFlight := l }
def State.setPending (s : State) (l : List Input) : State := { s with pending := l }
def State.setHostData (s : State) (l : List Byte) : State := { s with hostData := l }
def State.setDrawn (s : State) (n : Nat) : State := { s with drawn := n }

/-! ### Main memory (R50, R51) -/

/-- The canonical form of memory: addresses strictly rising, all inside the address space (R50).  An unlisted address has no value of its
own in the data, so no entry can equal it. -/
def Memory.wf (m : Memory) : Bool := Sparse.rises Config.addressSpace 0 m

/-- Mem[a]: the byte last written there, or the unknown byte the address holds since reset (R66: reading twice gives the same value). -/
def State.readByte (s : State) (a : Nat) : Byte :=
  match Sparse.get? s.mem a with
  | some v => v
  | none => Config.powerOnByte s.epoch a

/-- The `n` bytes from `a` up, in address order. -/
def State.readBytes (s : State) (a : Nat) : Nat → List Byte
  | 0 => []
  | n + 1 => s.readByte a :: s.readBytes (a + 1) n

/-- MemRead(a, 4) (R10, R51). -/
def State.readWord (s : State) (a : Nat) : Word :=
  wordLE (s.readByte a) (s.readByte (a + 1)) (s.readByte (a + 2)) (s.readByte (a + 3))

/-- The bytes put at `a`, `a + 1`, ... in turn. -/
def Memory.setBytes : Memory → Nat → List Byte → Memory
  | m, _, [] => m
  | m, a, v :: rest => Memory.setBytes (Sparse.set m a v) (a + 1) rest

/-- MemWrite of a byte sequence (R10).  Irreducible, as COMPRESS is: Laws/Memory.lean says all it does. -/
@[irreducible] def State.writeBytes (s : State) (a : Nat) (bs : List Byte) : State := s.setMem (Memory.setBytes s.mem a bs)

/-! ### Free values (log entry 2) -/

/-- `n` unknown bytes, the draws `d`, `d + 1`, ... -/
def freeBytes (d : Nat) : Nat → List Byte
  | 0 => []
  | n + 1 => Config.freeByte d :: freeBytes (d + 1) n

/-- The `n` bytes from `a` up take any value. -/
def State.forgetBytes (s : State) (a n : Nat) : State :=
  (s.writeBytes a (freeBytes s.drawn n)).setDrawn (s.drawn + n)

/-- The working, message and scheduler registers take any value of their range: what they hold between commands (R30 to R34, R39). -/
def State.forgetInternal (s : State) : State :=
  let d := s.drawn
  { s with
    work := ⟨Config.freeWord d, Config.freeWord (d + 1), Config.freeWord (d + 2), Config.freeWord (d + 3)⟩
    msg := Vector.ofFn fun i => Config.freeWord (d + 4 + i)
    k := Config.freeIndex (d + 20)
    pos := (Config.freeWord (d + 21)).toNat
    fill := (Config.freeWord (d + 22)).toNat % 65
    total := doubleOf (Config.freeWord (d + 23)) (Config.freeWord (d + 24))
    drawn := d + 25 }

/-! ### Phases (R29) -/

/-- phase(ctx). -/
def State.phaseOf (s : State) (ctx : Nat) : Phase := (Sparse.get? s.phases ctx).getD .uninitialized

/-- phase(ctx) <- p, for p Active or Finalized. -/
def State.setPhase (s : State) (ctx : Nat) (p : Phase) : State := s.setPhases (Sparse.set s.phases ctx p)

/-- The canonical form of the phases: addresses strictly rising, inside the address space, and no entry that says Uninitialized. -/
def Phases.wf (p : Phases) : Bool :=
  Sparse.rises Config.addressSpace 0 p && p.all fun e => e.2 ≠ .uninitialized

/-! ### Regions -/

/-- Some byte lies in both regions. -/
def Region.overlaps (r q : Region) : Bool :=
  0 < r.size && 0 < q.size && r.base < q.base + q.size && q.base < r.base + r.size

/-- The address lies in the region. -/
def Region.holds (r : Region) (a : Nat) : Bool := r.base ≤ a && a < r.base + r.size

/-- The context region of the context at address `ctx` (R59). -/
def contextAt (ctx : Nat) : Region := ⟨ctx, Config.contextBytes⟩

/-- Every context whose region meets `r` becomes Uninitialized: the effect of a write to `r` that is no command on that context
(R38, R64, R217). -/
def State.retire (s : State) (r : Region) : State :=
  s.setPhases (s.phases.filter fun e => !(contextAt e.1).overlaps r)

end Sys2Proof.Machine
end

