-- ==== Sys2Proof/Machine/Compression.lean ====
section
/-! DEFINITION. The Compression Function (spec/41_compression.md): the mixing functions (R124 to R127), the step (R123), the 64 steps STEP00
to STEP63 as instructions, loading (R121, R122), the feed-forward (R134) and COMPRESS (R133). -/

namespace Sys2Proof.Machine

/-! ### The step -/

/-- rotl32(x, n), for 1 <= n <= 31 (R11, R131).  No step uses another amount (R103, R109; log entry 13). -/
def rotl32 (x : Word) (n : Nat) : Word := (x <<< n) ||| (x >>> (32 - n))

/-- F, the mixing function of round 1 (R124). -/
def mixF (b c d : Word) : Word := (b &&& c) ||| (~~~b &&& d)

/-- G, round 2 (R125). -/
def mixG (b c d : Word) : Word := (b &&& d) ||| (c &&& ~~~d)

/-- H, round 3 (R126). -/
def mixH (b c d : Word) : Word := b ^^^ c ^^^ d

/-- I, round 4 (R127). -/
def mixI (b c d : Word) : Word := c ^^^ (b ||| ~~~d)

/-- The mixing function of a round, the round counted 0..3 as in k[5:4] (R85). -/
def mixOf : Nat → Word → Word → Word → Word
  | 0 => mixF
  | 1 => mixG
  | 2 => mixH
  | _ => mixI

/-- The four registers after the step of index `k`: A<-D, D<-C, C<-B, B<-temp (R123). -/
def stepQuad (mix : Word → Word → Word → Word) (k : Nat) (msg : Vector Word 16) (q : Quad) : Quad :=
  let f := mix q.b q.c q.d
  let sum := add32 (add32 (add32 q.a f) (stepConstant k)) msg[wordIndex k]
  let temp := add32 q.b (rotl32 sum (rotAmount k))
  ⟨q.d, temp, q.b, q.c⟩

/-- `k <- k + 1` (R123).  After the step with k = 63 the index has no next value in its 6 bits and COMPRESS ends (R32: "k never wraps"):
the register then holds any value (log entry 5). -/
def State.advanceIndex (s : State) (k : Nat) : State :=
  if k < 63 then s.setK (BitVec.ofNat 6 (k + 1))
  else (s.setK (Config.freeIndex s.drawn)).setDrawn (s.drawn + 1)

/-- The step of index `k` with the mixing function of its round, on the working registers (R123). -/
def State.stepWith (s : State) (mix : Word → Word → Word → Word) (k : Nat) : State :=
  (s.setWork (stepQuad mix k s.msg s.work)).advanceIndex k

/-- The step the index register selects (R32, R85). -/
def State.stepSelected (s : State) : State := s.stepWith (mixOf (s.k.toNat / 16)) s.k.toNat

/-- `n` steps, each selected by the index register. -/
def State.runSteps (s : State) : Nat → State
  | 0 => s
  | n + 1 => s.stepSelected.runSteps n

/-! ### The 64 steps as instructions: FF (R124), GG (R125), HH (R126), II (R127) -/

def execStep00 (s : State) : Host.Outcome State Fault Refusal := .next (s.stepWith mixF 0)
def execStep01 (s : State) : Host.Outcome State Fault Refusal := .next (s.stepWith mixF 1)
def execStep02 (s : State) : Host.Outcome State Fault Refusal := .next (s.stepWith mixF 2)
def execStep03 (s : State) : Host.Outcome State Fault Refusal := .next (s.stepWith mixF 3)
def execStep04 (s : State) : Host.Outcome State Fault Refusal := .next (s.stepWith mixF 4)
def execStep05 (s : State) : Host.Outcome State Fault Refusal := .next (s.stepWith mixF 5)
def execStep06 (s : State) : Host.Outcome State Fault Refusal := .next (s.stepWith mixF 6)
def execStep07 (s : State) : Host.Outcome State Fault Refusal := .next (s.stepWith mixF 7)
def execStep08 (s : State) : Host.Outcome State Fault Refusal := .next (s.stepWith mixF 8)
def execStep09 (s : State) : Host.Outcome State Fault Refusal := .next (s.stepWith mixF 9)
def execStep10 (s : State) : Host.Outcome State Fault Refusal := .next (s.stepWith mixF 10)
def execStep11 (s : State) : Host.Outcome State Fault Refusal := .next (s.stepWith mixF 11)
def execStep12 (s : State) : Host.Outcome State Fault Refusal := .next (s.stepWith mixF 12)
def execStep13 (s : State) : Host.Outcome State Fault Refusal := .next (s.stepWith mixF 13)
def execStep14 (s : State) : Host.Outcome State Fault Refusal := .next (s.stepWith mixF 14)
def execStep15 (s : State) : Host.Outcome State Fault Refusal := .next (s.stepWith mixF 15)
def execStep16 (s : State) : Host.Outcome State Fault Refusal := .next (s.stepWith mixG 16)
def execStep17 (s : State) : Host.Outcome State Fault Refusal := .next (s.stepWith mixG 17)
def execStep18 (s : State) : Host.Outcome State Fault Refusal := .next (s.stepWith mixG 18)
def execStep19 (s : State) : Host.Outcome State Fault Refusal := .next (s.stepWith mixG 19)
def execStep20 (s : State) : Host.Outcome State Fault Refusal := .next (s.stepWith mixG 20)
def execStep21 (s : State) : Host.Outcome State Fault Refusal := .next (s.stepWith mixG 21)
def execStep22 (s : State) : Host.Outcome State Fault Refusal := .next (s.stepWith mixG 22)
def execStep23 (s : State) : Host.Outcome State Fault Refusal := .next (s.stepWith mixG 23)
def execStep24 (s : State) : Host.Outcome State Fault Refusal := .next (s.stepWith mixG 24)
def execStep25 (s : State) : Host.Outcome State Fault Refusal := .next (s.stepWith mixG 25)
def execStep26 (s : State) : Host.Outcome State Fault Refusal := .next (s.stepWith mixG 26)
def execStep27 (s : State) : Host.Outcome State Fault Refusal := .next (s.stepWith mixG 27)
def execStep28 (s : State) : Host.Outcome State Fault Refusal := .next (s.stepWith mixG 28)
def execStep29 (s : State) : Host.Outcome State Fault Refusal := .next (s.stepWith mixG 29)
def execStep30 (s : State) : Host.Outcome State Fault Refusal := .next (s.stepWith mixG 30)
def execStep31 (s : State) : Host.Outcome State Fault Refusal := .next (s.stepWith mixG 31)
def execStep32 (s : State) : Host.Outcome State Fault Refusal := .next (s.stepWith mixH 32)
def execStep33 (s : State) : Host.Outcome State Fault Refusal := .next (s.stepWith mixH 33)
def execStep34 (s : State) : Host.Outcome State Fault Refusal := .next (s.stepWith mixH 34)
def execStep35 (s : State) : Host.Outcome State Fault Refusal := .next (s.stepWith mixH 35)
def execStep36 (s : State) : Host.Outcome State Fault Refusal := .next (s.stepWith mixH 36)
def execStep37 (s : State) : Host.Outcome State Fault Refusal := .next (s.stepWith mixH 37)
def execStep38 (s : State) : Host.Outcome State Fault Refusal := .next (s.stepWith mixH 38)
def execStep39 (s : State) : Host.Outcome State Fault Refusal := .next (s.stepWith mixH 39)
def execStep40 (s : State) : Host.Outcome State Fault Refusal := .next (s.stepWith mixH 40)
def execStep41 (s : State) : Host.Outcome State Fault Refusal := .next (s.stepWith mixH 41)
def execStep42 (s : State) : Host.Outcome State Fault Refusal := .next (s.stepWith mixH 42)
def execStep43 (s : State) : Host.Outcome State Fault Refusal := .next (s.stepWith mixH 43)
def execStep44 (s : State) : Host.Outcome State Fault Refusal := .next (s.stepWith mixH 44)
def execStep45 (s : State) : Host.Outcome State Fault Refusal := .next (s.stepWith mixH 45)
def execStep46 (s : State) : Host.Outcome State Fault Refusal := .next (s.stepWith mixH 46)
def execStep47 (s : State) : Host.Outcome State Fault Refusal := .next (s.stepWith mixH 47)
def execStep48 (s : State) : Host.Outcome State Fault Refusal := .next (s.stepWith mixI 48)
def execStep49 (s : State) : Host.Outcome State Fault Refusal := .next (s.stepWith mixI 49)
def execStep50 (s : State) : Host.Outcome State Fault Refusal := .next (s.stepWith mixI 50)
def execStep51 (s : State) : Host.Outcome State Fault Refusal := .next (s.stepWith mixI 51)
def execStep52 (s : State) : Host.Outcome State Fault Refusal := .next (s.stepWith mixI 52)
def execStep53 (s : State) : Host.Outcome State Fault Refusal := .next (s.stepWith mixI 53)
def execStep54 (s : State) : Host.Outcome State Fault Refusal := .next (s.stepWith mixI 54)
def execStep55 (s : State) : Host.Outcome State Fault Refusal := .next (s.stepWith mixI 55)
def execStep56 (s : State) : Host.Outcome State Fault Refusal := .next (s.stepWith mixI 56)
def execStep57 (s : State) : Host.Outcome State Fault Refusal := .next (s.stepWith mixI 57)
def execStep58 (s : State) : Host.Outcome State Fault Refusal := .next (s.stepWith mixI 58)
def execStep59 (s : State) : Host.Outcome State Fault Refusal := .next (s.stepWith mixI 59)
def execStep60 (s : State) : Host.Outcome State Fault Refusal := .next (s.stepWith mixI 60)
def execStep61 (s : State) : Host.Outcome State Fault Refusal := .next (s.stepWith mixI 61)
def execStep62 (s : State) : Host.Outcome State Fault Refusal := .next (s.stepWith mixI 62)
def execStep63 (s : State) : Host.Outcome State Fault Refusal := .next (s.stepWith mixI 63)

/-! ### COMPRESS -/

/-- Message word i of a block: word_le(p[4i], p[4i+1], p[4i+2], p[4i+3]) (R52, R121). -/
def blockWord (block : List Byte) (i : Nat) : Word :=
  wordLE (block.getD (4 * i) 0) (block.getD (4 * i + 1) 0) (block.getD (4 * i + 2) 0) (block.getD (4 * i + 3) 0)

/-- M[0..15] of a block of 64 bytes (R121). -/
def blockWords (block : List Byte) : Vector Word 16 := Vector.ofFn fun i => blockWord block i

/-- Word-wise addition mod 2^32, no carry from one word to the next (R134). -/
def addWords (p q : Quad) : Quad := ⟨add32 p.a q.a, add32 p.b q.b, add32 p.c q.c, add32 p.d q.d⟩

/-- The load of COMPRESS: M from the block, (a, b, c, d) from S, k <- 0 (R121, R122). -/
def State.loadCompress (s : State) (chain : Quad) (block : List Byte) : State :=
  ((s.setMsg (blockWords block)).setWork chain).setK 0

end Sys2Proof.Machine
end

