-- ==== Sys2Proof/Machine/Context.lean ====
section
/-! DEFINITION. The Digest Context in main memory (spec/20_memory.md R56, R57): its fields by offset from context_ref, and COMPRESS as it acts
on a context (spec/41_compression.md R133).  Every address is a plain sum (R60). -/

namespace Sys2Proof.Machine

/-- The offset of CNT (count_low, count_high) in a context (R56). -/
def countOffset : Nat := 0x10

/-- The offset of BASE (R56). -/
def baseOffset : Nat := 0x18

/-- The offset of BUF (R56, R58). -/
def bufferOffset : Nat := Config.headerBytes

/-- S[0..3] of the context at `ctx` (R21, R57). -/
def State.chain (s : State) (ctx : Nat) : Quad :=
  ⟨s.readWord ctx, s.readWord (ctx + 4), s.readWord (ctx + 8), s.readWord (ctx + 12)⟩

/-- S[0..3] <- q. -/
def State.setChain (s : State) (ctx : Nat) (q : Quad) : State := s.writeBytes ctx (quadBytes q)

/-- CNT of the context at `ctx` (R23, R57). -/
def State.count (s : State) (ctx : Nat) : Double :=
  doubleOf (s.readWord (ctx + countOffset)) (s.readWord (ctx + countOffset + 4))

/-- CNT <- v, low half at the lower address (R55). -/
def State.setCount (s : State) (ctx : Nat) (v : Double) : State := s.writeBytes (ctx + countOffset) (le64 v)

/-- BASE of the context at `ctx` (R27, R57). -/
def State.base (s : State) (ctx : Nat) : Word := s.readWord (ctx + baseOffset)

/-- BUF[i..i+n) of the context at `ctx` (R25, R57). -/
def State.buffer (s : State) (ctx i n : Nat) : List Byte := s.readBytes (ctx + bufferOffset + i) n

/-- BUF[i..) <- bs. -/
def State.setBuffer (s : State) (ctx i : Nat) (bs : List Byte) : State := s.writeBytes (ctx + bufferOffset + i) bs

/-- S <- S + (a, b, c, d), word by word: the only write of S in a COMPRESS (R134, R137). -/
def State.feedForward (s : State) (ctx : Nat) : State := s.setChain ctx (addWords (s.chain ctx) s.work)

/-- COMPRESS(block) on the context at `ctx` (R133).  Irreducible so that no proof computes its 64 steps out by accident: Laws/Compression.lean
says all it does; the kernel evaluates it as any definition. -/
@[irreducible] def State.compress (s : State) (ctx : Nat) (block : List Byte) : State :=
  ((s.loadCompress (s.chain ctx) block).runSteps 64).feedForward ctx

/-- COMPRESS(BUF[0..63]). -/
def State.compressBuffer (s : State) (ctx : Nat) : State := s.compress ctx (s.buffer ctx 0 Config.blockBytes)

end Sys2Proof.Machine
end

