-- ==== Sys2Proof/Machine/Operands.lean ====
section
/-! DEFINITION. The operands of a command as regions of memory (spec/20_memory.md R60), and the checks whose failure is a contract violation
(spec/60_exceptions.md R191 V1 to V6; R194: they may be made in any order; the order taken here is log entry 12). -/

namespace Sys2Proof.Machine

/-! ### Regions (R60) -/

/-- The context region of a command. -/
def contextRegion (ctx : Word) : Region := contextAt ctx.toNat

/-- The data span of ABSORB. -/
def spanRegion (ptr len : Word) : Region := ⟨ptr.toNat, len.toNat⟩

/-- The digest region of FINAL. -/
def digestRegion (out : Word) : Region := ⟨out.toNat, Config.digestBytes⟩

/-- The regions an operation may write. -/
def writtenRegions : Instr → List Region
  | .init ctx => [contextRegion ctx]
  | .absorb ctx _ _ => [contextRegion ctx]
  | .final ctx out => [contextRegion ctx, digestRegion out]
  | .step00 | .step01 | .step02 | .step03 | .step04 | .step05 | .step06 | .step07
  | .step08 | .step09 | .step10 | .step11 | .step12 | .step13 | .step14 | .step15
  | .step16 | .step17 | .step18 | .step19 | .step20 | .step21 | .step22 | .step23
  | .step24 | .step25 | .step26 | .step27 | .step28 | .step29 | .step30 | .step31
  | .step32 | .step33 | .step34 | .step35 | .step36 | .step37 | .step38 | .step39
  | .step40 | .step41 | .step42 | .step43 | .step44 | .step45 | .step46 | .step47
  | .step48 | .step49 | .step50 | .step51 | .step52 | .step53 | .step54 | .step55
  | .step56 | .step57 | .step58 | .step59 | .step60 | .step61 | .step62 | .step63 => []

/-- The regions an operation reads or writes. -/
def usedRegions : Instr → List Region
  | .init ctx => [contextRegion ctx]
  | .absorb ctx ptr len => [contextRegion ctx, spanRegion ptr len]
  | .final ctx out => [contextRegion ctx, digestRegion out]
  | .step00 | .step01 | .step02 | .step03 | .step04 | .step05 | .step06 | .step07
  | .step08 | .step09 | .step10 | .step11 | .step12 | .step13 | .step14 | .step15
  | .step16 | .step17 | .step18 | .step19 | .step20 | .step21 | .step22 | .step23
  | .step24 | .step25 | .step26 | .step27 | .step28 | .step29 | .step30 | .step31
  | .step32 | .step33 | .step34 | .step35 | .step36 | .step37 | .step38 | .step39
  | .step40 | .step41 | .step42 | .step43 | .step44 | .step45 | .step46 | .step47
  | .step48 | .step49 | .step50 | .step51 | .step52 | .step53 | .step54 | .step55
  | .step56 | .step57 | .step58 | .step59 | .step60 | .step61 | .step62 | .step63 => []

/-! ### Validity and alignment (R62, R63) -/

/-- Valid(a). -/
def State.validByte (s : State) (a : Nat) : Bool := s.platform.valid.any fun r => r.holds a

/-- The `n` bytes from `a` up are Valid. -/
def State.validFrom (s : State) (a : Nat) : Nat → Bool
  | 0 => true
  | n + 1 => s.validByte a && s.validFrom (a + 1) n

/-- A region is valid: it does not wrap past the top of the address space, and every byte of it is Valid (R62). -/
def State.validRegion (s : State) (r : Region) : Bool :=
  r.base + r.size ≤ Config.addressSpace && s.validFrom r.base r.size

/-- A reference is a multiple of its alignment (R63). -/
def isAligned (align : Nat) (r : Word) : Bool := r.toNat % align == 0

/-! ### The preconditions of the commands -/

/-- What every command needs of its context region: V4, V3. -/
def State.checkContext (s : State) (ctx : Word) : Option Refusal :=
  if !isAligned Config.ctxAlign ctx then some .misalignedReference
  else if !s.validRegion (contextRegion ctx) then some .invalidRegion
  else none

/-- What ABSORB and FINAL need of the phase: V1, V2. -/
def State.checkPhase (s : State) (ctx : Word) : Option Refusal :=
  match s.phaseOf ctx.toNat with
  | .uninitialized => some .uninitializedContext
  | .finalized => some .finalizedContext
  | .active => none

/-- What ABSORB and FINAL need of their second region: V4 (of its own alignment), V3, V5. -/
def State.checkOther (s : State) (ctx : Word) (align : Nat) (ref : Word) (r : Region) : Option Refusal :=
  if !isAligned align ref then some .misalignedReference
  else if !s.validRegion r then some .invalidRegion
  else if (contextRegion ctx).overlaps r then some .overlappingRegions
  else none

/-- The precondition of INIT (R151): any phase. -/
def State.checkInit (s : State) (ctx : Word) : Option Refusal := s.checkContext ctx

/-- The precondition of ABSORB (R153).  An empty span is not examined (R62, R158). -/
def State.checkAbsorb (s : State) (ctx ptr len : Word) : Option Refusal :=
  (s.checkContext ctx).or <| (s.checkPhase ctx).or <|
    if len = 0 then none else s.checkOther ctx Config.dataAlign ptr (spanRegion ptr len)

/-- The precondition of FINAL (R161). -/
def State.checkFinal (s : State) (ctx out : Word) : Option Refusal :=
  (s.checkContext ctx).or <| (s.checkPhase ctx).or <| s.checkOther ctx Config.digestAlign out (digestRegion out)

/-- The precondition of any operation; a step has none (R124 to R127: "Exceptions: none"). -/
def State.check (s : State) : Instr → Option Refusal
  | .init ctx => s.checkInit ctx
  | .absorb ctx ptr len => s.checkAbsorb ctx ptr len
  | .final ctx out => s.checkFinal ctx out
  | .step00 | .step01 | .step02 | .step03 | .step04 | .step05 | .step06 | .step07
  | .step08 | .step09 | .step10 | .step11 | .step12 | .step13 | .step14 | .step15
  | .step16 | .step17 | .step18 | .step19 | .step20 | .step21 | .step22 | .step23
  | .step24 | .step25 | .step26 | .step27 | .step28 | .step29 | .step30 | .step31
  | .step32 | .step33 | .step34 | .step35 | .step36 | .step37 | .step38 | .step39
  | .step40 | .step41 | .step42 | .step43 | .step44 | .step45 | .step46 | .step47
  | .step48 | .step49 | .step50 | .step51 | .step52 | .step53 | .step54 | .step55
  | .step56 | .step57 | .step58 | .step59 | .step60 | .step61 | .step62 | .step63 => none

/-- A command that is turned away when its precondition fails, and otherwise takes the state its rule gives. -/
def guarded (check : Option Refusal) (t : State) : Host.Outcome State Fault Refusal :=
  match check with
  | some r => .refused r
  | none => .next t

/-! ### Commands in progress (R191 V6, R215, R216) -/

/-- Some region of the one list meets some region of the other. -/
def anyOverlap (rs qs : List Region) : Bool := rs.any fun r => qs.any fun q => r.overlaps q

/-- Two commands may not be in progress together: one writes a region the other reads or writes. -/
def conflicts (i j : Instr) : Bool :=
  anyOverlap (writtenRegions i) (usedRegions j) || anyOverlap (usedRegions i) (writtenRegions j)

/-- The command conflicts with one in progress. -/
def State.busyFor (s : State) (i : Instr) : Bool := s.inFlight.any fun j => conflicts i j

/-- The region meets one that a command in progress reads or writes, so the host must not write it (R216). -/
def State.busyToWrite (s : State) (r : Region) : Bool := s.inFlight.any fun j => anyOverlap [r] (usedRegions j)

/-- The region meets one that a command in progress writes, so the host must not read it; a span may be read (R216). -/
def State.busyToRead (s : State) (r : Region) : Bool := s.inFlight.any fun j => anyOverlap [r] (writtenRegions j)

/-- The commands running on engines: one on each, the oldest first served; any others wait for an engine (R8 N_ENGINES; log entry 10). -/
def State.running (s : State) : List Instr := s.inFlight.take (s.platform.moreEngines + 1)

/-- Some engine has no command running on it (R8 N_ENGINES). -/
def State.hasIdleEngine (s : State) : Bool := s.inFlight.length < s.platform.moreEngines + 1

end Sys2Proof.Machine
end

