-- ==== Sys2Proof/Machine/Commands.lean ====
section
/-! DEFINITION. The three commands (spec/42_context_engine.md): INIT (R151), ABSORB (R153 to R158) and FINAL (R160 to R163).  Each takes its
pseudocode in order, over the scheduler registers pos, fill and L of State (R34), and leaves the bytes and registers of which the spec says
"any value" free. -/

namespace Sys2Proof.Machine

/-! ### INIT (R151) -/

/-- The four magic words (R15, R151). -/
def magicWords : Quad := ⟨0x67452301, 0xefcdab89, 0x98badcfe, 0x10325476⟩

/-- What INIT writes: the magic words, a zero counter, a zero buffer; BASE takes any value (R27).  It reads no memory. -/
def State.initMemory (s : State) (c : Nat) : State :=
  let s := s.setChain c magicWords
  let s := s.setCount c 0
  let s := s.setBuffer c 0 (List.replicate Config.blockBytes 0)
  s.forgetBytes (c + baseOffset) 4

/-- The effect of INIT.  A live context whose region it meets is Uninitialized after it (R64); its own is Active. -/
def State.initContext (s : State) (ctx : Word) : State :=
  ((s.initMemory ctx.toNat).retire (contextRegion ctx)).setPhase ctx.toNat .active

/-- INIT ctx. -/
def execInit (ctx : Word) (s : State) : Host.Outcome State Fault Refusal :=
  guarded (s.checkInit ctx) (s.initContext ctx)

/-! ### ABSORB (R153) -/

/-- The opening of ABSORB: fill from CNT before the update, CNT updated (R154), pos <- 0. -/
def State.absorbOpen (s : State) (ctx : Nat) (len : Word) : State :=
  let old := s.count ctx
  ((s.setFill (fillOf old)).setCount ctx (countAfter old len)).setPos 0

/-- The whole span goes to the buffer and does not fill it (R155, len < need). -/
def State.absorbPartial (s : State) (ctx ptr len : Nat) : State :=
  s.setBuffer ctx s.fill (s.readBytes ptr len)

/-- Stage 1: the first `need` span bytes fill the buffer, which is compressed (R155). -/
def State.absorbFill (s : State) (ctx ptr : Nat) : State :=
  let need := Config.blockBytes - s.fill
  ((s.setBuffer ctx s.fill (s.readBytes ptr need)).compressBuffer ctx).setPos need

/-- One direct chunk: the next 64 span bytes are compressed where they lie (R156, R67). -/
def State.absorbChunk (s : State) (ctx ptr : Nat) : State :=
  (s.compress ctx (s.readBytes (ptr + s.pos) Config.blockBytes)).setPos (s.pos + Config.blockBytes)

/-- Stage 2: `n` direct chunks (R156). -/
def State.absorbChunks (s : State) (ctx ptr : Nat) : Nat → State
  | 0 => s
  | n + 1 => (s.absorbChunk ctx ptr).absorbChunks ctx ptr n

/-- Stage 3: the 0..63 span bytes left go to BUF[0..) (R157). -/
def State.absorbRest (s : State) (ctx ptr len : Nat) : State :=
  s.setBuffer ctx 0 (s.readBytes (ptr + s.pos) (len - s.pos))

/-- The three stages in order; the number of chunks is `(len - pos) div 64` (R156). -/
def State.absorbStages (s : State) (ctx ptr len : Nat) : State :=
  if s.fill > 0 ∧ len < Config.blockBytes - s.fill then s.absorbPartial ctx ptr len
  else
    let s := if s.fill > 0 then s.absorbFill ctx ptr else s
    let s := s.absorbChunks ctx ptr ((len - s.pos) / Config.blockBytes)
    s.absorbRest ctx ptr len

/-- The effect of ABSORB: the stages; then, unless the span is empty (R158 a: no byte is written), BUF[fill..64) takes any value (R25, R153;
log entry 8), and so do the working and scheduler registers (R30, R34; log entry 4).  The phase stays Active. -/
def State.absorbSpan (s : State) (ctx ptr len : Word) : State :=
  let c := ctx.toNat
  let oldFill := fillOf (s.count c)
  let s := (s.absorbOpen c len).absorbStages c ptr.toNat len.toNat
  let newFill := (oldFill + len.toNat) % Config.blockBytes
  let s := if len = 0 then s else s.forgetBytes (c + bufferOffset + newFill) (Config.blockBytes - newFill)
  s.forgetInternal

/-- ABSORB ctx, ptr, len. -/
def execAbsorb (ctx ptr len : Word) (s : State) : Host.Outcome State Fault Refusal :=
  guarded (s.checkAbsorb ctx ptr len) (s.absorbSpan ctx ptr len)

/-! ### FINAL (R161) -/

/-- The opening of FINAL: fill and L from CNT. -/
def State.finalOpen (s : State) (ctx : Nat) : State :=
  let cnt := s.count ctx
  (s.setFill (fillOf cnt)).setTotal cnt

/-- No room for the 8 length bytes: zeros to the end of the buffer, a COMPRESS, zeros up to the length field (R161, fill >= 56). -/
def State.padTwo (s : State) (ctx : Nat) : State :=
  let s := s.setBuffer ctx (s.fill + 1) (List.replicate (63 - s.fill) 0)
  (s.compressBuffer ctx).setBuffer ctx 0 (List.replicate 56 0)

/-- Zeros up to the length field (R161, fill < 56). -/
def State.padOne (s : State) (ctx : Nat) : State := s.setBuffer ctx (s.fill + 1) (List.replicate (55 - s.fill) 0)

/-- BUF[fill] <- 0x80, then the zeros (R160, R161). -/
def State.finalPad (s : State) (ctx : Nat) : State :=
  let s := s.setBuffer ctx s.fill [0x80]
  if s.fill ≥ 56 then s.padTwo ctx else s.padOne ctx

/-- The length field LE64(L) at BUF[56..64), and the last COMPRESS. -/
def State.finalLength (s : State) (ctx : Nat) : State := (s.setBuffer ctx 56 (le64 s.total)).compressBuffer ctx

/-- The digest: S[0..3] as 16 bytes at `out` (R163). -/
def State.writeDigest (s : State) (ctx out : Nat) : State := s.writeBytes out (quadBytes (s.chain ctx))

/-- What FINAL writes: the padding through the buffer, S by COMPRESS, the digest; then CNT and BUF take any value (R28). -/
def State.finalMemory (s : State) (c out : Nat) : State :=
  let s := (s.finalOpen c).finalPad c
  let s := (s.finalLength c).writeDigest c out
  (s.forgetBytes (c + countOffset) 8).forgetBytes (c + bufferOffset) Config.blockBytes

/-- The effect of FINAL.  A live context the digest is written over is Uninitialized after it (R38, R64; log entry 9); its own is Finalized; the
working and scheduler registers take any value. -/
def State.finalContext (s : State) (ctx out : Word) : State :=
  (((s.finalMemory ctx.toNat out.toNat).retire (digestRegion out)).setPhase ctx.toNat .finalized).forgetInternal

/-- FINAL ctx, out. -/
def execFinal (ctx out : Word) (s : State) : Host.Outcome State Fault Refusal :=
  guarded (s.checkFinal ctx out) (s.finalContext ctx out)

end Sys2Proof.Machine
end

