-- ==== Sys2Proof/Machine/HostMoves.lean ====
section
/-! DEFINITION. What the inputs of the machine do (the table of host moves, spec/70_reset_and_hazards.md R228): commands issued, started and
completed, host reads and writes, hardware reset, and the sequencer's tick.  Commands in progress (R200, R216) are held in State and take
their whole effect when they complete (DEDUCED, log entry 10): the regions they use are frozen meanwhile, so the moment makes no difference
(R71).  A command that finds every engine busy waits for one (DESIGN CHOICE, log entry 10). -/

namespace Sys2Proof.Machine

/-- A command may be issued now unless one of its regions is in use by a command in progress (V6; R215, R216). -/
def State.admission (s : State) (i : Instr) : Option Refusal :=
  if s.busyFor i then some .concurrentAccess else none

/-- The `n`-th of the commands running on engines completes; the oldest one waiting, if any, has its engine then. -/
def State.complete (s : State) (n : Nat) : Host.Outcome State Fault Refusal :=
  match s.running[n]? with
  | none => .refused .noSuchCommand
  | some i => exec i (s.setInFlight (s.inFlight.eraseIdx n))

/-- The host issues a command and waits for it: reserved descriptors are V7 (R84).  With every engine busy it has to wait for one first: the
oldest command in progress completes, and the issue is still the next input (R190: a valid command always completes; log entry 10). -/
def State.issue (s : State) (d : Descriptor) : Host.Outcome State Fault Refusal :=
  match decodeDescriptor d with
  | .error _ => .refused .reservedDescriptor
  | .ok i =>
    match s.admission i with
    | some r => .refused r
    | none => if s.hasIdleEngine then exec i s else (s.setPending (.issue d :: s.pending)).complete 0

/-- The host issues a command and goes on: its precondition is checked at the issue, and the command is in progress, on an idle engine or
waiting for one (log entry 10). -/
def State.start (s : State) (d : Descriptor) : Host.Outcome State Fault Refusal :=
  match decodeDescriptor d with
  | .error _ => .refused .reservedDescriptor
  | .ok i => guarded ((s.admission i).or (s.check i)) (s.setInFlight (s.inFlight ++ [i]))

/-- A host write, between commands on the regions concerned.  A live context it meets becomes Uninitialized (R217).  Past the last address there
is no byte to write: a fault (log entry 11).  Valid is not asked: for the host every address is ordinary memory (DESIGN CHOICE, log entry 18). -/
def State.hostWrite (s : State) (a : Word) (bs : List Byte) : Host.Outcome State Fault Refusal :=
  let r : Region := ⟨a.toNat, bs.length⟩
  if Config.addressSpace < r.base + r.size then .fault .outsideAddressSpace
  else if s.busyToWrite r then .refused .concurrentAccess
  else .next ((s.writeBytes r.base bs).retire r)

/-- A host read.  It changes nothing but what the host was handed (R66).  Valid is not asked (DESIGN CHOICE, log entry 18). -/
def State.hostRead (s : State) (a : Word) (n : Nat) : Host.Outcome State Fault Refusal :=
  let r : Region := ⟨a.toNat, n⟩
  if Config.addressSpace < r.base + r.size then .fault .outsideAddressSpace
  else if s.busyToRead r then .refused .concurrentAccess
  else .next (s.setHostData (s.readBytes r.base n))

/-- Hardware reset (R210): no command in progress (one that was is abandoned), every context Uninitialized, all of memory and the internal
registers any value (log entry 15). -/
def State.hardReset (s : State) : State :=
  { ((s.setMem []).setPhases []).setInFlight [] with epoch := s.epoch + 1 }.forgetInternal

/-- What one input does. -/
def State.take (s : State) : Input → Host.Outcome State Fault Refusal
  | .issue d => s.issue d
  | .start d => s.start d
  | .complete n => s.complete n
  | .write a bs => s.hostWrite a bs
  | .read a n => s.hostRead a n
  | .reset => .next s.hardReset
  | .tick => exec (decodeStep s.k) s

/-- No input is left: the oldest command in progress completes (R225, R226: no command hangs; which one is first is log entry 10); with none, the
engine is idle (R202) and the run is over (R229). -/
def State.idle (s : State) : Host.Outcome State Fault Refusal :=
  match s.inFlight with
  | [] => .next s
  | _ :: _ => s.complete 0

/-- The state in which the operation encoded by a table word (numbered as spec/opcode_table.json numbers it) is the next to run: a command is
the host's next move; a step is selected by the index register k with the sequencer ticking (log entry 6). -/
def State.presentWord (s : State) (nbits w : Nat) : State :=
  if isStepWidth nbits ∧ w < 64 then (s.setK (BitVec.ofNat 6 w)).setPending (.tick :: s.pending)
  else s.setPending (.issue (tableDescriptor w) :: s.pending)

end Sys2Proof.Machine
end

