-- ==== Sys2Proof/Machine/Step.lean ====
section
/-! DEFINITION. One step of the machine: the next input is taken (spec/70_reset_and_hazards.md R227, R228).  MD5CORE fetches nothing and has no
program counter (spec/10_state.md R33): commands come from the host. -/

namespace Sys2Proof.Machine

/-- One step. -/
def step (s : State) : Host.Outcome State Fault Refusal :=
  match s.pending with
  | [] => s.idle
  | x :: rest => (s.setPending rest).take x

/-- The state whose next step runs the instruction that a word of the opcode table encodes. -/
def State.withFetchWord (s : State) (nbits w : Nat) : State := s.presentWord nbits w

end Sys2Proof.Machine
end

