-- ==== Sys2Proof/Machine/Functional.lean ====
section
/-! DEFINITION. MD5CORE as functions of values, without memory or registers: the terms in which the rules speak of COMPRESS as a pure function
(spec/41_compression.md R120), of the chaining value of a message (spec/10_state.md R21), of the padding (spec/42_context_engine.md R160) and of
the digest (R164), and the steps on four fixed registers (R129).  The machine does not call them; the statements compare the machine with
them. -/

namespace Sys2Proof.Machine

/-- The step of index `k` (R123), its mixing function by its round (R85). -/
def stepAt (msg : Vector Word 16) (k : Nat) (q : Quad) : Quad := stepQuad (mixOf (k / 16)) k msg q

/-- `n` steps from index `k` on, in index order (R135). -/
def stepsFrom (msg : Vector Word 16) : (k n : Nat) → Quad → Quad
  | _, 0, q => q
  | k, n + 1, q => stepsFrom msg (k + 1) n (stepAt msg k q)

/-- compress(state, block) (R120, R133). -/
@[irreducible] def compressFn (q : Quad) (block : List Byte) : Quad := addWords q (stepsFrom (blockWords block) 0 64 q)

/-! ### Four fixed registers with rotating roles (R129) -/

/-- The fixed register that plays role `x` (0 for A, 1 for B, 2 for C, 3 for D) before the step of index `k`: Q0 plays A before step 0, and the
roles shift by one register per step (R129). -/
def roleHolder (k x : Nat) : Fin 4 := ⟨(x + 4 - k % 4) % 4, Nat.mod_lt _ (by decide)⟩

/-- The four registers read by role. -/
def byRole (k : Nat) (r : Vector Word 4) : Quad := ⟨r[roleHolder k 0], r[roleHolder k 1], r[roleHolder k 2], r[roleHolder k 3]⟩

/-- The step of index `k` in place: only the register in the A role is written, with temp (R129). -/
def inPlaceStep (msg : Vector Word 16) (k : Nat) (r : Vector Word 4) : Vector Word 4 :=
  r.set (roleHolder k 0) (stepAt msg k (byRole k r)).b

/-- `n` such steps from index `k` on. -/
def inPlaceSteps (msg : Vector Word 16) : (k n : Nat) → Vector Word 4 → Vector Word 4
  | _, 0, r => r
  | k, n + 1, r => inPlaceSteps msg (k + 1) n (inPlaceStep msg k r)

/-! ### Messages -/

/-- The chaining value after the first `n` blocks of `bs`, in order (R136). -/
def chainBlocks : Nat → Quad → List Byte → Quad
  | 0, q, _ => q
  | n + 1, q, bs => chainBlocks n (compressFn q (bs.take 64)) (bs.drop 64)

/-- The running state of a message: COMPRESS of its complete blocks in order, from the magic words (R21). -/
def chainOf (msg : List Byte) : Quad := chainBlocks (msg.length / 64) magicWords msg

/-- The bytes of a message after its last complete block (R25). -/
def tailOf (msg : List Byte) : List Byte := msg.drop (64 * (msg.length / 64))

/-- L = (8 * n) mod 2^64 (R160). -/
def bitLength (n : Nat) : Double := BitVec.ofNat 64 (8 * n)

/-- z = (55 - f) mod 64, with f = n mod 64 (R160). -/
def padZeros (n : Nat) : Nat := (55 + 64 - n % 64) % 64

/-- pad(n) = 80 ++ (00 repeated z times) ++ LE64(L) (R160). -/
def padding (n : Nat) : List Byte := 0x80 :: (List.replicate (padZeros n) 0 ++ le64 (bitLength n))

/-- A message with its padding: whole blocks (R164). -/
def padded (msg : List Byte) : List Byte := msg ++ padding msg.length

/-- The MD5 digest of a message (R164). -/
def md5 (msg : List Byte) : List Byte := quadBytes (chainOf (padded msg))

end Sys2Proof.Machine
end

