-- ==== Sys2Proof/WellFormed.lean ====
section
/-! DEFINITION. When the operands of a command are in order as far as they alone decide it: the violations of spec/60_exceptions.md R191
whose "Detected by" is operands, less the platform predicate Valid.  The four checks are those of spec/20_memory.md R62 (no wrap past the
top of the address space), R63 (alignment) and R64 (the context region is disjoint from the other region of the command).  It is written
here on plain numbers, apart from the checks that Machine/Operands.lean makes while a command runs. -/

namespace Sys2Proof

/-- R63: the reference is a multiple of its alignment (V4). -/
def WellFormed.aligned (align : Nat) (r : Word) : Bool := r.toNat % align == 0

/-- R62: `size` bytes from `r` end at or below the top of the address space (part of V3). -/
def WellFormed.fits (r : Word) (size : Nat) : Bool := r.toNat + size ≤ Config.addressSpace

/-- R64: no byte is both among the `n` bytes at `x` and among the `m` bytes at `y` (V5). -/
def WellFormed.apart (x : Word) (n : Nat) (y : Word) (m : Nat) : Bool :=
  x.toNat + n ≤ y.toNat || y.toNat + m ≤ x.toNat

/-- The context region of a command (R59): aligned, and inside the address space. -/
def WellFormed.context (ctx : Word) : Bool :=
  WellFormed.aligned Config.ctxAlign ctx && WellFormed.fits ctx Config.contextBytes

/-- The operands of an instruction are in order.  An empty data span is not examined (R62).  A step has no operand. -/
def Instr.wellFormed : Instr → Bool
  | .init ctx => WellFormed.context ctx
  | .absorb ctx ptr len =>
    WellFormed.context ctx &&
      (len.toNat == 0 ||
        (WellFormed.aligned Config.dataAlign ptr && WellFormed.fits ptr len.toNat &&
          WellFormed.apart ctx Config.contextBytes ptr len.toNat))
  | .final ctx out =>
    WellFormed.context ctx && WellFormed.aligned Config.digestAlign out &&
      WellFormed.fits out Config.digestBytes && WellFormed.apart ctx Config.contextBytes out Config.digestBytes
  | .step00 | .step01 | .step02 | .step03 | .step04 | .step05 | .step06 | .step07
  | .step08 | .step09 | .step10 | .step11 | .step12 | .step13 | .step14 | .step15
  | .step16 | .step17 | .step18 | .step19 | .step20 | .step21 | .step22 | .step23
  | .step24 | .step25 | .step26 | .step27 | .step28 | .step29 | .step30 | .step31
  | .step32 | .step33 | .step34 | .step35 | .step36 | .step37 | .step38 | .step39
  | .step40 | .step41 | .step42 | .step43 | .step44 | .step45 | .step46 | .step47
  | .step48 | .step49 | .step50 | .step51 | .step52 | .step53 | .step54 | .step55
  | .step56 | .step57 | .step58 | .step59 | .step60 | .step61 | .step62 | .step63 => true

end Sys2Proof
end

