-- ==== Sys2Proof/Safety.lean ====
section
/-! DEFINITION. The terms claims are stated in: what two states agree on, which bytes a command leaves at any value, what a context represents
(spec/10_state.md R26), the invariant of the whole machine, the start premises and the end of a run (spec/70_reset_and_hazards.md R227,
R229).  A run is safe when no step of it is refused or faults: a refusal is a contract violation (spec/60_exceptions.md R191), of which
nothing may be claimed. -/

namespace Sys2Proof.Machine

/-! ### What two states agree on -/

/-- Every byte of memory outside the regions reads in `t` as in `s` (the frame rule, R61). -/
def SameBytesBut (rs : List Region) (s t : State) : Prop :=
  ∀ a, (∀ r ∈ rs, r.holds a = false) → t.readByte a = s.readByte a

/-- The working, message and scheduler registers (R30 to R34) are the same. -/
def SameInternal (s t : State) : Prop :=
  t.work = s.work ∧ t.msg = s.msg ∧ t.k = s.k ∧ t.pos = s.pos ∧ t.fill = s.fill ∧ t.total = s.total

/-- What no command touches is the same: the platform's parameters, the commands in progress, the inputs to come, what the host was last
handed, and the reset count. -/
def SameSurroundings (s t : State) : Prop :=
  t.platform = s.platform ∧ t.inFlight = s.inFlight ∧ t.pending = s.pending ∧ t.hostData = s.hostData ∧ t.epoch = s.epoch

/-! ### The step as the rule gives it (R123) -/

/-- (d, temp, b, c) with temp = b + rotl(a + f + t + m, n), `f` the mixing result, `m` the message word, `t` the constant, `n` the rotation amount
(R123).  Written with the rotation of bit vectors, apart from the machine's own rotl32. -/
def afterStep (q : Quad) (f m t : Word) (n : Nat) : Quad := ⟨q.d, q.b + (q.a + f + t + m).rotateLeft n, q.b, q.c⟩

/-! ### When a command may run (R62 to R64, R150) -/

/-- Valid(a): the platform backs the address with memory (R8, R62). -/
def Backed (s : State) (a : Nat) : Prop := ∃ r ∈ s.platform.valid, r.base ≤ a ∧ a < r.base + r.size

/-- The `n` bytes from `a` up are a valid region: all Valid, and no wrap past the top of the address space (R62). -/
def RegionValid (s : State) (a n : Nat) : Prop := a + n ≤ 2 ^ 32 ∧ ∀ i, i < n → Backed s (a + i)

/-- No byte is both among the `n` from `a` up and among the `m` from `b` up (R64). -/
def NoCommonByte (a n b m : Nat) : Prop := ∀ x, ¬ (a ≤ x ∧ x < a + n ∧ b ≤ x ∧ x < b + m)

/-- What every command needs of its context: a multiple of 4 (R63), 92 valid bytes (R59, R62). -/
def ContextReady (s : State) (ctx : Word) : Prop := ctx.toNat % 4 = 0 ∧ RegionValid s ctx.toNat 92

/-- What ABSORB needs of its span: nothing of an empty one, else valid bytes clear of the context (R62, R64). -/
def SpanReady (s : State) (ctx ptr len : Word) : Prop :=
  len = 0 ∨ (RegionValid s ptr.toNat len.toNat ∧ NoCommonByte ctx.toNat 92 ptr.toNat len.toNat)

/-- What FINAL needs of its digest region: 16 valid bytes clear of the context (R62, R64). -/
def DigestReady (s : State) (ctx out : Word) : Prop :=
  RegionValid s out.toNat 16 ∧ NoCommonByte ctx.toNat 92 out.toNat 16

/-- The preconditions of an operation, as the rules give them (R151, R153, R161; none for a step, R124 to R127).  Written from the rules, apart
from the checks the machine makes (Machine/Operands.lean). -/
def Ready (s : State) : Instr → Prop
  | .init ctx => ContextReady s ctx
  | .absorb ctx ptr len => ContextReady s ctx ∧ s.phaseOf ctx.toNat = .active ∧ SpanReady s ctx ptr len
  | .final ctx out => ContextReady s ctx ∧ s.phaseOf ctx.toNat = .active ∧ DigestReady s ctx out
  | .step00 | .step01 | .step02 | .step03 | .step04 | .step05 | .step06 | .step07
  | .step08 | .step09 | .step10 | .step11 | .step12 | .step13 | .step14 | .step15
  | .step16 | .step17 | .step18 | .step19 | .step20 | .step21 | .step22 | .step23
  | .step24 | .step25 | .step26 | .step27 | .step28 | .step29 | .step30 | .step31
  | .step32 | .step33 | .step34 | .step35 | .step36 | .step37 | .step38 | .step39
  | .step40 | .step41 | .step42 | .step43 | .step44 | .step45 | .step46 | .step47
  | .step48 | .step49 | .step50 | .step51 | .step52 | .step53 | .step54 | .step55
  | .step56 | .step57 | .step58 | .step59 | .step60 | .step61 | .step62 | .step63 => True

/-! ### The fields of a context as regions (R56) -/

/-- S[0..3]. -/
def chainField (ctx : Nat) : Region := ⟨ctx, 16⟩

/-- CNT. -/
def countField (ctx : Nat) : Region := ⟨ctx + countOffset, 8⟩

/-- BASE. -/
def baseField (ctx : Nat) : Region := ⟨ctx + baseOffset, 4⟩

/-- BUF[0..64). -/
def bufferField (ctx : Nat) : Region := ⟨ctx + bufferOffset, 64⟩

/-- BUF[i..64). -/
def bufferFrom (ctx i : Nat) : Region := ⟨ctx + bufferOffset + i, 64 - i⟩

/-- The fill level of the context at `ctx` (R24). -/
def State.fillLevel (s : State) (ctx : Nat) : Nat := fillOf (s.count ctx)

/-- The bytes a command run in `s` may leave at any value: BASE after INIT (R27), BUF above the new fill level after ABSORB (R25), CNT and BUF
after FINAL (R28). -/
def anyValueRegions (s : State) : Instr → List Region
  | .init ctx => [baseField ctx.toNat]
  | .absorb ctx _ len => [bufferFrom ctx.toNat ((s.fillLevel ctx.toNat + len.toNat) % 64)]
  | .final ctx _ => [countField ctx.toNat, bufferField ctx.toNat]
  | .step00 | .step01 | .step02 | .step03 | .step04 | .step05 | .step06 | .step07
  | .step08 | .step09 | .step10 | .step11 | .step12 | .step13 | .step14 | .step15
  | .step16 | .step17 | .step18 | .step19 | .step20 | .step21 | .step22 | .step23
  | .step24 | .step25 | .step26 | .step27 | .step28 | .step29 | .step30 | .step31
  | .step32 | .step33 | .step34 | .step35 | .step36 | .step37 | .step38 | .step39
  | .step40 | .step41 | .step42 | .step43 | .step44 | .step45 | .step46 | .step47
  | .step48 | .step49 | .step50 | .step51 | .step52 | .step53 | .step54 | .step55
  | .step56 | .step57 | .step58 | .step59 | .step60 | .step61 | .step62 | .step63 => []

/-! ### What a context represents (R26) -/

/-- The context at `ctx` holds the abstract value of the message `msg`: S its chaining value (I2), CNT its length in bits (I4, and with it I1),
BUF[0..fill) its tail (I3). -/
def Represents (s : State) (ctx : Nat) (msg : List Byte) : Prop :=
  s.chain ctx = chainOf msg ∧ s.count ctx = bitLength msg.length ∧ s.buffer ctx 0 (msg.length % 64) = tailOf msg

/-- The contexts at `c` in `s` and at `e` in `t` have one abstract value: S, CNT and BUF[0..fill) are the same (R26).  BASE and the rest of BUF
may differ. -/
def SameAbstractValue (s : State) (c : Nat) (t : State) (e : Nat) : Prop :=
  t.chain e = s.chain c ∧ t.count e = s.count c ∧ t.buffer e 0 (t.fillLevel e) = s.buffer c 0 (s.fillLevel c)

/-- What the phase of a context says of its 92 bytes: an Active one represents some message, a Finalized one holds the final state of some
message in S (R28), an Uninitialized one may hold anything (R40). -/
def ContextSound (s : State) (ctx : Nat) : Phase → Prop
  | .uninitialized => True
  | .active => ∃ msg, Represents s ctx msg
  | .finalized => ∃ msg, s.chain ctx = chainOf (padded msg)

/-! ### The invariant of the machine -/

/-- The live contexts (phase Active or Finalized) are aligned, inside the address space, pairwise disjoint (R64), and hold what their phase
says. -/
def ContextsSound (s : State) : Prop :=
  (∀ e ∈ s.phases, e.1 % Config.ctxAlign = 0 ∧ e.1 + Config.contextBytes ≤ Config.addressSpace ∧ ContextSound s e.1 e.2) ∧
    ∀ e ∈ s.phases, ∀ f ∈ s.phases, e.1 ≠ f.1 → (contextAt e.1).overlaps (contextAt f.1) = false

/-- The commands in progress: no two in each other's way (R215, R216), each with its precondition holding. -/
def InFlightSound (s : State) : Prop :=
  s.inFlight.Pairwise (fun i j => conflicts i j = false) ∧ ∀ i ∈ s.inFlight, s.check i = none

/-- The invariant: memory and phases in canonical form, the live contexts sound, the commands in progress sound. -/
def Invariant (s : State) : Prop :=
  Memory.wf s.mem = true ∧ Phases.wf s.phases = true ∧ ContextsSound s ∧ InFlightSound s

/-! ### Runs (R227, R229) -/

/-- An abstract value (R26): S, CNT and BUF[0..fill). -/
structure AbstractValue where
  chain : Quad
  count : Double
  tail : List Byte
deriving DecidableEq, Repr

/-- The abstract value of the context at `ctx`. -/
def State.abstractValue (s : State) (ctx : Nat) : AbstractValue := ⟨s.chain ctx, s.count ctx, s.buffer ctx 0 (s.fillLevel ctx)⟩

/-- The abstract value of a message: what R26 (I1 to I4) makes of it. -/
def AbstractValue.ofMessage (msg : List Byte) : AbstractValue := ⟨chainOf msg, bitLength msg.length, tailOf msg⟩

/-- What P-phase says of a context it lists (R227): Active with an abstract value, or Finalized. -/
inductive StartContext where
  | active (value : AbstractValue)
  | finalized
deriving DecidableEq, Repr

/-- The phase of a listed context. -/
def StartContext.phase : StartContext → Phase
  | .active _ => .active
  | .finalized => .finalized

/-- The start premises of a run (R227), with the contexts `listed` as Active or Finalized at their context_ref and every other one Uninitialized
(`[]`: every context is Uninitialized).  P-idle: no command is in progress.  P-phase: the phases are those listed, and each Active context
holds the abstract value listed for it, which satisfies R26.  Of the rest, P-table holds by construction, P-mem because a byte nothing was
written to is unknown, P-valid because no input changes the platform's parameters, and P-noviolation because a violation is a refusal, after
which there is no state. -/
def StartPremises (listed : List (Nat × StartContext)) (s : State) : Prop :=
  s.inFlight = [] ∧ s.phases = (listed.map fun e => (e.1, e.2.phase)) ∧
    ∀ e ∈ listed, ∀ v, e.2 = .active v → s.abstractValue e.1 = v ∧ ∃ msg, v = .ofMessage msg

/-- A run over an infinite sequence of host moves (R227; a finite one is the list `pending`): the machine is handed one move at a time, and a
step that leaves the move pending, because a command waits for an engine, is followed by the same move again.  `states n` is the state
before step `n`, `next n` the number of the moves taken by then. -/
structure InfiniteRun (moves : Nat → Input) (start : State) (states : Nat → State) (next : Nat → Nat) : Prop where
  starts : states 0 = start ∧ next 0 = 0
  steps : ∀ n, step ((states n).setPending [moves (next n)]) = .next (states (n + 1))
  taken : ∀ n, next (n + 1) = if (states (n + 1)).pending = [] then next n + 1 else next n

/-- A run is over: the host's moves are exhausted and no command is in progress (R229). -/
def RunOver (s : State) : Prop := s.pending = [] ∧ s.inFlight = []

/-- The bytes of a list of spans, in call order (R15: the message). -/
def spansBytes (s : State) : List (Word × Word) → List Byte
  | [] => []
  | (ptr, len) :: rest => s.readBytes ptr.toNat len.toNat ++ spansBytes s rest

/-- One ABSORB for each span. -/
def absorbs (ctx : Word) (spans : List (Word × Word)) : List Instr := spans.map fun x => .absorb ctx x.1 x.2

/-- `n` steps of the machine. -/
def stepTimes : Nat → State → Host.Outcome State Fault Refusal
  | 0, s => .next s
  | n + 1, s =>
    match step s with
    | .next t => stepTimes n t
    | .fault r => .fault r
    | .refused r => .refused r

/-- The instructions one after the other, stopping at the first that does not answer a next state. -/
def execAll : List Instr → State → Host.Outcome State Fault Refusal
  | [], s => .next s
  | i :: rest, s =>
    match exec i s with
    | .next t => execAll rest t
    | .fault r => .fault r
    | .refused r => .refused r

end Sys2Proof.Machine
end

