-- ==== Sys2Proof/Certificates/Slice0/Obligations.lean ====
section
/-! DEFINITION. The statements for the provers, in the order of OBLIGATIONS.json. -/

namespace Sys2Proof.Machine

/-- The rows of the schedule table R107 for round 1: k, round, j, g(k), s(k), the index of the constant, T[k+1]. -/
def scheduleRound1 : List (StepIndex × Nat × Nat × Nat × Nat × Nat × Word) :=
  [(0b000000, 1, 0, 0, 7, 1, 0xd76aa478), (0b000001, 1, 1, 1, 12, 2, 0xe8c7b756),
   (0b000010, 1, 2, 2, 17, 3, 0x242070db), (0b000011, 1, 3, 3, 22, 4, 0xc1bdceee),
   (0b000100, 1, 4, 4, 7, 5, 0xf57c0faf), (0b000101, 1, 5, 5, 12, 6, 0x4787c62a),
   (0b000110, 1, 6, 6, 17, 7, 0xa8304613), (0b000111, 1, 7, 7, 22, 8, 0xfd469501),
   (0b001000, 1, 8, 8, 7, 9, 0x698098d8), (0b001001, 1, 9, 9, 12, 10, 0x8b44f7af),
   (0b001010, 1, 10, 10, 17, 11, 0xffff5bb1), (0b001011, 1, 11, 11, 22, 12, 0x895cd7be),
   (0b001100, 1, 12, 12, 7, 13, 0x6b901122), (0b001101, 1, 13, 13, 12, 14, 0xfd987193),
   (0b001110, 1, 14, 14, 17, 15, 0xa679438e), (0b001111, 1, 15, 15, 22, 16, 0x49b40821)]

/-- The rows of the schedule table R107 for round 2: k, round, j, g(k), s(k), the index of the constant, T[k+1]. -/
def scheduleRound2 : List (StepIndex × Nat × Nat × Nat × Nat × Nat × Word) :=
  [(0b010000, 2, 0, 1, 5, 17, 0xf61e2562), (0b010001, 2, 1, 6, 9, 18, 0xc040b340),
   (0b010010, 2, 2, 11, 14, 19, 0x265e5a51), (0b010011, 2, 3, 0, 20, 20, 0xe9b6c7aa),
   (0b010100, 2, 4, 5, 5, 21, 0xd62f105d), (0b010101, 2, 5, 10, 9, 22, 0x02441453),
   (0b010110, 2, 6, 15, 14, 23, 0xd8a1e681), (0b010111, 2, 7, 4, 20, 24, 0xe7d3fbc8),
   (0b011000, 2, 8, 9, 5, 25, 0x21e1cde6), (0b011001, 2, 9, 14, 9, 26, 0xc33707d6),
   (0b011010, 2, 10, 3, 14, 27, 0xf4d50d87), (0b011011, 2, 11, 8, 20, 28, 0x455a14ed),
   (0b011100, 2, 12, 13, 5, 29, 0xa9e3e905), (0b011101, 2, 13, 2, 9, 30, 0xfcefa3f8),
   (0b011110, 2, 14, 7, 14, 31, 0x676f02d9), (0b011111, 2, 15, 12, 20, 32, 0x8d2a4c8a)]

/-- The rows of the schedule table R107 for round 3: k, round, j, g(k), s(k), the index of the constant, T[k+1]. -/
def scheduleRound3 : List (StepIndex × Nat × Nat × Nat × Nat × Nat × Word) :=
  [(0b100000, 3, 0, 5, 4, 33, 0xfffa3942), (0b100001, 3, 1, 8, 11, 34, 0x8771f681),
   (0b100010, 3, 2, 11, 16, 35, 0x6d9d6122), (0b100011, 3, 3, 14, 23, 36, 0xfde5380c),
   (0b100100, 3, 4, 1, 4, 37, 0xa4beea44), (0b100101, 3, 5, 4, 11, 38, 0x4bdecfa9),
   (0b100110, 3, 6, 7, 16, 39, 0xf6bb4b60), (0b100111, 3, 7, 10, 23, 40, 0xbebfbc70),
   (0b101000, 3, 8, 13, 4, 41, 0x289b7ec6), (0b101001, 3, 9, 0, 11, 42, 0xeaa127fa),
   (0b101010, 3, 10, 3, 16, 43, 0xd4ef3085), (0b101011, 3, 11, 6, 23, 44, 0x04881d05),
   (0b101100, 3, 12, 9, 4, 45, 0xd9d4d039), (0b101101, 3, 13, 12, 11, 46, 0xe6db99e5),
   (0b101110, 3, 14, 15, 16, 47, 0x1fa27cf8), (0b101111, 3, 15, 2, 23, 48, 0xc4ac5665)]

/-- The rows of the schedule table R107 for round 4: k, round, j, g(k), s(k), the index of the constant, T[k+1]. -/
def scheduleRound4 : List (StepIndex × Nat × Nat × Nat × Nat × Nat × Word) :=
  [(0b110000, 4, 0, 0, 6, 49, 0xf4292244), (0b110001, 4, 1, 7, 10, 50, 0x432aff97),
   (0b110010, 4, 2, 14, 15, 51, 0xab9423a7), (0b110011, 4, 3, 5, 21, 52, 0xfc93a039),
   (0b110100, 4, 4, 12, 6, 53, 0x655b59c3), (0b110101, 4, 5, 3, 10, 54, 0x8f0ccc92),
   (0b110110, 4, 6, 10, 15, 55, 0xffeff47d), (0b110111, 4, 7, 1, 21, 56, 0x85845dd1),
   (0b111000, 4, 8, 8, 6, 57, 0x6fa87e4f), (0b111001, 4, 9, 15, 10, 58, 0xfe2ce6e0),
   (0b111010, 4, 10, 6, 15, 59, 0xa3014314), (0b111011, 4, 11, 13, 21, 60, 0x4e0811a1),
   (0b111100, 4, 12, 4, 6, 61, 0xf7537e82), (0b111101, 4, 13, 11, 10, 62, 0xbd3af235),
   (0b111110, 4, 14, 2, 15, 63, 0x2ad7d2bb), (0b111111, 4, 15, 9, 21, 64, 0xeb86d391)]

/-- The schedule table R107, one row per step, as the spec prints it. -/
def scheduleRows : List (StepIndex × Nat × Nat × Nat × Nat × Nat × Word) :=
  scheduleRound1 ++ scheduleRound2 ++ scheduleRound3 ++ scheduleRound4

end Sys2Proof.Machine

open Sys2Proof Sys2Proof.Machine

/-- Words written out from the encoding tables decode to their instructions, one of each command and one step of each round (from
spec/30_encoding.md R81, spec/30_encoding.md R82, spec/30_encoding.md R85, spec/95_test_vectors.md L2-D1). -/
def Obligations.WrittenOutWordsDecode : Prop :=
  decode (.command ⟨0x00000000, 0x00001000, 0x00000000, 0x00000000⟩) = .ok (.init 0x1000) ∧
    decode (.command ⟨0x00000001, 0x00001000, 0x00003000, 0x00000003⟩) = .ok (.absorb 0x1000 0x3000 3) ∧
    decode (.command ⟨0x00000002, 0x00001000, 0x00002000, 0x00000000⟩) = .ok (.final 0x1000 0x2000) ∧
    decodeBytes [0x02, 0x00, 0x00, 0x00, 0x00, 0x10, 0x00, 0x00, 0x00, 0x20, 0x00, 0x00, 0x00, 0x00, 0x00, 0x00] =
      .ok (.final 0x1000 0x2000, []) ∧
    decode (.stepIndex 0b000101) = .ok .step05 ∧ decode (.stepIndex 0b010110) = .ok .step22 ∧
    decode (.stepIndex 0b100111) = .ok .step39 ∧ decode (.stepIndex 0b111000) = .ok .step56

/-- Every instruction decodes from its own encoding, a command also from its 16 stored bytes whatever follows them (from spec/30_encoding.md
R81, spec/30_encoding.md R82, spec/30_encoding.md R83, spec/30_encoding.md R85). -/
def Obligations.DecodeOfEncodeIsTheInstruction : Prop :=
  ∀ i : Instr, decode (encode i) = .ok i ∧
    ∀ d, encode i = .command d → ∀ rest, decodeBytes (d.bytes ++ rest) = .ok (i, rest)

/-- A word that decodes is the encoding of what it decodes to, so no two words mean one instruction (from spec/30_encoding.md R81,
spec/30_encoding.md R82, spec/30_encoding.md R84, spec/30_encoding.md R85). -/
def Obligations.EncodeOfDecodeIsTheWord : Prop :=
  (∀ c i, decode c = .ok i → encode i = c) ∧
    ∀ bs i rest, decodeBytes bs = .ok (i, rest) → ∃ d, encode i = .command d ∧ bs = d.bytes ++ rest

/-- The reserved descriptors are exactly OP = 3, a set RSV bit, arguments on INIT, a second argument on FINAL; issuing one is refused (V7)
(states R84). -/
def Obligations.ReservedDescriptorsAreRefused : Prop :=
  ∀ d : Descriptor,
    ((∃ e, decodeDescriptor d = .error e) ↔
      d.w0.toNat % 4 = 3 ∨ d.w0.toNat / 4 ≠ 0 ∨ (d.w0.toNat % 4 = 0 ∧ (d.w2 ≠ 0 ∨ d.w3 ≠ 0)) ∨ (d.w0.toNat % 4 = 2 ∧ d.w3 ≠ 0)) ∧
    ((∃ e, decodeDescriptor d = .error e) → ∀ (s : State) (rest : List Input),
      (s.pending = .issue d :: rest → step s = .refused .reservedDescriptor) ∧
        (s.pending = .start d :: rest → step s = .refused .reservedDescriptor))

/-- The index k = {r, j} selects step 16r + j, whose operation is FF, GG, HH or II by r; all 64 values are used (states R85). -/
def Obligations.StepIndexSelectsRoundAndPosition : Prop :=
  (∀ k l : StepIndex, decodeStep k = decodeStep l → k = l) ∧
    ∀ (r : BitVec 2) (j : BitVec 4),
      decode (.stepIndex (r ++ j)) = .ok (stepInstr (16 * r.toNat + j.toNat)) ∧
        ∀ s : State, ∃ t, exec (stepInstr (16 * r.toNat + j.toNat)) s = .next t ∧
          t.work = afterStep s.work
            (match r.toNat with
              | 0 => (s.work.b &&& s.work.c) ||| (~~~s.work.b &&& s.work.d)
              | 1 => (s.work.b &&& s.work.d) ||| (s.work.c &&& ~~~s.work.d)
              | 2 => s.work.b ^^^ s.work.c ^^^ s.work.d
              | _ => s.work.c ^^^ (s.work.b ||| ~~~s.work.d))
            (s.msg.get (wordIndex (16 * r.toNat + j.toNat))) (constantT (16 * r.toNat + j.toNat + 1)) (rotAmount (16 * r.toNat + j.toNat))

/-- FF: the mixing function F with its corner cases, the encoding 00jjjj, the result of each of STEP00 to STEP15, and the worked example
(states R124). -/
def Obligations.RoundOneStepsFollowFF : Prop :=
  (∀ (b c d : Word) (i : Nat), (mixF b c d).getLsbD i = if b.getLsbD i then c.getLsbD i else d.getLsbD i) ∧
    (∀ b c d : Word, mixF 0 c d = d ∧ mixF 0xFFFFFFFF c d = c ∧ mixF b c c = c ∧ (b &&& c) &&& (~~~b &&& d) = 0 ∧
      mixF b c d = (b &&& c) ^^^ (~~~b &&& d) ∧ mixF b c d = (b &&& c) + (~~~b &&& d)) ∧
    (∀ j : BitVec 4, decode (.stepIndex (0b00#2 ++ j)) = .ok (stepInstr j.toNat)) ∧
    (∀ s : State, let f := (s.work.b &&& s.work.c) ||| (~~~s.work.b &&& s.work.d)
      exec .step00 s = .next { s with work := afterStep s.work f s.msg[0] 0xd76aa478 7, k := 1 } ∧
      exec .step01 s = .next { s with work := afterStep s.work f s.msg[1] 0xe8c7b756 12, k := 2 } ∧
      exec .step02 s = .next { s with work := afterStep s.work f s.msg[2] 0x242070db 17, k := 3 } ∧
      exec .step03 s = .next { s with work := afterStep s.work f s.msg[3] 0xc1bdceee 22, k := 4 } ∧
      exec .step04 s = .next { s with work := afterStep s.work f s.msg[4] 0xf57c0faf 7, k := 5 } ∧
      exec .step05 s = .next { s with work := afterStep s.work f s.msg[5] 0x4787c62a 12, k := 6 } ∧
      exec .step06 s = .next { s with work := afterStep s.work f s.msg[6] 0xa8304613 17, k := 7 } ∧
      exec .step07 s = .next { s with work := afterStep s.work f s.msg[7] 0xfd469501 22, k := 8 } ∧
      exec .step08 s = .next { s with work := afterStep s.work f s.msg[8] 0x698098d8 7, k := 9 } ∧
      exec .step09 s = .next { s with work := afterStep s.work f s.msg[9] 0x8b44f7af 12, k := 10 } ∧
      exec .step10 s = .next { s with work := afterStep s.work f s.msg[10] 0xffff5bb1 17, k := 11 } ∧
      exec .step11 s = .next { s with work := afterStep s.work f s.msg[11] 0x895cd7be 22, k := 12 } ∧
      exec .step12 s = .next { s with work := afterStep s.work f s.msg[12] 0x6b901122 7, k := 13 } ∧
      exec .step13 s = .next { s with work := afterStep s.work f s.msg[13] 0xfd987193 12, k := 14 } ∧
      exec .step14 s = .next { s with work := afterStep s.work f s.msg[14] 0xa679438e 17, k := 15 } ∧
      exec .step15 s = .next { s with work := afterStep s.work f s.msg[15] 0x49b40821 22, k := 16 }) ∧
    ∀ s : State, s.work = ⟨0x67452301, 0xefcdab89, 0x98badcfe, 0x10325476⟩ → s.msg[0] = 0x00000080 →
      ∃ t, exec .step00 s = .next t ∧ t.work = ⟨0x10325476, 0xa5202774, 0xefcdab89, 0x98badcfe⟩

/-- GG: the mixing function G with its corner cases, the encoding 01jjjj, the result of each of STEP16 to STEP31, and the worked example
(states R125). -/
def Obligations.RoundTwoStepsFollowGG : Prop :=
  (∀ (b c d : Word) (i : Nat), (mixG b c d).getLsbD i = if d.getLsbD i then b.getLsbD i else c.getLsbD i) ∧
    (∀ b c d : Word, mixG b c d = mixF d b c ∧ mixG b c 0 = c ∧ mixG b c 0xFFFFFFFF = b ∧ (b &&& d) &&& (c &&& ~~~d) = 0) ∧
    (∀ j : BitVec 4, decode (.stepIndex (0b01#2 ++ j)) = .ok (stepInstr (16 + j.toNat))) ∧
    (∀ s : State, let f := (s.work.b &&& s.work.d) ||| (s.work.c &&& ~~~s.work.d)
      exec .step16 s = .next { s with work := afterStep s.work f s.msg[1] 0xf61e2562 5, k := 17 } ∧
      exec .step17 s = .next { s with work := afterStep s.work f s.msg[6] 0xc040b340 9, k := 18 } ∧
      exec .step18 s = .next { s with work := afterStep s.work f s.msg[11] 0x265e5a51 14, k := 19 } ∧
      exec .step19 s = .next { s with work := afterStep s.work f s.msg[0] 0xe9b6c7aa 20, k := 20 } ∧
      exec .step20 s = .next { s with work := afterStep s.work f s.msg[5] 0xd62f105d 5, k := 21 } ∧
      exec .step21 s = .next { s with work := afterStep s.work f s.msg[10] 0x02441453 9, k := 22 } ∧
      exec .step22 s = .next { s with work := afterStep s.work f s.msg[15] 0xd8a1e681 14, k := 23 } ∧
      exec .step23 s = .next { s with work := afterStep s.work f s.msg[4] 0xe7d3fbc8 20, k := 24 } ∧
      exec .step24 s = .next { s with work := afterStep s.work f s.msg[9] 0x21e1cde6 5, k := 25 } ∧
      exec .step25 s = .next { s with work := afterStep s.work f s.msg[14] 0xc33707d6 9, k := 26 } ∧
      exec .step26 s = .next { s with work := afterStep s.work f s.msg[3] 0xf4d50d87 14, k := 27 } ∧
      exec .step27 s = .next { s with work := afterStep s.work f s.msg[8] 0x455a14ed 20, k := 28 } ∧
      exec .step28 s = .next { s with work := afterStep s.work f s.msg[13] 0xa9e3e905 5, k := 29 } ∧
      exec .step29 s = .next { s with work := afterStep s.work f s.msg[2] 0xfcefa3f8 9, k := 30 } ∧
      exec .step30 s = .next { s with work := afterStep s.work f s.msg[7] 0x676f02d9 14, k := 31 } ∧
      exec .step31 s = .next { s with work := afterStep s.work f s.msg[12] 0x8d2a4c8a 20, k := 32 }) ∧
    ∀ s : State, s.work = ⟨0x00000001, 0xffff0000, 0x12345678, 0x00ffff00⟩ → s.msg[1] = 0x00000002 →
      ∃ t, exec .step16 s = .next t ∧ t.work = ⟨0x00ffff00, 0x23a3bba1, 0xffff0000, 0x12345678⟩

/-- HH: the mixing function H with its corner cases, the encoding 10jjjj, the result of each of STEP32 to STEP47, and the worked example
(states R126). -/
def Obligations.RoundThreeStepsFollowHH : Prop :=
  (∀ b c d : Word, mixH b c d = b ^^^ (c ^^^ d) ∧ mixH b c d = mixH d c b ∧ mixH b b d = d ∧ mixH b b b = b) ∧
    (∀ j : BitVec 4, decode (.stepIndex (0b10#2 ++ j)) = .ok (stepInstr (32 + j.toNat))) ∧
    (∀ s : State, let f := s.work.b ^^^ s.work.c ^^^ s.work.d
      exec .step32 s = .next { s with work := afterStep s.work f s.msg[5] 0xfffa3942 4, k := 33 } ∧
      exec .step33 s = .next { s with work := afterStep s.work f s.msg[8] 0x8771f681 11, k := 34 } ∧
      exec .step34 s = .next { s with work := afterStep s.work f s.msg[11] 0x6d9d6122 16, k := 35 } ∧
      exec .step35 s = .next { s with work := afterStep s.work f s.msg[14] 0xfde5380c 23, k := 36 } ∧
      exec .step36 s = .next { s with work := afterStep s.work f s.msg[1] 0xa4beea44 4, k := 37 } ∧
      exec .step37 s = .next { s with work := afterStep s.work f s.msg[4] 0x4bdecfa9 11, k := 38 } ∧
      exec .step38 s = .next { s with work := afterStep s.work f s.msg[7] 0xf6bb4b60 16, k := 39 } ∧
      exec .step39 s = .next { s with work := afterStep s.work f s.msg[10] 0xbebfbc70 23, k := 40 } ∧
      exec .step40 s = .next { s with work := afterStep s.work f s.msg[13] 0x289b7ec6 4, k := 41 } ∧
      exec .step41 s = .next { s with work := afterStep s.work f s.msg[0] 0xeaa127fa 11, k := 42 } ∧
      exec .step42 s = .next { s with work := afterStep s.work f s.msg[3] 0xd4ef3085 16, k := 43 } ∧
      exec .step43 s = .next { s with work := afterStep s.work f s.msg[6] 0x04881d05 23, k := 44 } ∧
      exec .step44 s = .next { s with work := afterStep s.work f s.msg[9] 0xd9d4d039 4, k := 45 } ∧
      exec .step45 s = .next { s with work := afterStep s.work f s.msg[12] 0xe6db99e5 11, k := 46 } ∧
      exec .step46 s = .next { s with work := afterStep s.work f s.msg[15] 0x1fa27cf8 16, k := 47 } ∧
      exec .step47 s = .next { s with work := afterStep s.work f s.msg[2] 0xc4ac5665 23, k := 48 }) ∧
    ∀ s : State, s.work = ⟨0x00000001, 0xffff0000, 0x12345678, 0x00ffff00⟩ → s.msg[5] = 0x00000002 →
      ∃ t, exec .step32 s = .next t ∧ t.work = ⟨0x00ffff00, 0xd2ed2bde, 0xffff0000, 0x12345678⟩

/-- II: the mixing function I at its corners, the encoding 11jjjj, the result of each of STEP48 to STEP63, and the worked example (from
spec/41_compression.md R123, spec/41_compression.md R127, spec/40_constant_table.md R107, spec/10_state.md R32). -/
def Obligations.RoundFourStepsFollowII : Prop :=
  (mixI 0 0 0 = 0xFFFFFFFF ∧ mixI 0xFFFFFFFF 0xFFFFFFFF 0xFFFFFFFF = 0) ∧
    (∀ j : BitVec 4, decode (.stepIndex (0b11#2 ++ j)) = .ok (stepInstr (48 + j.toNat))) ∧
    (∀ s : State, let f := s.work.c ^^^ (s.work.b ||| ~~~s.work.d)
      exec .step48 s = .next { s with work := afterStep s.work f s.msg[0] 0xf4292244 6, k := 49 } ∧
      exec .step49 s = .next { s with work := afterStep s.work f s.msg[7] 0x432aff97 10, k := 50 } ∧
      exec .step50 s = .next { s with work := afterStep s.work f s.msg[14] 0xab9423a7 15, k := 51 } ∧
      exec .step51 s = .next { s with work := afterStep s.work f s.msg[5] 0xfc93a039 21, k := 52 } ∧
      exec .step52 s = .next { s with work := afterStep s.work f s.msg[12] 0x655b59c3 6, k := 53 } ∧
      exec .step53 s = .next { s with work := afterStep s.work f s.msg[3] 0x8f0ccc92 10, k := 54 } ∧
      exec .step54 s = .next { s with work := afterStep s.work f s.msg[10] 0xffeff47d 15, k := 55 } ∧
      exec .step55 s = .next { s with work := afterStep s.work f s.msg[1] 0x85845dd1 21, k := 56 } ∧
      exec .step56 s = .next { s with work := afterStep s.work f s.msg[8] 0x6fa87e4f 6, k := 57 } ∧
      exec .step57 s = .next { s with work := afterStep s.work f s.msg[15] 0xfe2ce6e0 10, k := 58 } ∧
      exec .step58 s = .next { s with work := afterStep s.work f s.msg[6] 0xa3014314 15, k := 59 } ∧
      exec .step59 s = .next { s with work := afterStep s.work f s.msg[13] 0x4e0811a1 21, k := 60 } ∧
      exec .step60 s = .next { s with work := afterStep s.work f s.msg[4] 0xf7537e82 6, k := 61 } ∧
      exec .step61 s = .next { s with work := afterStep s.work f s.msg[11] 0xbd3af235 10, k := 62 } ∧
      exec .step62 s = .next { s with work := afterStep s.work f s.msg[2] 0x2ad7d2bb 15, k := 63 } ∧
      ∃ v, exec .step63 s = .next { s with work := afterStep s.work f s.msg[9] 0xeb86d391 21, k := v, drawn := s.drawn + 1 }) ∧
    ∀ s : State, s.work = ⟨0x00000001, 0xffff0000, 0x12345678, 0x00ffff00⟩ → s.msg[0] = 0x00000002 →
      ∃ t, exec .step48 s = .next t ∧ t.work = ⟨0x00ffff00, 0x7d1d33b8, 0xffff0000, 0x12345678⟩

/-- The frame of all 64 steps: memory, message words, scheduler registers, phases and everything outside the engine stay; k goes up by one
(from spec/41_compression.md R123, spec/41_compression.md R137, spec/10_state.md R31, spec/10_state.md R32). -/
def Obligations.StepsChangeOnlyTheWorkingRegisters : Prop :=
  ∀ (i : Instr) (k : StepIndex), encode i = .stepIndex k → ∀ s : State, ∃ t, exec i s = .next t ∧
    (∀ a, t.readByte a = s.readByte a) ∧ t.msg = s.msg ∧ t.pos = s.pos ∧ t.fill = s.fill ∧ t.total = s.total ∧
    t.phases = s.phases ∧ SameSurroundings s t ∧ (k ≠ 63 → t.k = k + 1 ∧ t.drawn = s.drawn)

/-- The complete schedule: for each k the round, the position, the message word, the rotation and the constant (states R107). -/
def Obligations.ScheduleOfEveryStep : Prop :=
  (mixOf 0 = mixF ∧ mixOf 1 = mixG ∧ mixOf 2 = mixH ∧ mixOf 3 = mixI) ∧ scheduleRows.length = 64 ∧
    ∀ k, k < 64 →
      scheduleRows[k]? = some (BitVec.ofNat 6 k, k / 16 + 1, k % 16, (wordIndex k).val, rotAmount k, k + 1, constantT (k + 1)) ∧
        stepConstant k = constantT (k + 1)

/-- The message word of step j of a round is j, 5j + 1, 3j + 5 or 7j mod 16; the step index may replace j; each round uses every word once
(states R105). -/
def Obligations.WordScheduleIsFourPermutations : Prop :=
  (∀ j, j < 16 → (wordIndex j).val = j ∧ (wordIndex (16 + j)).val = (5 * j + 1) % 16 ∧
      (wordIndex (32 + j)).val = (3 * j + 5) % 16 ∧ (wordIndex (48 + j)).val = (7 * j) % 16) ∧
    (∀ k, k < 64 → (wordIndex k).val =
      (if k < 16 then k else if k < 32 then 5 * k + 1 else if k < 48 then 3 * k + 5 else 7 * k) % 16) ∧
    ∀ r, r < 4 → ∀ m, m < 16 → ∃ j, j < 16 ∧ (wordIndex (16 * r + j)).val = m ∧
      ∀ i, i < 16 → (wordIndex (16 * r + i)).val = m → i = j

/-- T[i] is the integer part of abs(sin i) times 2^32, i in radians, for i = 1..64 (from spec/40_constant_table.md R101,
spec/40_constant_table.md R102). -/
def Obligations.ConstantsAreTheIntegerPartsOfTheSines : Prop :=
  ∀ i : Nat, 1 ≤ i → i ≤ 64 → (constantT i).toNat = ⌊|Real.sin (i : ℝ)| * 2 ^ 32⌋₊

/-- The truth table of F, G, H and I, bit by bit (states R128). -/
def Obligations.MixingTruthTable : Prop :=
  ∀ (b c d : Word) (i : Nat), i < 32 →
    ((mixF b c d).getLsbD i, (mixG b c d).getLsbD i, (mixH b c d).getLsbD i, (mixI b c d).getLsbD i) =
      match b.getLsbD i, c.getLsbD i, d.getLsbD i with
      | false, false, false => (false, false, false, true)
      | false, false, true => (true, false, true, false)
      | false, true, false => (false, true, true, false)
      | false, true, true => (true, false, false, true)
      | true, false, false => (false, false, true, true)
      | true, false, true => (false, true, false, true)
      | true, true, false => (true, true, false, false)
      | true, true, true => (true, true, true, false)

/-- rotl32 moves every bit n places round and loses none, is multiplication by 2^n mod 2^32 - 1, and does not distribute over addition
(states R131). -/
def Obligations.RotationLaws : Prop :=
  (∀ (x : Word) (n : Nat), 1 ≤ n → n ≤ 31 →
      (∀ i, i < 32 → (rotl32 x n).getLsbD ((i + n) % 32) = x.getLsbD i) ∧
      ((List.range 32).countP fun i => (rotl32 x n).getLsbD i) = ((List.range 32).countP fun i => x.getLsbD i) ∧
      rotl32 0 n = 0 ∧ rotl32 0xFFFFFFFF n = 0xFFFFFFFF ∧
      (x.toNat < 2 ^ 32 - 1 → (rotl32 x n).toNat = x.toNat * 2 ^ n % (2 ^ 32 - 1))) ∧
    (∀ k, k < 64 → rotAmount k ∈ [7, 12, 17, 22, 5, 9, 14, 20, 4, 11, 16, 23, 6, 10, 15, 21] ∧ 4 ≤ rotAmount k ∧ rotAmount k ≤ 23) ∧
    (∃ x y n, 4 ≤ n ∧ n ≤ 23 ∧ rotl32 (add32 x y) n ≠ add32 (rotl32 x n) (rotl32 y n)) ∧
    rotl32 0x80000000 1 = 0x00000001 ∧ rotl32 0x12345678 4 = 0x23456781 ∧ rotl32 0x12345678 16 = 0x56781234 ∧
    rotl32 0xd76aa478 7 = 0xb5523c6b

/-- Four fixed registers whose roles rotate compute the same a, b, c, d after every step as the shifting registers (states R129). -/
def Obligations.RoleRotationViewAgrees : Prop :=
  (∀ (msg : Vector Word 16) (k : Nat) (r : Vector Word 4), (roleHolder k 0).val = (4 - k % 4) % 4 ∧
      (inPlaceStep msg k r)[roleHolder k 0] = (stepAt msg k (byRole k r)).b ∧
      ∀ x : Fin 4, x ≠ roleHolder k 0 → (inPlaceStep msg k r)[x] = r[x]) ∧
    ∀ (msg : Vector Word 16) (r : Vector Word 4),
      (∀ n, byRole n (inPlaceSteps msg 0 n r) = stepsFrom msg 0 n ⟨r[0], r[1], r[2], r[3]⟩) ∧
        ⟨(inPlaceSteps msg 0 64 r)[0], (inPlaceSteps msg 0 64 r)[1], (inPlaceSteps msg 0 64 r)[2], (inPlaceSteps msg 0 64 r)[3]⟩ =
          stepsFrom msg 0 64 ⟨r[0], r[1], r[2], r[3]⟩

/-- COMPRESS is the load, the instructions STEP00 to STEP63 one after the other, and the word-wise addition into S; S is written once, at
the end (from spec/41_compression.md R121, spec/41_compression.md R122, spec/41_compression.md R133, spec/41_compression.md R134,
spec/41_compression.md R135, spec/41_compression.md R137). -/
def Obligations.CompressIsLoadSixtyFourStepsAndFeedForward : Prop :=
  ∀ (s : State) (c : Nat) (block : List Byte), block.length = 64 →
    (∀ i : Fin 16, (s.loadCompress (s.chain c) block).msg[i] =
      wordLE (block.getD (4 * i.val) 0) (block.getD (4 * i.val + 1) 0) (block.getD (4 * i.val + 2) 0) (block.getD (4 * i.val + 3) 0)) ∧
    (s.loadCompress (s.chain c) block).work = s.chain c ∧ (s.loadCompress (s.chain c) block).k = 0 ∧
    ∃ u, execAll ((List.range 64).map stepInstr) (s.loadCompress (s.chain c) block) = .next u ∧
      (∀ a, u.readByte a = s.readByte a) ∧
      s.compress c block = u.setChain c
        ⟨(s.chain c).a + u.work.a, (s.chain c).b + u.work.b, (s.chain c).c + u.work.c, (s.chain c).d + u.work.d⟩ ∧
      (s.compress c block).chain c =
        ⟨(s.chain c).a + u.work.a, (s.chain c).b + u.work.b, (s.chain c).c + u.work.c, (s.chain c).d + u.work.d⟩ ∧
      ∀ a, a < c ∨ c + 16 ≤ a → (s.compress c block).readByte a = s.readByte a

/-- INIT completes in every phase on an aligned valid region: magic words, zero counter, zero buffer, phase Active, identical whatever was
there (states R151). -/
def Obligations.InitMakesAFreshContext : Prop :=
  ∀ (s : State) (ctx : Word), ContextReady s ctx → encode (.init ctx) = .command ⟨0x00000000, ctx, 0, 0⟩ ∧
    ∃ t, exec (.init ctx) s = .next t ∧
      t.chain ctx.toNat = ⟨0x67452301, 0xefcdab89, 0x98badcfe, 0x10325476⟩ ∧
      t.readWord (ctx.toNat + 0x10) = 0 ∧ t.readWord (ctx.toNat + 0x14) = 0 ∧
      (∀ n, n < 64 → t.readByte (ctx.toNat + 0x1C + n) = 0) ∧
      t.readBytes ctx.toNat 24 = [0x01, 0x23, 0x45, 0x67, 0x89, 0xab, 0xcd, 0xef, 0xfe, 0xdc, 0xba, 0x98, 0x76, 0x54, 0x32, 0x10,
        0, 0, 0, 0, 0, 0, 0, 0] ∧
      t.phaseOf ctx.toNat = .active ∧ SameInternal s t ∧
      ∀ (s' t' : State), exec (.init ctx) s' = .next t' → ∀ i, i < 92 → i < 24 ∨ 28 ≤ i →
        t'.readByte (ctx.toNat + i) = t.readByte (ctx.toNat + i)

/-- ABSORB completes: S is chained over the whole blocks of the buffered bytes and the span together, the rest is the new buffer content
(from spec/42_context_engine.md R153, spec/42_context_engine.md R155, spec/42_context_engine.md R156, spec/42_context_engine.md R157,
spec/10_state.md R25). -/
def Obligations.AbsorbHashesWholeBlocksAndKeepsTheTail : Prop :=
  ∀ (s : State) (ctx ptr len : Word), Ready s (.absorb ctx ptr len) →
    let f := s.fillLevel ctx.toNat
    let joined := s.buffer ctx.toNat 0 f ++ s.readBytes ptr.toNat len.toNat
    ∃ t, exec (.absorb ctx ptr len) s = .next t ∧
      t.chain ctx.toNat = chainBlocks ((f + len.toNat) / 64) (s.chain ctx.toNat) joined ∧
      t.buffer ctx.toNat 0 ((f + len.toNat) % 64) = joined.drop (64 * ((f + len.toNat) / 64)) ∧
      t.count ctx.toNat = s.count ctx.toNat + BitVec.ofNat 64 (8 * len.toNat) ∧
      t.fillLevel ctx.toNat = (f + len.toNat) % 64 ∧ t.phaseOf ctx.toNat = .active

/-- The counter update in 64 bits and in its two halves, with the carry from CNT_LO into CNT_HI, and the example (states R154). -/
def Obligations.CounterAddsEightTimesTheLength : Prop :=
  (∀ (s t : State) (ctx ptr len : Word), exec (.absorb ctx ptr len) s = .next t →
      let lo := s.readWord (ctx.toNat + 0x10)
      let hi := s.readWord (ctx.toNat + 0x14)
      let sum := lo.toNat + 8 * len.toNat % 2 ^ 32
      8 * len.toNat ≤ 2 ^ 35 - 8 ∧
      (t.count ctx.toNat).toNat = ((s.count ctx.toNat).toNat + 8 * len.toNat) % 2 ^ 64 ∧
      (t.readWord (ctx.toNat + 0x10)).toNat = sum % 2 ^ 32 ∧
      (t.readWord (ctx.toNat + 0x14)).toNat = (hi.toNat + len.toNat / 2 ^ 29 + sum / 2 ^ 32) % 2 ^ 32 ∧
      t.chain ctx.toNat = chainBlocks (((s.count ctx.toNat).toNat / 8 % 64 + len.toNat) / 64) (s.chain ctx.toNat)
        (s.buffer ctx.toNat 0 ((s.count ctx.toNat).toNat / 8 % 64) ++ s.readBytes ptr.toNat len.toNat) ∧
      (s.count ctx.toNat = 0x00000000FFFFFFF8 → len = 1 → t.count ctx.toNat = 0x0000000100000000))

/-- ABSORB of an empty span changes no byte and looks at no pointer; whole blocks into an empty buffer are compressed and leave it empty
(from spec/42_context_engine.md R158, spec/42_context_engine.md R156, spec/20_memory.md R62, spec/10_state.md R25). Of the 64 buffer bytes
after whole blocks nothing is said: R25 gives them any value, which the model follows (assumption log entry 8). -/
def Obligations.EmptyAndWholeBlockSpansBufferNothing : Prop :=
  ∀ (s : State) (ctx ptr len : Word), ContextReady s ctx → s.phaseOf ctx.toNat = .active →
    (∃ t, exec (.absorb ctx ptr 0) s = .next t ∧ ∀ a, t.readByte a = s.readByte a) ∧
    (SpanReady s ctx ptr len → s.fillLevel ctx.toNat = 0 → len.toNat % 64 = 0 →
      ∃ t, exec (.absorb ctx ptr len) s = .next t ∧
        t.chain ctx.toNat = chainBlocks (len.toNat / 64) (s.chain ctx.toNat) (s.readBytes ptr.toNat len.toNat) ∧
        t.fillLevel ctx.toNat = 0 ∧ t.count ctx.toNat = s.count ctx.toNat + BitVec.ofNat 64 (8 * len.toNat) ∧
        SameBytesBut [chainField ctx.toNat, countField ctx.toNat, bufferField ctx.toNat] s t)

/-- FINAL completes: S is chained over the one or two blocks of the buffered bytes, 0x80, zeros and the bit count; the phase is Finalized
(from spec/42_context_engine.md R160, spec/42_context_engine.md R161, spec/10_state.md R28, spec/41_compression.md R136). -/
def Obligations.FinalPadsAndCompressesTheTail : Prop :=
  ∀ (s : State) (ctx out : Word), Ready s (.final ctx out) →
    let f := s.fillLevel ctx.toNat
    let l := s.count ctx.toNat
    let tail := s.buffer ctx.toNat 0 f ++
      (0x80 :: (List.replicate ((55 + 64 - f) % 64) 0 ++ [l.extractLsb' 0 8, l.extractLsb' 8 8, l.extractLsb' 16 8, l.extractLsb' 24 8,
        l.extractLsb' 32 8, l.extractLsb' 40 8, l.extractLsb' 48 8, l.extractLsb' 56 8]))
    tail.length = (if f ≤ 55 then 64 else 128) ∧
    ∃ t, exec (.final ctx out) s = .next t ∧
      t.chain ctx.toNat = chainBlocks (if f ≤ 55 then 1 else 2) (s.chain ctx.toNat) tail ∧
      t.readBytes out.toNat 16 = quadBytes (t.chain ctx.toNat) ∧ t.phaseOf ctx.toNat = .finalized ∧
      ∀ msg, Represents s ctx.toNat msg → t.chain ctx.toNat = chainOf (padded msg) ∧ t.readBytes out.toNat 16 = md5 msg

/-- The digest byte 4i + m is bits 8m + 7 to 8m of S[i] (states R163). -/
def Obligations.DigestBytesAreTheStateLittleEndian : Prop :=
  ∀ (s t : State) (ctx out : Word), exec (.final ctx out) s = .next t →
    (∀ i m, i < 4 → m < 4 →
      t.readByte (out.toNat + 4 * i + m) = (t.readWord (ctx.toNat + 4 * i)).extractLsb' (8 * m) 8) ∧
    (∀ i, i < 4 → t.readWord (ctx.toNat + 4 * i) = t.readWord (out.toNat + 4 * i)) ∧
    SameBytesBut [⟨ctx.toNat, 92⟩, ⟨out.toNat, 16⟩] s t

/-- The padding of a message of n bytes: 0x80, (55 - n) mod 64 zeros, the bit count; whole blocks, (n + 8) div 64 + 1 of them (from
spec/42_context_engine.md R160, spec/42_context_engine.md R162). -/
def Obligations.PaddingOfEveryLength : Prop :=
  ∀ msg : List Byte,
    padding msg.length = 0x80 :: (List.replicate ((55 - (msg.length : Int)) % 64).toNat 0 ++
      (List.range 8).map fun i => BitVec.ofNat 8 (8 * msg.length % 2 ^ 64 / 256 ^ i)) ∧
    (tailOf msg ++ padding msg.length).length = (if msg.length % 64 ≤ 55 then 64 else 128) ∧
    (padded msg).length = 64 * ((msg.length + 8) / 64 + 1) ∧
    8 * msg.length % 2 ^ 64 % 8 = 0

/-- The frame rule: INIT and ABSORB change only the context, FINAL only the context and the digest, none a span, ABSORB and FINAL never BASE
(states R61). -/
def Obligations.CommandsWriteOnlyTheirRegions : Prop :=
  (∀ (s t : State) (ctx : Word), exec (.init ctx) s = .next t → SameBytesBut [⟨ctx.toNat, 92⟩] s t) ∧
    (∀ (s t : State) (ctx ptr len : Word), exec (.absorb ctx ptr len) s = .next t →
      SameBytesBut [⟨ctx.toNat, 24⟩, ⟨ctx.toNat + 28, 64⟩] s t ∧ t.base ctx.toNat = s.base ctx.toNat ∧
        t.readBytes ptr.toNat len.toNat = s.readBytes ptr.toNat len.toNat) ∧
    (∀ (s t : State) (ctx out : Word), exec (.final ctx out) s = .next t →
      SameBytesBut [⟨ctx.toNat, 24⟩, ⟨ctx.toNat + 28, 64⟩, ⟨out.toNat, 16⟩] s t ∧ t.base ctx.toNat = s.base ctx.toNat) ∧
    ∀ (s : State) (c : Nat) (block : List Byte), SameBytesBut [⟨c, 16⟩] s (s.compress c block)

/-- The frame of the commands outside memory: phases of other contexts, the engine's registers under INIT, and everything around the engine
(from spec/10_state.md R38, spec/10_state.md R39, spec/20_memory.md R64, spec/42_context_engine.md R150). -/
def Obligations.CommandsLeaveRegistersAndOtherPhases : Prop :=
  (∀ (s t : State) (ctx : Word), exec (.init ctx) s = .next t → SameInternal s t ∧ SameSurroundings s t ∧
      ∀ c, c ≠ ctx.toNat → t.phaseOf c = if (contextAt c).overlaps ⟨ctx.toNat, 92⟩ then .uninitialized else s.phaseOf c) ∧
    (∀ (s t : State) (ctx ptr len : Word), exec (.absorb ctx ptr len) s = .next t → SameSurroundings s t ∧ t.phases = s.phases) ∧
    ∀ (s t : State) (ctx out : Word), exec (.final ctx out) s = .next t → SameSurroundings s t ∧ t.phaseOf ctx.toNat = .finalized ∧
      ∀ c, c ≠ ctx.toNat → t.phaseOf c = if (contextAt c).overlaps ⟨out.toNat, 16⟩ then .uninitialized else s.phaseOf c

/-- The lifecycle table: INIT makes any context Active and fresh; ABSORB and FINAL run only when Active and are V1 or V2 otherwise (states
R150). -/
def Obligations.LifecycleOfAContext : Prop :=
  ∀ (s : State) (ctx ptr len out : Word), ContextReady s ctx → SpanReady s ctx ptr len → DigestReady s ctx out →
    (∃ t, exec (.init ctx) s = .next t ∧ t.phaseOf ctx.toNat = .active ∧ Represents t ctx.toNat []) ∧
    (s.phaseOf ctx.toNat = .active →
      (∃ t, exec (.absorb ctx ptr len) s = .next t ∧ t.phaseOf ctx.toNat = .active) ∧
      ∃ t, exec (.final ctx out) s = .next t ∧ t.phaseOf ctx.toNat = .finalized) ∧
    (s.phaseOf ctx.toNat = .uninitialized →
      exec (.absorb ctx ptr len) s = .refused .uninitializedContext ∧ exec (.final ctx out) s = .refused .uninitializedContext) ∧
    (s.phaseOf ctx.toNat = .finalized →
      exec (.absorb ctx ptr len) s = .refused .finalizedContext ∧ exec (.final ctx out) s = .refused .finalizedContext)

/-- An operation answers a next state exactly when its preconditions hold; otherwise it is refused as one of V1 to V5; it never faults (from
spec/60_exceptions.md R190, spec/60_exceptions.md R191, spec/42_context_engine.md R151, spec/42_context_engine.md R153,
spec/42_context_engine.md R161). -/
def Obligations.ExecCompletesExactlyWhenReady : Prop :=
  ∀ (i : Instr) (s : State), (Ready s i → ∃ t, exec i s = .next t) ∧
    (¬ Ready s i → ∃ v, exec i s = .refused v ∧
      v ∈ [Refusal.uninitializedContext, .finalizedContext, .invalidRegion, .misalignedReference, .overlappingRegions])

/-- V3, V4 and V5 by name: a misaligned context, an invalid region, an overlap of the context with the span or the digest (from
spec/60_exceptions.md R191, spec/60_exceptions.md R194, spec/20_memory.md R62, spec/20_memory.md R63, spec/20_memory.md R64). -/
def Obligations.EachViolationIsRefusedByName : Prop :=
  ∀ (s : State) (ctx ptr len out : Word),
    (ctx.toNat % 4 ≠ 0 → exec (.init ctx) s = .refused .misalignedReference ∧
      exec (.absorb ctx ptr len) s = .refused .misalignedReference ∧ exec (.final ctx out) s = .refused .misalignedReference) ∧
    (ctx.toNat % 4 = 0 → ¬ RegionValid s ctx.toNat 92 → exec (.init ctx) s = .refused .invalidRegion ∧
      exec (.absorb ctx ptr len) s = .refused .invalidRegion ∧ exec (.final ctx out) s = .refused .invalidRegion) ∧
    (ContextReady s ctx → s.phaseOf ctx.toNat = .active →
      (len ≠ 0 → ¬ RegionValid s ptr.toNat len.toNat → exec (.absorb ctx ptr len) s = .refused .invalidRegion) ∧
      (¬ RegionValid s out.toNat 16 → exec (.final ctx out) s = .refused .invalidRegion) ∧
      (RegionValid s ptr.toNat len.toNat → ¬ NoCommonByte ctx.toNat 92 ptr.toNat len.toNat →
        exec (.absorb ctx ptr len) s = .refused .overlappingRegions) ∧
      (RegionValid s out.toNat 16 → ¬ NoCommonByte ctx.toNat 92 out.toNat 16 →
        exec (.final ctx out) s = .refused .overlappingRegions))

/-- An instruction whose operands are ill-formed is refused in every state (from spec/20_memory.md R62, spec/20_memory.md R63,
spec/20_memory.md R64, spec/60_exceptions.md R191). -/
def Obligations.IllFormedOperandsNeverRun : Prop :=
  ∀ i : Instr, i.wellFormed = false → ∀ s : State, ∃ v, exec i s = .refused v

/-- A step takes the next input: an issued descriptor that decodes to i runs i, a tick runs the step that k selects (from
spec/70_reset_and_hazards.md R228, spec/30_encoding.md R81, spec/10_state.md R32, spec/10_state.md R33). The model's choices here: that
commands are read from the list pending (assumption log entry 6), and the tick, which is no move of R228 (entry 16). -/
def Obligations.StepRunsTheDecodedInstruction : Prop :=
  (∀ (s : State) (d : Descriptor) (i : Instr) (rest : List Input), s.pending = .issue d :: rest → decodeDescriptor d = .ok i →
      (s.admission i = none ∧ s.hasIdleEngine = true ∨ s.inFlight = []) → step s = exec i (s.setPending rest)) ∧
    ∀ (s : State) (rest : List Input), s.pending = .tick :: rest → step s = exec (decodeStep s.k) (s.setPending rest)

/-- A table word placed by withFetchWord is run by the very next step (from spec/30_encoding.md R81, spec/30_encoding.md R85,
spec/70_reset_and_hazards.md R228). The tick that runs a step is the model's choice (entry 16). -/
def Obligations.TableWordRunsAsTheNextStep : Prop :=
  ∀ (s : State) (nbits w : Nat) (i : Instr), decodeTableWord nbits w = some i → s.inFlight = [] →
    step (s.withFetchWord nbits w) = exec i (if nbits < 32 then s.setK (BitVec.ofNat 6 w) else s)

/-- A host write between commands stores its bytes, makes every context it touches Uninitialized, and changes nothing else (from
spec/70_reset_and_hazards.md R217, spec/70_reset_and_hazards.md R228, spec/10_state.md R40). That the host may write at an address that is
not Valid as at any other is the model's choice (assumption log entry 18). -/
def Obligations.HostWriteRetiresTheContextsItMeets : Prop :=
  ∀ (s : State) (a : Word) (bs : List Byte) (rest : List Input), s.pending = .write a bs :: rest →
    a.toNat + bs.length ≤ 2 ^ 32 → (∀ i ∈ s.inFlight, ∀ r ∈ usedRegions i, r.overlaps ⟨a.toNat, bs.length⟩ = false) →
    ∃ t, step s = .next t ∧ t.readBytes a.toNat bs.length = bs ∧ SameBytesBut [⟨a.toNat, bs.length⟩] s t ∧
      (∀ c, t.phaseOf c = if (contextAt c).overlaps ⟨a.toNat, bs.length⟩ then .uninitialized else s.phaseOf c) ∧
      SameInternal s t ∧ t.inFlight = s.inFlight ∧ t.platform = s.platform ∧ t.pending = rest ∧ t.hostData = s.hostData

/-- A host read hands back the bytes and has no other effect; it may read a span in use, not a region a command in progress writes (from
spec/70_reset_and_hazards.md R228, spec/70_reset_and_hazards.md R216, spec/20_memory.md R66). The fault past the top of the address space
(assumption log entry 11) and the read at an address that is not Valid (entry 18) are the model's choices. -/
def Obligations.HostReadReturnsTheBytes : Prop :=
  ∀ (s : State) (a : Word) (n : Nat) (rest : List Input), s.pending = .read a n :: rest →
    (2 ^ 32 < a.toNat + n → step s = .fault .outsideAddressSpace) ∧
    (a.toNat + n ≤ 2 ^ 32 →
      ((∀ i ∈ s.inFlight, ∀ r ∈ writtenRegions i, r.overlaps ⟨a.toNat, n⟩ = false) →
        step s = .next { s with pending := rest, hostData := s.readBytes a.toNat n }) ∧
      ((∃ i ∈ s.inFlight, ∃ r ∈ writtenRegions i, r.overlaps ⟨a.toNat, n⟩ = true) → step s = .refused .concurrentAccess))

/-- V6: while a command is in progress, a host write to its regions and a second command on its context are refused (from
spec/70_reset_and_hazards.md R215, spec/70_reset_and_hazards.md R216, spec/60_exceptions.md R191). That V6 is the violation named, whichever
others the command commits, is the model's choice (assumption log entry 12): R194 gives none precedence. -/
def Obligations.RegionsInUseAreFrozen : Prop :=
  ∀ (s : State) (i : Instr) (rest : List Input), i ∈ s.inFlight →
    (∀ (a : Word) (bs : List Byte), s.pending = .write a bs :: rest → a.toNat + bs.length ≤ 2 ^ 32 →
      (∃ r ∈ usedRegions i, r.overlaps ⟨a.toNat, bs.length⟩ = true) → step s = .refused .concurrentAccess) ∧
    (∀ (d : Descriptor) (j : Instr), decodeDescriptor d = .ok j →
      ((∃ r ∈ writtenRegions i, ∃ q ∈ usedRegions j, r.overlaps q = true) ∨
        (∃ r ∈ usedRegions i, ∃ q ∈ writtenRegions j, r.overlaps q = true)) →
      (s.pending = .issue d :: rest → step s = .refused .concurrentAccess) ∧
        (s.pending = .start d :: rest → step s = .refused .concurrentAccess))

/-- With no command in progress, starting a command and letting it complete is the same as issuing it as one atomic step (from
spec/20_memory.md R70, spec/00_scope.md R7, spec/70_reset_and_hazards.md R216). That a started command takes its whole effect when it
completes is the model's reading (assumption log entry 10). -/
def Obligations.StartThenCompleteIsTheAtomicCommand : Prop :=
  ∀ (s : State) (d : Descriptor) (rest : List Input), s.inFlight = [] →
    stepTimes 2 (s.setPending (.start d :: .complete 0 :: rest)) = step (s.setPending (.issue d :: rest))

/-- Hardware reset completes in every state: every context Uninitialized, no command in progress, memory as after power-on (from
spec/70_reset_and_hazards.md R210, spec/10_state.md R39, spec/00_scope.md R8). That every byte of memory is unknown afterwards is the
model's choice (assumption log entries 15 and 1): R210 lets the platform keep memory. -/
def Obligations.HardwareResetLeavesNoContextLive : Prop :=
  ∀ (s : State) (rest : List Input), s.pending = .reset :: rest →
    ∃ t, step s = .next t ∧ (∀ c, t.phaseOf c = .uninitialized) ∧ t.inFlight = [] ∧
      (∀ a, t.readByte a = Config.powerOnByte (s.epoch + 1) a) ∧ t.platform = s.platform ∧ t.pending = rest

/-- After reset the engine is idle, every context is Uninitialized, memory lists nothing and is in canonical form (from spec/10_state.md
R39, spec/70_reset_and_hazards.md R210, spec/70_reset_and_hazards.md R227). The model's choices here: no input pending (assumption log entry
6), the unknown bytes named by epoch 0 (entry 1), and V1 rather than another violation when the span or the digest region is not ready
(entry 12). -/
def Obligations.ResetStateMeetsTheStartPremises : Prop :=
  StartPremises [] State.reset ∧ RunOver State.reset ∧ (∀ c, State.reset.phaseOf c = .uninitialized) ∧
    (∀ a, State.reset.readByte a = Config.powerOnByte 0 a) ∧ Memory.wf State.reset.mem = true ∧
    ∀ ctx ptr len out : Word, ContextReady State.reset ctx →
      exec (.absorb ctx ptr len) State.reset = .refused .uninitializedContext ∧
        exec (.final ctx out) State.reset = .refused .uninitializedContext

/-- The reset state meets the invariant of the machine (from spec/70_reset_and_hazards.md R210, spec/70_reset_and_hazards.md R227). -/
def Obligations.ResetMeetsTheInvariant : Prop :=
  Invariant State.reset

/-- Every step keeps the invariant: each Active context represents a message, each Finalized one holds a final state, live contexts stay
disjoint (from spec/10_state.md R26, spec/10_state.md R28, spec/20_memory.md R64, spec/70_reset_and_hazards.md R215,
spec/70_reset_and_hazards.md R216). -/
def Obligations.EveryStepKeepsTheInvariant : Prop :=
  ∀ s t : State, Invariant s → step s = .next t → Invariant t

/-- The fill level is CNT[8:3], 0 to 63; in an Active context CNT mod 512 is 8 times the fill level (from spec/10_state.md R24,
spec/10_state.md R26). -/
def Obligations.FillLevelFollowsTheCounter : Prop :=
  (∀ v : Double, fillOf v = v.toNat / 8 % 64 ∧ fillOf v = (v >>> 3).toNat % 64 ∧ fillOf v ≤ 63) ∧
    ∀ (s : State) (c : Nat), Invariant s → s.phaseOf c = .active →
      (s.count c).toNat % 512 = 8 * s.fillLevel c ∧ (s.count c).toNat % 8 = 0

/-- ABSORB completes and the context then represents the old message followed by the span (from spec/42_context_engine.md R152,
spec/10_state.md R26). -/
def Obligations.AbsorbAppendsToTheMessage : Prop :=
  ∀ (s : State) (ctx ptr len : Word) (msg : List Byte), Ready s (.absorb ctx ptr len) → Represents s ctx.toNat msg →
    ∃ t, exec (.absorb ctx ptr len) s = .next t ∧ Represents t ctx.toNat (msg ++ s.readBytes ptr.toNat len.toNat)

/-- Two contexts with one abstract value behave alike: BASE, stale buffer bytes, addresses, registers and other memory decide nothing (from
spec/10_state.md R25, spec/10_state.md R26, spec/10_state.md R27, spec/42_context_engine.md R165). -/
def Obligations.AbstractValueDecidesEveryResult : Prop :=
  ∀ (s t : State) (c e : Word), SameAbstractValue s c.toNat t e.toNat →
    (∀ p len q, Ready s (.absorb c p len) → Ready t (.absorb e q len) →
      s.readBytes p.toNat len.toNat = t.readBytes q.toNat len.toNat →
      ∃ s' t', exec (.absorb c p len) s = .next s' ∧ exec (.absorb e q len) t = .next t' ∧ SameAbstractValue s' c.toNat t' e.toNat) ∧
    ∀ o u, Ready s (.final c o) → Ready t (.final e u) →
      ∃ s' t', exec (.final c o) s = .next s' ∧ exec (.final e u) t = .next t' ∧ s'.readBytes o.toNat 16 = t'.readBytes u.toNat 16

/-- The streaming invariant: absorbing X and then Y gives the abstract value, and the digest, of absorbing X ++ Y (states R159). -/
def Obligations.SplittingASpanChangesNothing : Prop :=
  ∀ (s s' : State) (ctx ctx' p1 l1 p2 l2 p l : Word),
    Ready s (.absorb ctx p1 l1) → SpanReady s ctx p2 l2 → Ready s' (.absorb ctx' p l) →
    SameAbstractValue s ctx.toNat s' ctx'.toNat → l.toNat = l1.toNat + l2.toNat →
    s'.readBytes p.toNat l.toNat = s.readBytes p1.toNat l1.toNat ++ s.readBytes p2.toNat l2.toNat →
    ∃ t t', execAll [.absorb ctx p1 l1, .absorb ctx p2 l2] s = .next t ∧ exec (.absorb ctx' p l) s' = .next t' ∧
      SameAbstractValue t ctx.toNat t' ctx'.toNat ∧
      ∀ out out', DigestReady t ctx out → DigestReady t' ctx' out' →
        ∃ u u', exec (.final ctx out) t = .next u ∧ exec (.final ctx' out') t' = .next u' ∧
          u.readBytes out.toNat 16 = u'.readBytes out'.toNat 16

/-- INIT, any number of ABSORBs and FINAL complete, and the digest is the MD5 digest of the concatenated spans (states R164). -/
def Obligations.DigestIsMD5OfTheConcatenatedSpans : Prop :=
  ∀ (s : State) (ctx out : Word) (spans : List (Word × Word)), ContextReady s ctx → DigestReady s ctx out →
    (∀ x ∈ spans, SpanReady s ctx x.1 x.2) →
    ∃ t, execAll (.init ctx :: (absorbs ctx spans ++ [.final ctx out])) s = .next t ∧
      t.phaseOf ctx.toNat = .finalized ∧
      t.readBytes out.toNat 16 =
        quadBytes (chainBlocks (((spansBytes s spans).length + 8) / 64 + 1) ⟨0x67452301, 0xefcdab89, 0x98badcfe, 0x10325476⟩
          (spansBytes s spans ++ padding (spansBytes s spans).length)) ∧
      t.readBytes out.toNat 16 = md5 (spansBytes s spans)

/-- The same message gives the same digest from any two states, contexts, addresses and splits; a reinitialized context starts afresh
(states R165). -/
def Obligations.DigestDependsOnTheMessageAlone : Prop :=
  ∀ (s s' : State) (ctx ctx' out out' : Word) (spans spans' : List (Word × Word)),
    ContextReady s ctx → DigestReady s ctx out → (∀ x ∈ spans, SpanReady s ctx x.1 x.2) →
    ContextReady s' ctx' → DigestReady s' ctx' out' → (∀ x ∈ spans', SpanReady s' ctx' x.1 x.2) →
    ∃ t t', execAll (.init ctx :: (absorbs ctx spans ++ [.final ctx out])) s = .next t ∧
      execAll (.init ctx' :: (absorbs ctx' spans' ++ [.final ctx' out'])) s' = .next t' ∧
      (spansBytes s spans = spansBytes s' spans' → t.readBytes out.toNat 16 = t'.readBytes out'.toNat 16) ∧
      ∀ again, (∀ x ∈ again, SpanReady t ctx x.1 x.2) → spansBytes t again = spansBytes s' spans' →
        ∃ u, execAll (.init ctx :: (absorbs ctx again ++ [.final ctx out])) t = .next u ∧
          u.readBytes out.toNat 16 = t'.readBytes out'.toNat 16

/-- Two operations whose written regions are disjoint from every region of the other commute (from spec/20_memory.md R71,
spec/70_reset_and_hazards.md R215, spec/60_exceptions.md R200). -/
def Obligations.NonConflictingCommandsCommute : Prop :=
  ∀ (s t u : State) (i j : Instr), conflicts i j = false → exec i s = .next t → exec j t = .next u →
    ∃ t' u', exec j s = .next t' ∧ exec i t' = .next u' ∧ (∀ c, u'.phaseOf c = u.phaseOf c) ∧
      SameBytesBut (anyValueRegions s i ++ anyValueRegions s j) u u'

/-- Every running command can complete at any moment, and with no input left all in progress do, one a step, and the run is over (from
spec/70_reset_and_hazards.md R225, spec/70_reset_and_hazards.md R226, spec/70_reset_and_hazards.md R229, spec/60_exceptions.md R190). That
with no input left they complete one a step, the oldest first, and that commands beyond the number of engines wait, is the model's choice
(assumption log entry 10). -/
def Obligations.CommandsInProgressRunDry : Prop :=
  ∀ s : State, InFlightSound s →
    (∀ (n : Nat) (i : Instr) (rest : List Input), s.pending = .complete n :: rest → s.running[n]? = some i →
      ∃ t, step s = .next t ∧ exec i ((s.setPending rest).setInFlight (s.inFlight.eraseIdx n)) = .next t) ∧
    (s.pending = [] → ∃ t, stepTimes s.inFlight.length s = .next t ∧ RunOver t)

/-- A valid command on free regions is never turned away: issued with every engine busy it waits for one, then completes; started, it is
taken (from spec/60_exceptions.md R190, spec/70_reset_and_hazards.md R226, spec/70_reset_and_hazards.md R228, spec/00_scope.md R8). That the
host waits, and that the oldest command completes first while it does, is the model's choice (assumption log entry 10). -/
def Obligations.EveryValidCommandIsTaken : Prop :=
  ∀ (s : State) (d : Descriptor) (i : Instr) (rest : List Input), InFlightSound s → decodeDescriptor d = .ok i → Ready s i →
    s.busyFor i = false →
    (s.pending = .issue d :: rest → ∃ u, stepTimes (s.inFlight.length - s.platform.moreEngines) s = .next u ∧
      u.pending = .issue d :: rest ∧ u.inFlight = s.inFlight.drop (s.inFlight.length - s.platform.moreEngines) ∧
      ∃ t, step u = .next t ∧ exec i (u.setPending rest) = .next t) ∧
    (s.pending = .start d :: rest → step s = .next ((s.setPending rest).setInFlight (s.inFlight ++ [i])))

/-- A run may start with listed Active and Finalized contexts: the start premises on contexts that lie apart give the invariant (from
spec/70_reset_and_hazards.md R227, spec/10_state.md R26, spec/10_state.md R28, spec/20_memory.md R63, spec/20_memory.md R64). -/
def Obligations.StartPremisesGiveTheInvariant : Prop :=
  ∀ (listed : List (Nat × StartContext)) (s : State), StartPremises listed s → Memory.wf s.mem = true → Phases.wf s.phases = true →
    (∀ e ∈ listed, e.1 % 4 = 0 ∧ e.1 + 92 ≤ 2 ^ 32 ∧ (e.2 = .finalized → ∃ msg, s.chain e.1 = chainOf (padded msg))) →
    (∀ e ∈ listed, ∀ f ∈ listed, e.1 ≠ f.1 → NoCommonByte e.1 92 f.1 92) → Invariant s

/-- Along a run over an infinite sequence of host moves the invariant holds in every state, and the moves are taken in order, none skipped
(from spec/70_reset_and_hazards.md R227, spec/10_state.md R26, spec/20_memory.md R64). How a run is handed its moves, one at a time and the
same one again while a command waits, is the model's reading of R227 (assumption log entries 6 and 10). -/
def Obligations.InfiniteRunsKeepTheInvariant : Prop :=
  ∀ (moves : Nat → Input) (start : State) (states : Nat → State) (next : Nat → Nat), Invariant start →
    InfiniteRun moves start states next → ∀ n, Invariant (states n) ∧ next n ≤ n ∧ (∀ m, m ≤ next n → ∃ i, i ≤ n ∧ next i = m) ∧
      ((states (n + 1)).pending = [] → next (n + 1) = next n + 1)
end

