-- ==== Sys2Proof/Laws/Bytes.lean ====
section
/-! SUPPORT. Byte order: word_le and LE32 are inverse, and so are the byte forms built on them (spec/00_scope.md R12). -/

namespace Sys2Proof

theorem wordByte_toNat (w : Word) (i : Nat) : (wordByte w i).toNat = w.toNat / 2 ^ (8 * i) % 256 := by
  simp [wordByte, BitVec.extractLsb'_toNat, Nat.shiftRight_eq_div_pow]

theorem wordLE_toNat (p0 p1 p2 p3 : Byte) :
    (wordLE p0 p1 p2 p3).toNat = p0.toNat + 256 * p1.toNat + 65536 * p2.toNat + 16777216 * p3.toNat := by
  have := p0.isLt; have := p1.isLt; have := p2.isLt; have := p3.isLt
  simp only [wordLE, BitVec.toNat_ofNat]
  omega

/-- A word is the word of its bytes. -/
theorem wordLE_wordByte (w : Word) : wordLE (wordByte w 0) (wordByte w 1) (wordByte w 2) (wordByte w 3) = w := by
  apply BitVec.eq_of_toNat_eq
  have := w.isLt
  simp only [wordLE_toNat, wordByte_toNat]
  omega

theorem wordByte_wordLE (p0 p1 p2 p3 : Byte) : le32 (wordLE p0 p1 p2 p3) = [p0, p1, p2, p3] := by
  have := p0.isLt; have := p1.isLt; have := p2.isLt; have := p3.isLt
  simp only [le32, List.cons.injEq, and_true]
  refine ⟨?_, ?_, ?_, ?_⟩ <;> apply BitVec.eq_of_toNat_eq <;> simp only [wordLE_toNat, wordByte_toNat] <;> omega

@[simp] theorem le32_length (w : Word) : (le32 w).length = 4 := rfl
@[simp] theorem le64_length (v : Double) : (le64 v).length = 8 := rfl
@[simp] theorem quadBytes_length (q : Quad) : (quadBytes q).length = 16 := rfl

theorem doubleOf_toNat (lo hi : Word) : (doubleOf lo hi).toNat = hi.toNat * 2 ^ 32 + lo.toNat := by
  rw [doubleOf, BitVec.toNat_append, ← Nat.shiftLeft_add_eq_or_of_lt lo.isLt, Nat.shiftLeft_eq]

theorem lowWord_toNat (v : Double) : (lowWord v).toNat = v.toNat % 2 ^ 32 := by
  simp [lowWord, BitVec.extractLsb'_toNat]

theorem highWord_toNat (v : Double) : (highWord v).toNat = v.toNat / 2 ^ 32 := by
  have := v.isLt
  simp only [highWord, BitVec.extractLsb'_toNat, Nat.shiftRight_eq_div_pow]
  omega

@[simp] theorem doubleOf_halves (v : Double) : doubleOf (lowWord v) (highWord v) = v := by
  apply BitVec.eq_of_toNat_eq
  rw [doubleOf_toNat, lowWord_toNat, highWord_toNat]
  omega

@[simp] theorem lowWord_doubleOf (lo hi : Word) : lowWord (doubleOf lo hi) = lo := by
  apply BitVec.eq_of_toNat_eq
  have := lo.isLt
  rw [lowWord_toNat, doubleOf_toNat]
  omega

@[simp] theorem highWord_doubleOf (lo hi : Word) : highWord (doubleOf lo hi) = hi := by
  apply BitVec.eq_of_toNat_eq
  have := lo.isLt
  rw [highWord_toNat, doubleOf_toNat]
  omega

end Sys2Proof
end

