-- ==== Sys2Proof/Laws/Sparse.lean ====
section
/-! SUPPORT. Reading after writing, and the canonical form, of data kept by address. -/

namespace Sys2Proof.Machine

variable {α : Type}

@[simp] theorem Sparse.get?_set_same (l : List (Nat × α)) (a : Nat) (v : α) : Sparse.get? (Sparse.set l a v) a = some v := by
  induction l with
  | nil => simp [Sparse.set, Sparse.get?]
  | cons e rest ih =>
    obtain ⟨b, w⟩ := e
    simp only [Sparse.set]
    split_ifs with h1 h2
    · simp [Sparse.get?]
    · simp [Sparse.get?]
    · simp [Sparse.get?, h2, ih]

theorem Sparse.get?_set_other (l : List (Nat × α)) {a x : Nat} (v : α) (h : x ≠ a) :
    Sparse.get? (Sparse.set l a v) x = Sparse.get? l x := by
  induction l with
  | nil => simp [Sparse.set, Sparse.get?, h]
  | cons e rest ih =>
    obtain ⟨b, w⟩ := e
    simp only [Sparse.set]
    split_ifs with h1 h2
    · simp [Sparse.get?, h]
    · subst h2; simp [Sparse.get?, h]
    · simp [Sparse.get?, ih]

theorem Sparse.rises_mono {hi lo lo' : Nat} (h : lo' ≤ lo) {l : List (Nat × α)} (hl : Sparse.rises hi lo l = true) :
    Sparse.rises hi lo' l = true := by
  cases l with
  | nil => rfl
  | cons e rest =>
    simp only [Sparse.rises, Bool.and_eq_true, decide_eq_true_eq] at hl ⊢
    exact ⟨⟨h.trans hl.1.1, hl.1.2⟩, hl.2⟩

/-- Writing keeps the canonical form. -/
theorem Sparse.rises_set {hi a : Nat} (ha : a < hi) (v : α) (l : List (Nat × α)) :
    ∀ lo, lo ≤ a → Sparse.rises hi lo l = true → Sparse.rises hi lo (Sparse.set l a v) = true := by
  induction l with
  | nil => intro lo h _; simp [Sparse.set, Sparse.rises, h, ha]
  | cons e rest ih =>
    obtain ⟨b, w⟩ := e
    intro lo h hl
    simp only [Sparse.rises, Bool.and_eq_true, decide_eq_true_eq] at hl
    simp only [Sparse.set]
    split_ifs with h1 h2
    · simp [Sparse.rises, h, ha, hl.1.2, hl.2]; omega
    · subst h2; simp [Sparse.rises, h, ha, hl.2]
    · simp [Sparse.rises, hl.1.1, hl.1.2, ih (b + 1) (by omega) hl.2]

/-- Dropping entries keeps the canonical form. -/
theorem Sparse.rises_filter {hi : Nat} (f : Nat × α → Bool) (l : List (Nat × α)) :
    ∀ lo, Sparse.rises hi lo l = true → Sparse.rises hi lo (l.filter f) = true := by
  induction l with
  | nil => intro lo h; exact h
  | cons e rest ih =>
    intro lo hl
    simp only [Sparse.rises, Bool.and_eq_true, decide_eq_true_eq] at hl
    rw [List.filter_cons]
    split
    · simp [Sparse.rises, hl.1.1, hl.1.2, ih _ hl.2]
    · exact ih lo (Sparse.rises_mono (by omega) hl.2)

theorem Sparse.get?_eq_none_of_rises {hi lo a : Nat} (h : a < lo) {l : List (Nat × α)} (hl : Sparse.rises hi lo l = true) :
    Sparse.get? l a = none := by
  induction l generalizing lo with
  | nil => rfl
  | cons e rest ih =>
    simp only [Sparse.rises, Bool.and_eq_true, decide_eq_true_eq] at hl
    rw [Sparse.get?, if_neg (by omega), ih (by omega) hl.2]

/-- In canonical form the entry read at an address is the one listed there. -/
theorem Sparse.mem_iff_get? {hi : Nat} {l : List (Nat × α)} (a : Nat) (v : α) :
    ∀ {lo : Nat}, Sparse.rises hi lo l = true → ((a, v) ∈ l ↔ Sparse.get? l a = some v) := by
  induction l with
  | nil => intro _ _; simp [Sparse.get?]
  | cons e rest ih =>
    obtain ⟨b, w⟩ := e
    intro lo hl
    simp only [Sparse.rises, Bool.and_eq_true, decide_eq_true_eq] at hl
    by_cases h : a = b
    · subst h
      have hn := Sparse.get?_eq_none_of_rises (Nat.lt_succ_self a) hl.2
      have := (ih hl.2).not.mpr (by simp [hn])
      simp [Sparse.get?, this, eq_comm]
    · simp [Sparse.get?, h, ih hl.2]

/-- Two canonical lists that read the same at every address are the same list. -/
theorem Sparse.ext_of_get? {hi : Nat} {l m : List (Nat × α)} :
    ∀ {lo : Nat}, Sparse.rises hi lo l = true → Sparse.rises hi lo m = true →
      (∀ a, Sparse.get? l a = Sparse.get? m a) → l = m := by
  induction l generalizing m with
  | nil =>
    intro lo _ _ h
    cases m with
    | nil => rfl
    | cons e rest => have := h e.1; simp [Sparse.get?] at this
  | cons e rest ih =>
    obtain ⟨b, w⟩ := e
    intro lo hl hm h
    cases m with
    | nil => have := h b; simp [Sparse.get?] at this
    | cons e' rest' =>
      obtain ⟨b', w'⟩ := e'
      simp only [Sparse.rises, Bool.and_eq_true, decide_eq_true_eq] at hl hm
      have hb := h b
      have hb' := h b'
      have heq : b = b' := by
        rcases Nat.lt_trichotomy b b' with hlt | heq | hlt
        · have := Sparse.get?_eq_none_of_rises (a := b) (by omega) hm.2
          simp [Sparse.get?, this, hlt.ne] at hb
        · exact heq
        · have := Sparse.get?_eq_none_of_rises (a := b') (by omega) hl.2
          simp [Sparse.get?, this, hlt.ne] at hb'
      subst heq
      have hw : w = w' := by simpa [Sparse.get?] using hb
      subst hw
      congr 1
      refine ih hl.2 hm.2 fun a => ?_
      by_cases ha : a = b
      · subst ha
        rw [Sparse.get?_eq_none_of_rises (Nat.lt_succ_self a) hl.2, Sparse.get?_eq_none_of_rises (Nat.lt_succ_self a) hm.2]
      · simpa [Sparse.get?, ha] using h a

end Sys2Proof.Machine
end

