-- ==== Sys2Proof/Laws/State.lean ====
section
/-! SUPPORT. One lemma per field per update of State, and what the composed updates of Machine/Ops.lean leave alone: all true by rfl. -/

namespace Sys2Proof.Machine

variable (s : State)

/-! ### setMem -/

@[simp] theorem State.setMem_mem (m : Memory) : (s.setMem m).mem = m := rfl
@[simp] theorem State.setMem_epoch (m : Memory) : (s.setMem m).epoch = s.epoch := rfl
@[simp] theorem State.setMem_phases (m : Memory) : (s.setMem m).phases = s.phases := rfl
@[simp] theorem State.setMem_work (m : Memory) : (s.setMem m).work = s.work := rfl
@[simp] theorem State.setMem_msg (m : Memory) : (s.setMem m).msg = s.msg := rfl
@[simp] theorem State.setMem_k (m : Memory) : (s.setMem m).k = s.k := rfl
@[simp] theorem State.setMem_pos (m : Memory) : (s.setMem m).pos = s.pos := rfl
@[simp] theorem State.setMem_fill (m : Memory) : (s.setMem m).fill = s.fill := rfl
@[simp] theorem State.setMem_total (m : Memory) : (s.setMem m).total = s.total := rfl
@[simp] theorem State.setMem_platform (m : Memory) : (s.setMem m).platform = s.platform := rfl
@[simp] theorem State.setMem_inFlight (m : Memory) : (s.setMem m).inFlight = s.inFlight := rfl
@[simp] theorem State.setMem_pending (m : Memory) : (s.setMem m).pending = s.pending := rfl
@[simp] theorem State.setMem_hostData (m : Memory) : (s.setMem m).hostData = s.hostData := rfl
@[simp] theorem State.setMem_drawn (m : Memory) : (s.setMem m).drawn = s.drawn := rfl

/-! ### setPhases -/

@[simp] theorem State.setPhases_mem (p : Phases) : (s.setPhases p).mem = s.mem := rfl
@[simp] theorem State.setPhases_epoch (p : Phases) : (s.setPhases p).epoch = s.epoch := rfl
@[simp] theorem State.setPhases_phases (p : Phases) : (s.setPhases p).phases = p := rfl
@[simp] theorem State.setPhases_work (p : Phases) : (s.setPhases p).work = s.work := rfl
@[simp] theorem State.setPhases_msg (p : Phases) : (s.setPhases p).msg = s.msg := rfl
@[simp] theorem State.setPhases_k (p : Phases) : (s.setPhases p).k = s.k := rfl
@[simp] theorem State.setPhases_pos (p : Phases) : (s.setPhases p).pos = s.pos := rfl
@[simp] theorem State.setPhases_fill (p : Phases) : (s.setPhases p).fill = s.fill := rfl
@[simp] theorem State.setPhases_total (p : Phases) : (s.setPhases p).total = s.total := rfl
@[simp] theorem State.setPhases_platform (p : Phases) : (s.setPhases p).platform = s.platform := rfl
@[simp] theorem State.setPhases_inFlight (p : Phases) : (s.setPhases p).inFlight = s.inFlight := rfl
@[simp] theorem State.setPhases_pending (p : Phases) : (s.setPhases p).pending = s.pending := rfl
@[simp] theorem State.setPhases_hostData (p : Phases) : (s.setPhases p).hostData = s.hostData := rfl
@[simp] theorem State.setPhases_drawn (p : Phases) : (s.setPhases p).drawn = s.drawn := rfl

/-! ### setWork -/

@[simp] theorem State.setWork_mem (q : Quad) : (s.setWork q).mem = s.mem := rfl
@[simp] theorem State.setWork_epoch (q : Quad) : (s.setWork q).epoch = s.epoch := rfl
@[simp] theorem State.setWork_phases (q : Quad) : (s.setWork q).phases = s.phases := rfl
@[simp] theorem State.setWork_work (q : Quad) : (s.setWork q).work = q := rfl
@[simp] theorem State.setWork_msg (q : Quad) : (s.setWork q).msg = s.msg := rfl
@[simp] theorem State.setWork_k (q : Quad) : (s.setWork q).k = s.k := rfl
@[simp] theorem State.setWork_pos (q : Quad) : (s.setWork q).pos = s.pos := rfl
@[simp] theorem State.setWork_fill (q : Quad) : (s.setWork q).fill = s.fill := rfl
@[simp] theorem State.setWork_total (q : Quad) : (s.setWork q).total = s.total := rfl
@[simp] theorem State.setWork_platform (q : Quad) : (s.setWork q).platform = s.platform := rfl
@[simp] theorem State.setWork_inFlight (q : Quad) : (s.setWork q).inFlight = s.inFlight := rfl
@[simp] theorem State.setWork_pending (q : Quad) : (s.setWork q).pending = s.pending := rfl
@[simp] theorem State.setWork_hostData (q : Quad) : (s.setWork q).hostData = s.hostData := rfl
@[simp] theorem State.setWork_drawn (q : Quad) : (s.setWork q).drawn = s.drawn := rfl

/-! ### setMsg -/

@[simp] theorem State.setMsg_mem (m : Vector Word 16) : (s.setMsg m).mem = s.mem := rfl
@[simp] theorem State.setMsg_epoch (m : Vector Word 16) : (s.setMsg m).epoch = s.epoch := rfl
@[simp] theorem State.setMsg_phases (m : Vector Word 16) : (s.setMsg m).phases = s.phases := rfl
@[simp] theorem State.setMsg_work (m : Vector Word 16) : (s.setMsg m).work = s.work := rfl
@[simp] theorem State.setMsg_msg (m : Vector Word 16) : (s.setMsg m).msg = m := rfl
@[simp] theorem State.setMsg_k (m : Vector Word 16) : (s.setMsg m).k = s.k := rfl
@[simp] theorem State.setMsg_pos (m : Vector Word 16) : (s.setMsg m).pos = s.pos := rfl
@[simp] theorem State.setMsg_fill (m : Vector Word 16) : (s.setMsg m).fill = s.fill := rfl
@[simp] theorem State.setMsg_total (m : Vector Word 16) : (s.setMsg m).total = s.total := rfl
@[simp] theorem State.setMsg_platform (m : Vector Word 16) : (s.setMsg m).platform = s.platform := rfl
@[simp] theorem State.setMsg_inFlight (m : Vector Word 16) : (s.setMsg m).inFlight = s.inFlight := rfl
@[simp] theorem State.setMsg_pending (m : Vector Word 16) : (s.setMsg m).pending = s.pending := rfl
@[simp] theorem State.setMsg_hostData (m : Vector Word 16) : (s.setMsg m).hostData = s.hostData := rfl
@[simp] theorem State.setMsg_drawn (m : Vector Word 16) : (s.setMsg m).drawn = s.drawn := rfl

/-! ### setK -/

@[simp] theorem State.setK_mem (k : StepIndex) : (s.setK k).mem = s.mem := rfl
@[simp] theorem State.setK_epoch (k : StepIndex) : (s.setK k).epoch = s.epoch := rfl
@[simp] theorem State.setK_phases (k : StepIndex) : (s.setK k).phases = s.phases := rfl
@[simp] theorem State.setK_work (k : StepIndex) : (s.setK k).work = s.work := rfl
@[simp] theorem State.setK_msg (k : StepIndex) : (s.setK k).msg = s.msg := rfl
@[simp] theorem State.setK_k (k : StepIndex) : (s.setK k).k = k := rfl
@[simp] theorem State.setK_pos (k : StepIndex) : (s.setK k).pos = s.pos := rfl
@[simp] theorem State.setK_fill (k : StepIndex) : (s.setK k).fill = s.fill := rfl
@[simp] theorem State.setK_total (k : StepIndex) : (s.setK k).total = s.total := rfl
@[simp] theorem State.setK_platform (k : StepIndex) : (s.setK k).platform = s.platform := rfl
@[simp] theorem State.setK_inFlight (k : StepIndex) : (s.setK k).inFlight = s.inFlight := rfl
@[simp] theorem State.setK_pending (k : StepIndex) : (s.setK k).pending = s.pending := rfl
@[simp] theorem State.setK_hostData (k : StepIndex) : (s.setK k).hostData = s.hostData := rfl
@[simp] theorem State.setK_drawn (k : StepIndex) : (s.setK k).drawn = s.drawn := rfl

/-! ### setPos -/

@[simp] theorem State.setPos_mem (n : Nat) : (s.setPos n).mem = s.mem := rfl
@[simp] theorem State.setPos_epoch (n : Nat) : (s.setPos n).epoch = s.epoch := rfl
@[simp] theorem State.setPos_phases (n : Nat) : (s.setPos n).phases = s.phases := rfl
@[simp] theorem State.setPos_work (n : Nat) : (s.setPos n).work = s.work := rfl
@[simp] theorem State.setPos_msg (n : Nat) : (s.setPos n).msg = s.msg := rfl
@[simp] theorem State.setPos_k (n : Nat) : (s.setPos n).k = s.k := rfl
@[simp] theorem State.setPos_pos (n : Nat) : (s.setPos n).pos = n := rfl
@[simp] theorem State.setPos_fill (n : Nat) : (s.setPos n).fill = s.fill := rfl
@[simp] theorem State.setPos_total (n : Nat) : (s.setPos n).total = s.total := rfl
@[simp] theorem State.setPos_platform (n : Nat) : (s.setPos n).platform = s.platform := rfl
@[simp] theorem State.setPos_inFlight (n : Nat) : (s.setPos n).inFlight = s.inFlight := rfl
@[simp] theorem State.setPos_pending (n : Nat) : (s.setPos n).pending = s.pending := rfl
@[simp] theorem State.setPos_hostData (n : Nat) : (s.setPos n).hostData = s.hostData := rfl
@[simp] theorem State.setPos_drawn (n : Nat) : (s.setPos n).drawn = s.drawn := rfl

/-! ### setFill -/

@[simp] theorem State.setFill_mem (n : Nat) : (s.setFill n).mem = s.mem := rfl
@[simp] theorem State.setFill_epoch (n : Nat) : (s.setFill n).epoch = s.epoch := rfl
@[simp] theorem State.setFill_phases (n : Nat) : (s.setFill n).phases = s.phases := rfl
@[simp] theorem State.setFill_work (n : Nat) : (s.setFill n).work = s.work := rfl
@[simp] theorem State.setFill_msg (n : Nat) : (s.setFill n).msg = s.msg := rfl
@[simp] theorem State.setFill_k (n : Nat) : (s.setFill n).k = s.k := rfl
@[simp] theorem State.setFill_pos (n : Nat) : (s.setFill n).pos = s.pos := rfl
@[simp] theorem State.setFill_fill (n : Nat) : (s.setFill n).fill = n := rfl
@[simp] theorem State.setFill_total (n : Nat) : (s.setFill n).total = s.total := rfl
@[simp] theorem State.setFill_platform (n : Nat) : (s.setFill n).platform = s.platform := rfl
@[simp] theorem State.setFill_inFlight (n : Nat) : (s.setFill n).inFlight = s.inFlight := rfl
@[simp] theorem State.setFill_pending (n : Nat) : (s.setFill n).pending = s.pending := rfl
@[simp] theorem State.setFill_hostData (n : Nat) : (s.setFill n).hostData = s.hostData := rfl
@[simp] theorem State.setFill_drawn (n : Nat) : (s.setFill n).drawn = s.drawn := rfl

/-! ### setTotal -/

@[simp] theorem State.setTotal_mem (v : Double) : (s.setTotal v).mem = s.mem := rfl
@[simp] theorem State.setTotal_epoch (v : Double) : (s.setTotal v).epoch = s.epoch := rfl
@[simp] theorem State.setTotal_phases (v : Double) : (s.setTotal v).phases = s.phases := rfl
@[simp] theorem State.setTotal_work (v : Double) : (s.setTotal v).work = s.work := rfl
@[simp] theorem State.setTotal_msg (v : Double) : (s.setTotal v).msg = s.msg := rfl
@[simp] theorem State.setTotal_k (v : Double) : (s.setTotal v).k = s.k := rfl
@[simp] theorem State.setTotal_pos (v : Double) : (s.setTotal v).pos = s.pos := rfl
@[simp] theorem State.setTotal_fill (v : Double) : (s.setTotal v).fill = s.fill := rfl
@[simp] theorem State.setTotal_total (v : Double) : (s.setTotal v).total = v := rfl
@[simp] theorem State.setTotal_platform (v : Double) : (s.setTotal v).platform = s.platform := rfl
@[simp] theorem State.setTotal_inFlight (v : Double) : (s.setTotal v).inFlight = s.inFlight := rfl
@[simp] theorem State.setTotal_pending (v : Double) : (s.setTotal v).pending = s.pending := rfl
@[simp] theorem State.setTotal_hostData (v : Double) : (s.setTotal v).hostData = s.hostData := rfl
@[simp] theorem State.setTotal_drawn (v : Double) : (s.setTotal v).drawn = s.drawn := rfl

/-! ### setInFlight -/

@[simp] theorem State.setInFlight_mem (l : List Instr) : (s.setInFlight l).mem = s.mem := rfl
@[simp] theorem State.setInFlight_epoch (l : List Instr) : (s.setInFlight l).epoch = s.epoch := rfl
@[simp] theorem State.setInFlight_phases (l : List Instr) : (s.setInFlight l).phases = s.phases := rfl
@[simp] theorem State.setInFlight_work (l : List Instr) : (s.setInFlight l).work = s.work := rfl
@[simp] theorem State.setInFlight_msg (l : List Instr) : (s.setInFlight l).msg = s.msg := rfl
@[simp] theorem State.setInFlight_k (l : List Instr) : (s.setInFlight l).k = s.k := rfl
@[simp] theorem State.setInFlight_pos (l : List Instr) : (s.setInFlight l).pos = s.pos := rfl
@[simp] theorem State.setInFlight_fill (l : List Instr) : (s.setInFlight l).fill = s.fill := rfl
@[simp] theorem State.setInFlight_total (l : List Instr) : (s.setInFlight l).total = s.total := rfl
@[simp] theorem State.setInFlight_platform (l : List Instr) : (s.setInFlight l).platform = s.platform := rfl
@[simp] theorem State.setInFlight_inFlight (l : List Instr) : (s.setInFlight l).inFlight = l := rfl
@[simp] theorem State.setInFlight_pending (l : List Instr) : (s.setInFlight l).pending = s.pending := rfl
@[simp] theorem State.setInFlight_hostData (l : List Instr) : (s.setInFlight l).hostData = s.hostData := rfl
@[simp] theorem State.setInFlight_drawn (l : List Instr) : (s.setInFlight l).drawn = s.drawn := rfl

/-! ### setPending -/

@[simp] theorem State.setPending_mem (l : List Input) : (s.setPending l).mem = s.mem := rfl
@[simp] theorem State.setPending_epoch (l : List Input) : (s.setPending l).epoch = s.epoch := rfl
@[simp] theorem State.setPending_phases (l : List Input) : (s.setPending l).phases = s.phases := rfl
@[simp] theorem State.setPending_work (l : List Input) : (s.setPending l).work = s.work := rfl
@[simp] theorem State.setPending_msg (l : List Input) : (s.setPending l).msg = s.msg := rfl
@[simp] theorem State.setPending_k (l : List Input) : (s.setPending l).k = s.k := rfl
@[simp] theorem State.setPending_pos (l : List Input) : (s.setPending l).pos = s.pos := rfl
@[simp] theorem State.setPending_fill (l : List Input) : (s.setPending l).fill = s.fill := rfl
@[simp] theorem State.setPending_total (l : List Input) : (s.setPending l).total = s.total := rfl
@[simp] theorem State.setPending_platform (l : List Input) : (s.setPending l).platform = s.platform := rfl
@[simp] theorem State.setPending_inFlight (l : List Input) : (s.setPending l).inFlight = s.inFlight := rfl
@[simp] theorem State.setPending_pending (l : List Input) : (s.setPending l).pending = l := rfl
@[simp] theorem State.setPending_hostData (l : List Input) : (s.setPending l).hostData = s.hostData := rfl
@[simp] theorem State.setPending_drawn (l : List Input) : (s.setPending l).drawn = s.drawn := rfl

/-! ### setHostData -/

@[simp] theorem State.setHostData_mem (l : List Byte) : (s.setHostData l).mem = s.mem := rfl
@[simp] theorem State.setHostData_epoch (l : List Byte) : (s.setHostData l).epoch = s.epoch := rfl
@[simp] theorem State.setHostData_phases (l : List Byte) : (s.setHostData l).phases = s.phases := rfl
@[simp] theorem State.setHostData_work (l : List Byte) : (s.setHostData l).work = s.work := rfl
@[simp] theorem State.setHostData_msg (l : List Byte) : (s.setHostData l).msg = s.msg := rfl
@[simp] theorem State.setHostData_k (l : List Byte) : (s.setHostData l).k = s.k := rfl
@[simp] theorem State.setHostData_pos (l : List Byte) : (s.setHostData l).pos = s.pos := rfl
@[simp] theorem State.setHostData_fill (l : List Byte) : (s.setHostData l).fill = s.fill := rfl
@[simp] theorem State.setHostData_total (l : List Byte) : (s.setHostData l).total = s.total := rfl
@[simp] theorem State.setHostData_platform (l : List Byte) : (s.setHostData l).platform = s.platform := rfl
@[simp] theorem State.setHostData_inFlight (l : List Byte) : (s.setHostData l).inFlight = s.inFlight := rfl
@[simp] theorem State.setHostData_pending (l : List Byte) : (s.setHostData l).pending = s.pending := rfl
@[simp] theorem State.setHostData_hostData (l : List Byte) : (s.setHostData l).hostData = l := rfl
@[simp] theorem State.setHostData_drawn (l : List Byte) : (s.setHostData l).drawn = s.drawn := rfl

/-! ### setDrawn -/

@[simp] theorem State.setDrawn_mem (n : Nat) : (s.setDrawn n).mem = s.mem := rfl
@[simp] theorem State.setDrawn_epoch (n : Nat) : (s.setDrawn n).epoch = s.epoch := rfl
@[simp] theorem State.setDrawn_phases (n : Nat) : (s.setDrawn n).phases = s.phases := rfl
@[simp] theorem State.setDrawn_work (n : Nat) : (s.setDrawn n).work = s.work := rfl
@[simp] theorem State.setDrawn_msg (n : Nat) : (s.setDrawn n).msg = s.msg := rfl
@[simp] theorem State.setDrawn_k (n : Nat) : (s.setDrawn n).k = s.k := rfl
@[simp] theorem State.setDrawn_pos (n : Nat) : (s.setDrawn n).pos = s.pos := rfl
@[simp] theorem State.setDrawn_fill (n : Nat) : (s.setDrawn n).fill = s.fill := rfl
@[simp] theorem State.setDrawn_total (n : Nat) : (s.setDrawn n).total = s.total := rfl
@[simp] theorem State.setDrawn_platform (n : Nat) : (s.setDrawn n).platform = s.platform := rfl
@[simp] theorem State.setDrawn_inFlight (n : Nat) : (s.setDrawn n).inFlight = s.inFlight := rfl
@[simp] theorem State.setDrawn_pending (n : Nat) : (s.setDrawn n).pending = s.pending := rfl
@[simp] theorem State.setDrawn_hostData (n : Nat) : (s.setDrawn n).hostData = s.hostData := rfl
@[simp] theorem State.setDrawn_drawn (n : Nat) : (s.setDrawn n).drawn = n := rfl

/-! ### writeBytes -/

@[simp] theorem State.writeBytes_mem (a : Nat) (bs : List Byte) : (s.writeBytes a bs).mem = Memory.setBytes s.mem a bs := by
  unfold State.writeBytes; rfl
@[simp] theorem State.writeBytes_epoch (a : Nat) (bs : List Byte) : (s.writeBytes a bs).epoch = s.epoch := by
  unfold State.writeBytes; rfl
@[simp] theorem State.writeBytes_phases (a : Nat) (bs : List Byte) : (s.writeBytes a bs).phases = s.phases := by
  unfold State.writeBytes; rfl
@[simp] theorem State.writeBytes_work (a : Nat) (bs : List Byte) : (s.writeBytes a bs).work = s.work := by
  unfold State.writeBytes; rfl
@[simp] theorem State.writeBytes_msg (a : Nat) (bs : List Byte) : (s.writeBytes a bs).msg = s.msg := by
  unfold State.writeBytes; rfl
@[simp] theorem State.writeBytes_k (a : Nat) (bs : List Byte) : (s.writeBytes a bs).k = s.k := by
  unfold State.writeBytes; rfl
@[simp] theorem State.writeBytes_pos (a : Nat) (bs : List Byte) : (s.writeBytes a bs).pos = s.pos := by
  unfold State.writeBytes; rfl
@[simp] theorem State.writeBytes_fill (a : Nat) (bs : List Byte) : (s.writeBytes a bs).fill = s.fill := by
  unfold State.writeBytes; rfl
@[simp] theorem State.writeBytes_total (a : Nat) (bs : List Byte) : (s.writeBytes a bs).total = s.total := by
  unfold State.writeBytes; rfl
@[simp] theorem State.writeBytes_platform (a : Nat) (bs : List Byte) : (s.writeBytes a bs).platform = s.platform := by
  unfold State.writeBytes; rfl
@[simp] theorem State.writeBytes_inFlight (a : Nat) (bs : List Byte) : (s.writeBytes a bs).inFlight = s.inFlight := by
  unfold State.writeBytes; rfl
@[simp] theorem State.writeBytes_pending (a : Nat) (bs : List Byte) : (s.writeBytes a bs).pending = s.pending := by
  unfold State.writeBytes; rfl
@[simp] theorem State.writeBytes_hostData (a : Nat) (bs : List Byte) : (s.writeBytes a bs).hostData = s.hostData := by
  unfold State.writeBytes; rfl
@[simp] theorem State.writeBytes_drawn (a : Nat) (bs : List Byte) : (s.writeBytes a bs).drawn = s.drawn := by
  unfold State.writeBytes; rfl

/-! ### forgetBytes -/

@[simp] theorem State.forgetBytes_mem (a n : Nat) : (s.forgetBytes a n).mem = Memory.setBytes s.mem a (freeBytes s.drawn n) := by
  simp [State.forgetBytes]
@[simp] theorem State.forgetBytes_epoch (a n : Nat) : (s.forgetBytes a n).epoch = s.epoch := by
  simp [State.forgetBytes]
@[simp] theorem State.forgetBytes_phases (a n : Nat) : (s.forgetBytes a n).phases = s.phases := by
  simp [State.forgetBytes]
@[simp] theorem State.forgetBytes_work (a n : Nat) : (s.forgetBytes a n).work = s.work := by
  simp [State.forgetBytes]
@[simp] theorem State.forgetBytes_msg (a n : Nat) : (s.forgetBytes a n).msg = s.msg := by
  simp [State.forgetBytes]
@[simp] theorem State.forgetBytes_k (a n : Nat) : (s.forgetBytes a n).k = s.k := by
  simp [State.forgetBytes]
@[simp] theorem State.forgetBytes_pos (a n : Nat) : (s.forgetBytes a n).pos = s.pos := by
  simp [State.forgetBytes]
@[simp] theorem State.forgetBytes_fill (a n : Nat) : (s.forgetBytes a n).fill = s.fill := by
  simp [State.forgetBytes]
@[simp] theorem State.forgetBytes_total (a n : Nat) : (s.forgetBytes a n).total = s.total := by
  simp [State.forgetBytes]
@[simp] theorem State.forgetBytes_platform (a n : Nat) : (s.forgetBytes a n).platform = s.platform := by
  simp [State.forgetBytes]
@[simp] theorem State.forgetBytes_inFlight (a n : Nat) : (s.forgetBytes a n).inFlight = s.inFlight := by
  simp [State.forgetBytes]
@[simp] theorem State.forgetBytes_pending (a n : Nat) : (s.forgetBytes a n).pending = s.pending := by
  simp [State.forgetBytes]
@[simp] theorem State.forgetBytes_hostData (a n : Nat) : (s.forgetBytes a n).hostData = s.hostData := by
  simp [State.forgetBytes]
@[simp] theorem State.forgetBytes_drawn (a n : Nat) : (s.forgetBytes a n).drawn = s.drawn + n := by
  simp [State.forgetBytes]

/-! ### forgetInternal: memory, phases, the platform and the host's queues are left alone -/

@[simp] theorem State.forgetInternal_mem : s.forgetInternal.mem = s.mem := rfl
@[simp] theorem State.forgetInternal_epoch : s.forgetInternal.epoch = s.epoch := rfl
@[simp] theorem State.forgetInternal_phases : s.forgetInternal.phases = s.phases := rfl
@[simp] theorem State.forgetInternal_platform : s.forgetInternal.platform = s.platform := rfl
@[simp] theorem State.forgetInternal_inFlight : s.forgetInternal.inFlight = s.inFlight := rfl
@[simp] theorem State.forgetInternal_pending : s.forgetInternal.pending = s.pending := rfl
@[simp] theorem State.forgetInternal_hostData : s.forgetInternal.hostData = s.hostData := rfl

/-! ### retire and setPhase touch the phases only -/

@[simp] theorem State.retire_mem (r : Region) : (s.retire r).mem = s.mem := rfl
@[simp] theorem State.setPhase_mem (c : Nat) (p : Phase) : (s.setPhase c p).mem = s.mem := rfl
@[simp] theorem State.retire_epoch (r : Region) : (s.retire r).epoch = s.epoch := rfl
@[simp] theorem State.setPhase_epoch (c : Nat) (p : Phase) : (s.setPhase c p).epoch = s.epoch := rfl
@[simp] theorem State.retire_work (r : Region) : (s.retire r).work = s.work := rfl
@[simp] theorem State.setPhase_work (c : Nat) (p : Phase) : (s.setPhase c p).work = s.work := rfl
@[simp] theorem State.retire_msg (r : Region) : (s.retire r).msg = s.msg := rfl
@[simp] theorem State.setPhase_msg (c : Nat) (p : Phase) : (s.setPhase c p).msg = s.msg := rfl
@[simp] theorem State.retire_k (r : Region) : (s.retire r).k = s.k := rfl
@[simp] theorem State.setPhase_k (c : Nat) (p : Phase) : (s.setPhase c p).k = s.k := rfl
@[simp] theorem State.retire_pos (r : Region) : (s.retire r).pos = s.pos := rfl
@[simp] theorem State.setPhase_pos (c : Nat) (p : Phase) : (s.setPhase c p).pos = s.pos := rfl
@[simp] theorem State.retire_fill (r : Region) : (s.retire r).fill = s.fill := rfl
@[simp] theorem State.setPhase_fill (c : Nat) (p : Phase) : (s.setPhase c p).fill = s.fill := rfl
@[simp] theorem State.retire_total (r : Region) : (s.retire r).total = s.total := rfl
@[simp] theorem State.setPhase_total (c : Nat) (p : Phase) : (s.setPhase c p).total = s.total := rfl
@[simp] theorem State.retire_platform (r : Region) : (s.retire r).platform = s.platform := rfl
@[simp] theorem State.setPhase_platform (c : Nat) (p : Phase) : (s.setPhase c p).platform = s.platform := rfl
@[simp] theorem State.retire_inFlight (r : Region) : (s.retire r).inFlight = s.inFlight := rfl
@[simp] theorem State.setPhase_inFlight (c : Nat) (p : Phase) : (s.setPhase c p).inFlight = s.inFlight := rfl
@[simp] theorem State.retire_pending (r : Region) : (s.retire r).pending = s.pending := rfl
@[simp] theorem State.setPhase_pending (c : Nat) (p : Phase) : (s.setPhase c p).pending = s.pending := rfl
@[simp] theorem State.retire_hostData (r : Region) : (s.retire r).hostData = s.hostData := rfl
@[simp] theorem State.setPhase_hostData (c : Nat) (p : Phase) : (s.setPhase c p).hostData = s.hostData := rfl
@[simp] theorem State.retire_drawn (r : Region) : (s.retire r).drawn = s.drawn := rfl
@[simp] theorem State.setPhase_drawn (c : Nat) (p : Phase) : (s.setPhase c p).drawn = s.drawn := rfl

/-! ### What a byte reads as depends on memory and the reset count only -/

theorem State.readByte_congr {s t : State} (hm : s.mem = t.mem) (he : s.epoch = t.epoch) (a : Nat) :
    s.readByte a = t.readByte a := by
  simp only [State.readByte, hm, he]

@[simp] theorem State.readByte_setPhases (p : Phases) (a : Nat) : (s.setPhases p).readByte a = s.readByte a := State.readByte_congr rfl rfl a
@[simp] theorem State.readByte_setWork (q : Quad) (a : Nat) : (s.setWork q).readByte a = s.readByte a := State.readByte_congr rfl rfl a
@[simp] theorem State.readByte_setMsg (m : Vector Word 16) (a : Nat) : (s.setMsg m).readByte a = s.readByte a := State.readByte_congr rfl rfl a
@[simp] theorem State.readByte_setK (k : StepIndex) (a : Nat) : (s.setK k).readByte a = s.readByte a := State.readByte_congr rfl rfl a
@[simp] theorem State.readByte_setPos (n : Nat) (a : Nat) : (s.setPos n).readByte a = s.readByte a := State.readByte_congr rfl rfl a
@[simp] theorem State.readByte_setFill (n : Nat) (a : Nat) : (s.setFill n).readByte a = s.readByte a := State.readByte_congr rfl rfl a
@[simp] theorem State.readByte_setTotal (v : Double) (a : Nat) : (s.setTotal v).readByte a = s.readByte a := State.readByte_congr rfl rfl a
@[simp] theorem State.readByte_setInFlight (l : List Instr) (a : Nat) : (s.setInFlight l).readByte a = s.readByte a := State.readByte_congr rfl rfl a
@[simp] theorem State.readByte_setPending (l : List Input) (a : Nat) : (s.setPending l).readByte a = s.readByte a := State.readByte_congr rfl rfl a
@[simp] theorem State.readByte_setHostData (l : List Byte) (a : Nat) : (s.setHostData l).readByte a = s.readByte a := State.readByte_congr rfl rfl a
@[simp] theorem State.readByte_setDrawn (n : Nat) (a : Nat) : (s.setDrawn n).readByte a = s.readByte a := State.readByte_congr rfl rfl a
@[simp] theorem State.readByte_forgetInternal (a : Nat) : s.forgetInternal.readByte a = s.readByte a := State.readByte_congr rfl rfl a
@[simp] theorem State.readByte_retire (r : Region) (a : Nat) : (s.retire r).readByte a = s.readByte a := State.readByte_congr rfl rfl a
@[simp] theorem State.readByte_setPhase (c : Nat) (p : Phase) (a : Nat) : (s.setPhase c p).readByte a = s.readByte a := State.readByte_congr rfl rfl a

end Sys2Proof.Machine
end

