-- ==== Sys2Proof/Laws/Memory.lean ====
section
/-! SUPPORT. Main memory: a read after a write, and the canonical form.  Everything a later proof needs of memory is said here of
`readByte`, `readBytes` and `writeBytes`. -/

namespace Sys2Proof.Machine

variable (s : State)

/-! ### The canonical form -/

/-- A write inside the address space keeps memory in canonical form. -/
theorem Memory.wf_setBytes {m : Memory} (hm : Memory.wf m = true) (bs : List Byte) :
    ∀ a, a + bs.length ≤ Config.addressSpace → Memory.wf (Memory.setBytes m a bs) = true := by
  induction bs generalizing m with
  | nil => intro _ _; exact hm
  | cons v rest ih =>
    intro a ha
    rw [List.length_cons] at ha
    exact ih (Sparse.rises_set (by omega) v m 0 (Nat.zero_le a) hm) (a + 1) (by omega)

theorem State.writeBytes_wf {a : Nat} {bs : List Byte} (hm : Memory.wf s.mem = true)
    (ha : a + bs.length ≤ Config.addressSpace) : Memory.wf (s.writeBytes a bs).mem = true := by
  rw [State.writeBytes_mem]
  exact Memory.wf_setBytes hm bs a ha

/-! ### One byte after a write -/

theorem State.readByte_setMem_set (a x : Nat) (v : Byte) :
    (s.setMem (Sparse.set s.mem a v)).readByte x = if x = a then v else s.readByte x := by
  by_cases h : x = a
  · subst h; simp [State.readByte]
  · simp [State.readByte, h, Sparse.get?_set_other s.mem v h]

theorem State.writeBytes_cons (a : Nat) (v : Byte) (bs : List Byte) :
    s.writeBytes a (v :: bs) = (s.setMem (Sparse.set s.mem a v)).writeBytes (a + 1) bs := by
  unfold State.writeBytes; rfl

@[simp] theorem State.writeBytes_nil (a : Nat) : s.writeBytes a [] = s := by
  unfold State.writeBytes; rfl

/-- Every byte outside the written ones reads as before. -/
theorem State.readByte_writeBytes_of_outside {a x : Nat} {bs : List Byte} (h : x < a ∨ a + bs.length ≤ x) :
    (s.writeBytes a bs).readByte x = s.readByte x := by
  induction bs generalizing s a with
  | nil => rw [State.writeBytes_nil]
  | cons v rest ih =>
    rw [List.length_cons] at h
    rw [State.writeBytes_cons, ih _ (by omega), State.readByte_setMem_set, if_neg (by omega)]

/-- The i-th written byte reads as written. -/
theorem State.readByte_writeBytes_of_inside {a i : Nat} {bs : List Byte} (h : i < bs.length) :
    (s.writeBytes a bs).readByte (a + i) = bs[i] := by
  induction bs generalizing s a i with
  | nil => simp at h
  | cons v rest ih =>
    rw [State.writeBytes_cons]
    cases i with
    | zero =>
      rw [State.readByte_writeBytes_of_outside _ (by omega), State.readByte_setMem_set, if_pos (by omega)]
      rfl
    | succ n =>
      rw [List.length_cons] at h
      rw [show a + (n + 1) = a + 1 + n by omega, ih _ (by omega)]
      rfl

/-! ### Byte sequences -/

@[simp] theorem State.readBytes_length (a n : Nat) : (s.readBytes a n).length = n := by
  induction n generalizing a with
  | zero => rfl
  | succ n ih => simp [State.readBytes, ih]

@[simp] theorem State.readBytes_getElem (a n i : Nat) (h : i < (s.readBytes a n).length) :
    (s.readBytes a n)[i] = s.readByte (a + i) := by
  induction n generalizing a i with
  | zero => simp at h
  | succ n ih =>
    cases i with
    | zero => rfl
    | succ j =>
      simp only [State.readBytes, List.getElem_cons_succ]
      rw [ih, show a + (j + 1) = a + 1 + j by omega]

/-- Byte sequences read the same when each of their bytes does. -/
theorem State.readBytes_congr {s t : State} {a b n : Nat} (h : ∀ i, i < n → s.readByte (a + i) = t.readByte (b + i)) :
    s.readBytes a n = t.readBytes b n := by
  apply List.ext_getElem
  · simp
  · intro i h1 h2
    simp only [State.readBytes_length] at h1
    simpa using h i h1

theorem State.readBytes_add (a m n : Nat) : s.readBytes a (m + n) = s.readBytes a m ++ s.readBytes (a + m) n := by
  apply List.ext_getElem
  · simp
  · intro i h1 h2
    rw [List.getElem_append]
    simp only [State.readBytes_length, State.readBytes_getElem]
    split
    · rfl
    · congr 1; omega

theorem State.readBytes_take (a n i : Nat) (h : i ≤ n) : (s.readBytes a n).take i = s.readBytes a i := by
  obtain ⟨m, rfl⟩ := Nat.exists_eq_add_of_le h
  rw [State.readBytes_add]
  simp

theorem State.readBytes_drop (a n i : Nat) : (s.readBytes a n).drop i = s.readBytes (a + i) (n - i) := by
  apply List.ext_getElem
  · simp
  · intro j h1 h2
    simp [Nat.add_assoc]

/-- The bytes written read back. -/
theorem State.readBytes_writeBytes_same {a n : Nat} {bs : List Byte} (h : bs.length = n) :
    (s.writeBytes a bs).readBytes a n = bs := by
  apply List.ext_getElem
  · simp [h]
  · intro i h1 h2
    rw [State.readBytes_getElem, State.readByte_writeBytes_of_inside]

/-- Bytes outside the written ones read as before. -/
theorem State.readBytes_writeBytes_apart {a b n : Nat} {bs : List Byte} (h : b + n ≤ a ∨ a + bs.length ≤ b) :
    (s.writeBytes a bs).readBytes b n = s.readBytes b n :=
  State.readBytes_congr fun i hi => State.readByte_writeBytes_of_outside s (by omega)

/-- The bytes below `bs` in a longer sequence, then `bs`. -/
theorem State.readBytes_writeBytes_append {a i n : Nat} {bs : List Byte} (h : i + bs.length = n) :
    (s.writeBytes (a + i) bs).readBytes a n = s.readBytes a i ++ bs := by
  subst h
  rw [State.readBytes_add, State.readBytes_writeBytes_same _ rfl, State.readBytes_writeBytes_apart _ (by omega)]

/-- Writing back what is there changes no byte. -/
theorem State.readByte_writeBytes_self {a : Nat} {bs : List Byte} (h : s.readBytes a bs.length = bs) (x : Nat) :
    (s.writeBytes a bs).readByte x = s.readByte x := by
  by_cases hx : x < a ∨ a + bs.length ≤ x
  · exact State.readByte_writeBytes_of_outside s hx
  · obtain ⟨i, rfl⟩ := Nat.exists_eq_add_of_le (show a ≤ x by omega)
    rw [State.readByte_writeBytes_of_inside s (show i < bs.length by omega)]
    have := State.readBytes_getElem s a bs.length i (by simp; omega)
    rw [← this]
    congr 1
    exact h.symm

@[simp] theorem freeBytes_length (d n : Nat) : (freeBytes d n).length = n := by
  induction n generalizing d with
  | zero => rfl
  | succ n ih => simp [freeBytes, ih]

/-- Bytes that take any value: every other byte reads as before. -/
theorem State.readByte_forgetBytes_of_outside {a n x : Nat} (h : x < a ∨ a + n ≤ x) :
    (s.forgetBytes a n).readByte x = s.readByte x := by
  rw [State.forgetBytes, State.readByte_setDrawn, State.readByte_writeBytes_of_outside]
  simpa using h

theorem State.forgetBytes_wf {a n : Nat} (hm : Memory.wf s.mem = true) (ha : a + n ≤ Config.addressSpace) :
    Memory.wf (s.forgetBytes a n).mem = true :=
  State.writeBytes_wf s hm (by simpa using ha)

/-! ### Words -/

/-- A word read is the word of its four bytes, and those are its LE32. -/
theorem State.le32_readWord (a : Nat) : le32 (s.readWord a) = s.readBytes a 4 := by
  rw [State.readWord, wordByte_wordLE]
  rfl

theorem State.readWord_eq_of_readBytes {a : Nat} {w : Word} (h : s.readBytes a 4 = le32 w) : s.readWord a = w := by
  rw [← State.le32_readWord] at h
  have h0 : ∀ i : Fin 4, wordByte (s.readWord a) i = wordByte w i := by
    simp only [le32, List.cons.injEq, and_true] at h
    intro i
    fin_cases i <;> simp [h]
  rw [← wordLE_wordByte (s.readWord a), ← wordLE_wordByte w]
  have e0 := h0 0; have e1 := h0 1; have e2 := h0 2; have e3 := h0 3
  simp only [Fin.val_zero, Fin.val_one, Fin.val_two, show ((3 : Fin 4) : Nat) = 3 from rfl] at e0 e1 e2 e3
  rw [e0, e1, e2, e3]

theorem State.readWord_congr {s t : State} {a b : Nat} (h : s.readBytes a 4 = t.readBytes b 4) : s.readWord a = t.readWord b :=
  State.readWord_eq_of_readBytes s (h.trans (State.le32_readWord t b).symm)

/-! ### The fields of a context -/

theorem State.readBytes_four_words (c : Nat) :
    s.readBytes c 16 = s.readBytes c 4 ++ s.readBytes (c + 4) 4 ++ s.readBytes (c + 8) 4 ++ s.readBytes (c + 12) 4 := rfl

theorem State.quadBytes_chain (c : Nat) : quadBytes (s.chain c) = s.readBytes c 16 := by
  simp only [State.chain, quadBytes, State.le32_readWord, State.readBytes_four_words]

theorem State.chain_eq_of_readBytes {c : Nat} {q : Quad} (h : s.readBytes c 16 = quadBytes q) : s.chain c = q := by
  rw [State.readBytes_four_words, quadBytes] at h
  obtain ⟨h123, h4⟩ := List.append_inj' h (by simp)
  obtain ⟨h12, h3⟩ := List.append_inj' h123 (by simp)
  obtain ⟨h1, h2⟩ := List.append_inj' h12 (by simp)
  simp only [State.chain, State.readWord_eq_of_readBytes s h1, State.readWord_eq_of_readBytes s h2,
    State.readWord_eq_of_readBytes s h3, State.readWord_eq_of_readBytes s h4]

theorem State.chain_congr {s t : State} {c : Nat} (h : s.readBytes c 16 = t.readBytes c 16) : s.chain c = t.chain c :=
  State.chain_eq_of_readBytes s (h.trans (State.quadBytes_chain t c).symm)

@[simp] theorem State.chain_setChain (c : Nat) (q : Quad) : (s.setChain c q).chain c = q :=
  State.chain_eq_of_readBytes _ (State.readBytes_writeBytes_same s rfl)

theorem State.le64_count (c : Nat) : le64 (s.count c) = s.readBytes (c + countOffset) 8 := by
  rw [show 8 = 4 + 4 from rfl]
  simp only [State.count, le64, lowWord_doubleOf, highWord_doubleOf, State.le32_readWord, State.readBytes_add]

theorem State.count_eq_of_readBytes {c : Nat} {v : Double} (h : s.readBytes (c + countOffset) 8 = le64 v) : s.count c = v := by
  rw [show 8 = 4 + 4 from rfl] at h
  simp only [State.readBytes_add, le64] at h
  obtain ⟨h1, h2⟩ := List.append_inj' h (by simp)
  simp only [State.count, State.readWord_eq_of_readBytes s h1, State.readWord_eq_of_readBytes s h2, doubleOf_halves]

theorem State.count_congr {s t : State} {c : Nat} (h : s.readBytes (c + countOffset) 8 = t.readBytes (c + countOffset) 8) :
    s.count c = t.count c :=
  State.count_eq_of_readBytes s (h.trans (State.le64_count t c).symm)

@[simp] theorem State.count_setCount (c : Nat) (v : Double) : (s.setCount c v).count c = v :=
  State.count_eq_of_readBytes _ (State.readBytes_writeBytes_same s rfl)

/-! ### Memory is read the same after every update that is no write -/

@[simp] theorem State.readBytes_setPhases (p : Phases) (a i : Nat) : (s.setPhases p).readBytes a i = s.readBytes a i := State.readBytes_congr fun _ _ => rfl
@[simp] theorem State.chain_setPhases (p : Phases) (c : Nat) : (s.setPhases p).chain c = s.chain c :=
  State.chain_congr (State.readBytes_congr fun _ _ => rfl)
@[simp] theorem State.count_setPhases (p : Phases) (c : Nat) : (s.setPhases p).count c = s.count c :=
  State.count_congr (State.readBytes_congr fun _ _ => rfl)
@[simp] theorem State.readBytes_setWork (q : Quad) (a i : Nat) : (s.setWork q).readBytes a i = s.readBytes a i := State.readBytes_congr fun _ _ => rfl
@[simp] theorem State.chain_setWork (q : Quad) (c : Nat) : (s.setWork q).chain c = s.chain c :=
  State.chain_congr (State.readBytes_congr fun _ _ => rfl)
@[simp] theorem State.count_setWork (q : Quad) (c : Nat) : (s.setWork q).count c = s.count c :=
  State.count_congr (State.readBytes_congr fun _ _ => rfl)
@[simp] theorem State.readBytes_setMsg (m : Vector Word 16) (a i : Nat) : (s.setMsg m).readBytes a i = s.readBytes a i := State.readBytes_congr fun _ _ => rfl
@[simp] theorem State.chain_setMsg (m : Vector Word 16) (c : Nat) : (s.setMsg m).chain c = s.chain c :=
  State.chain_congr (State.readBytes_congr fun _ _ => rfl)
@[simp] theorem State.count_setMsg (m : Vector Word 16) (c : Nat) : (s.setMsg m).count c = s.count c :=
  State.count_congr (State.readBytes_congr fun _ _ => rfl)
@[simp] theorem State.readBytes_setK (k : StepIndex) (a i : Nat) : (s.setK k).readBytes a i = s.readBytes a i := State.readBytes_congr fun _ _ => rfl
@[simp] theorem State.chain_setK (k : StepIndex) (c : Nat) : (s.setK k).chain c = s.chain c :=
  State.chain_congr (State.readBytes_congr fun _ _ => rfl)
@[simp] theorem State.count_setK (k : StepIndex) (c : Nat) : (s.setK k).count c = s.count c :=
  State.count_congr (State.readBytes_congr fun _ _ => rfl)
@[simp] theorem State.readBytes_setPos (n : Nat) (a i : Nat) : (s.setPos n).readBytes a i = s.readBytes a i := State.readBytes_congr fun _ _ => rfl
@[simp] theorem State.chain_setPos (n : Nat) (c : Nat) : (s.setPos n).chain c = s.chain c :=
  State.chain_congr (State.readBytes_congr fun _ _ => rfl)
@[simp] theorem State.count_setPos (n : Nat) (c : Nat) : (s.setPos n).count c = s.count c :=
  State.count_congr (State.readBytes_congr fun _ _ => rfl)
@[simp] theorem State.readBytes_setFill (n : Nat) (a i : Nat) : (s.setFill n).readBytes a i = s.readBytes a i := State.readBytes_congr fun _ _ => rfl
@[simp] theorem State.chain_setFill (n : Nat) (c : Nat) : (s.setFill n).chain c = s.chain c :=
  State.chain_congr (State.readBytes_congr fun _ _ => rfl)
@[simp] theorem State.count_setFill (n : Nat) (c : Nat) : (s.setFill n).count c = s.count c :=
  State.count_congr (State.readBytes_congr fun _ _ => rfl)
@[simp] theorem State.readBytes_setTotal (v : Double) (a i : Nat) : (s.setTotal v).readBytes a i = s.readBytes a i := State.readBytes_congr fun _ _ => rfl
@[simp] theorem State.chain_setTotal (v : Double) (c : Nat) : (s.setTotal v).chain c = s.chain c :=
  State.chain_congr (State.readBytes_congr fun _ _ => rfl)
@[simp] theorem State.count_setTotal (v : Double) (c : Nat) : (s.setTotal v).count c = s.count c :=
  State.count_congr (State.readBytes_congr fun _ _ => rfl)
@[simp] theorem State.readBytes_setInFlight (l : List Instr) (a i : Nat) : (s.setInFlight l).readBytes a i = s.readBytes a i := State.readBytes_congr fun _ _ => rfl
@[simp] theorem State.chain_setInFlight (l : List Instr) (c : Nat) : (s.setInFlight l).chain c = s.chain c :=
  State.chain_congr (State.readBytes_congr fun _ _ => rfl)
@[simp] theorem State.count_setInFlight (l : List Instr) (c : Nat) : (s.setInFlight l).count c = s.count c :=
  State.count_congr (State.readBytes_congr fun _ _ => rfl)
@[simp] theorem State.readBytes_setPending (l : List Input) (a i : Nat) : (s.setPending l).readBytes a i = s.readBytes a i := State.readBytes_congr fun _ _ => rfl
@[simp] theorem State.chain_setPending (l : List Input) (c : Nat) : (s.setPending l).chain c = s.chain c :=
  State.chain_congr (State.readBytes_congr fun _ _ => rfl)
@[simp] theorem State.count_setPending (l : List Input) (c : Nat) : (s.setPending l).count c = s.count c :=
  State.count_congr (State.readBytes_congr fun _ _ => rfl)
@[simp] theorem State.readBytes_setHostData (l : List Byte) (a i : Nat) : (s.setHostData l).readBytes a i = s.readBytes a i := State.readBytes_congr fun _ _ => rfl
@[simp] theorem State.chain_setHostData (l : List Byte) (c : Nat) : (s.setHostData l).chain c = s.chain c :=
  State.chain_congr (State.readBytes_congr fun _ _ => rfl)
@[simp] theorem State.count_setHostData (l : List Byte) (c : Nat) : (s.setHostData l).count c = s.count c :=
  State.count_congr (State.readBytes_congr fun _ _ => rfl)
@[simp] theorem State.readBytes_setDrawn (n : Nat) (a i : Nat) : (s.setDrawn n).readBytes a i = s.readBytes a i := State.readBytes_congr fun _ _ => rfl
@[simp] theorem State.chain_setDrawn (n : Nat) (c : Nat) : (s.setDrawn n).chain c = s.chain c :=
  State.chain_congr (State.readBytes_congr fun _ _ => rfl)
@[simp] theorem State.count_setDrawn (n : Nat) (c : Nat) : (s.setDrawn n).count c = s.count c :=
  State.count_congr (State.readBytes_congr fun _ _ => rfl)
@[simp] theorem State.readBytes_forgetInternal (a i : Nat) : s.forgetInternal.readBytes a i = s.readBytes a i := State.readBytes_congr fun _ _ => rfl
@[simp] theorem State.chain_forgetInternal (c : Nat) : s.forgetInternal.chain c = s.chain c :=
  State.chain_congr (State.readBytes_congr fun _ _ => rfl)
@[simp] theorem State.count_forgetInternal (c : Nat) : s.forgetInternal.count c = s.count c :=
  State.count_congr (State.readBytes_congr fun _ _ => rfl)
@[simp] theorem State.readBytes_retire (r : Region) (a i : Nat) : (s.retire r).readBytes a i = s.readBytes a i := State.readBytes_congr fun _ _ => rfl
@[simp] theorem State.chain_retire (r : Region) (c : Nat) : (s.retire r).chain c = s.chain c :=
  State.chain_congr (State.readBytes_congr fun _ _ => rfl)
@[simp] theorem State.count_retire (r : Region) (c : Nat) : (s.retire r).count c = s.count c :=
  State.count_congr (State.readBytes_congr fun _ _ => rfl)
@[simp] theorem State.readBytes_setPhase (x : Nat) (p : Phase) (a i : Nat) : (s.setPhase x p).readBytes a i = s.readBytes a i := State.readBytes_congr fun _ _ => rfl
@[simp] theorem State.chain_setPhase (x : Nat) (p : Phase) (c : Nat) : (s.setPhase x p).chain c = s.chain c :=
  State.chain_congr (State.readBytes_congr fun _ _ => rfl)
@[simp] theorem State.count_setPhase (x : Nat) (p : Phase) (c : Nat) : (s.setPhase x p).count c = s.count c :=
  State.count_congr (State.readBytes_congr fun _ _ => rfl)

end Sys2Proof.Machine
end

