-- ==== Sys2Proof/Laws/Compression.lean ====
section
/-! SUPPORT. COMPRESS on the state: everything it changes, in one equation, and the pure function it computes. -/

namespace Sys2Proof.Machine

variable (s : State)

theorem State.stepSelected_of_lt (h : s.k.toNat < 63) :
    s.stepSelected = (s.setWork (stepAt s.msg s.k.toNat s.work)).setK (BitVec.ofNat 6 (s.k.toNat + 1)) := by
  rw [State.stepSelected, State.stepWith, State.advanceIndex, if_pos h]
  rfl

theorem State.stepSelected_last (h : s.k.toNat = 63) :
    s.stepSelected =
      ((s.setWork (stepAt s.msg 63 s.work)).setK (Config.freeIndex s.drawn)).setDrawn (s.drawn + 1) := by
  rw [State.stepSelected, State.stepWith, State.advanceIndex, h, if_neg (by omega)]
  rfl

/-- The steps from index k to the last: the registers go through them in order, the index is used up, nothing else changes. -/
theorem State.runSteps_to_end {n : Nat} (h : s.k.toNat + n = 64) (hn : 0 < n) :
    s.runSteps n =
      ((s.setWork (stepsFrom s.msg s.k.toNat n s.work)).setK (Config.freeIndex s.drawn)).setDrawn (s.drawn + 1) := by
  induction n generalizing s with
  | zero => omega
  | succ n ih =>
    rw [State.runSteps]
    rcases Nat.eq_zero_or_pos n with rfl | hpos
    · rw [State.stepSelected_last s (by omega), show s.k.toNat = 63 by omega]
      rfl
    · have hk : (BitVec.ofNat 6 (s.k.toNat + 1)).toNat = s.k.toNat + 1 := by
        rw [BitVec.toNat_ofNat]; omega
      rw [State.stepSelected_of_lt s (by omega), ih _ (by rw [State.setK_k, hk]; omega) hpos]
      simp only [State.setK_k, hk, State.setK_msg, State.setWork_msg, State.setK_work, State.setWork_work, State.setK_drawn,
        State.setWork_drawn, stepsFrom]
      rfl

/-- Load, all the steps, feed-forward, for a number of steps that is a variable: so nothing below is ever computed out. -/
theorem State.feedForward_runSteps {n : Nat} (hn : n = 64) (q : Quad) (c : Nat) (block : List Byte) :
    ((s.loadCompress q block).runSteps n).feedForward c =
      ((((s.setChain c (addWords (s.chain c) (stepsFrom (blockWords block) 0 n q))).setMsg (blockWords block)).setWork
        (stepsFrom (blockWords block) 0 n q)).setK (Config.freeIndex s.drawn)).setDrawn (s.drawn + 1) := by
  have hk : (s.loadCompress q block).k.toNat = 0 := rfl
  rw [State.runSteps_to_end _ (by omega) (by omega), hk]
  simp only [State.feedForward, State.setChain, State.writeBytes, State.chain_setDrawn, State.chain_setK, State.chain_setWork,
    State.loadCompress, State.chain_setMsg, State.setDrawn_work, State.setK_work, State.setWork_work, State.setK_msg, State.setWork_msg,
    State.setMsg_msg, State.setDrawn_mem, State.setK_mem, State.setWork_mem, State.setMsg_mem, State.setK_drawn, State.setWork_drawn,
    State.setMsg_drawn]
  simp only [State.setMem, State.setMsg, State.setWork, State.setK, State.setDrawn]

/-- COMPRESS: S becomes the compression of S and the block; the working registers, M and k are used up; nothing else changes (R120, R137). -/
theorem State.compress_eq (c : Nat) (block : List Byte) :
    s.compress c block =
      ((((s.setChain c (compressFn (s.chain c) block)).setMsg (blockWords block)).setWork
        (stepsFrom (blockWords block) 0 64 (s.chain c))).setK (Config.freeIndex s.drawn)).setDrawn (s.drawn + 1) := by
  unfold State.compress compressFn
  exact State.feedForward_runSteps s (n := 64) rfl (s.chain c) c block

@[simp] theorem State.compress_chain (c : Nat) (block : List Byte) :
    (s.compress c block).chain c = compressFn (s.chain c) block := by
  simp only [State.compress_eq, State.chain_setDrawn, State.chain_setK, State.chain_setWork, State.chain_setMsg, State.chain_setChain]

/-- Every byte but the 16 of S reads as before. -/
theorem State.readByte_compress_of_outside {c x : Nat} (block : List Byte) (h : x < c ∨ c + 16 ≤ x) :
    (s.compress c block).readByte x = s.readByte x := by
  simp only [State.compress_eq, State.readByte_setDrawn, State.readByte_setK, State.readByte_setWork, State.readByte_setMsg]
  exact State.readByte_writeBytes_of_outside s h

theorem State.compress_wf {c : Nat} (block : List Byte) (hm : Memory.wf s.mem = true) (h : c + 16 ≤ Config.addressSpace) :
    Memory.wf (s.compress c block).mem = true := by
  simp only [State.compress_eq, State.setDrawn_mem, State.setK_mem, State.setWork_mem, State.setMsg_mem]
  exact State.writeBytes_wf s hm h

/-! ### The fields COMPRESS leaves alone -/

@[simp] theorem State.compress_epoch (c : Nat) (block : List Byte) : (s.compress c block).epoch = s.epoch := by
  simp [State.compress_eq, State.setChain]
@[simp] theorem State.compress_phases (c : Nat) (block : List Byte) : (s.compress c block).phases = s.phases := by
  simp [State.compress_eq, State.setChain]
@[simp] theorem State.compress_pos (c : Nat) (block : List Byte) : (s.compress c block).pos = s.pos := by
  simp [State.compress_eq, State.setChain]
@[simp] theorem State.compress_fill (c : Nat) (block : List Byte) : (s.compress c block).fill = s.fill := by
  simp [State.compress_eq, State.setChain]
@[simp] theorem State.compress_total (c : Nat) (block : List Byte) : (s.compress c block).total = s.total := by
  simp [State.compress_eq, State.setChain]
@[simp] theorem State.compress_platform (c : Nat) (block : List Byte) : (s.compress c block).platform = s.platform := by
  simp [State.compress_eq, State.setChain]
@[simp] theorem State.compress_inFlight (c : Nat) (block : List Byte) : (s.compress c block).inFlight = s.inFlight := by
  simp [State.compress_eq, State.setChain]
@[simp] theorem State.compress_pending (c : Nat) (block : List Byte) : (s.compress c block).pending = s.pending := by
  simp [State.compress_eq, State.setChain]
@[simp] theorem State.compress_hostData (c : Nat) (block : List Byte) : (s.compress c block).hostData = s.hostData := by
  simp [State.compress_eq, State.setChain]
@[simp] theorem State.compress_drawn (c : Nat) (block : List Byte) : (s.compress c block).drawn = s.drawn + 1 := by
  simp [State.compress_eq, State.setChain]

end Sys2Proof.Machine
end

