-- ==== Sys2Proof/Laws/Evolves.lean ====
section
/-! SUPPORT. What the operations a command is made of may change: memory at a given set of addresses, and the registers of the engine. -/

namespace Sys2Proof.Machine

/-- From `s` to `t` only memory at addresses in `A`, the engine's internal registers and the count of draws have changed, and memory has
stayed in canonical form. -/
structure Evolves (A : Nat → Prop) (s t : State) : Prop where
  byte : ∀ a, ¬ A a → t.readByte a = s.readByte a
  wf : Memory.wf s.mem = true → Memory.wf t.mem = true
  epoch : t.epoch = s.epoch
  phases : t.phases = s.phases
  platform : t.platform = s.platform
  inFlight : t.inFlight = s.inFlight
  pending : t.pending = s.pending
  hostData : t.hostData = s.hostData

variable {s t u : State} {A B : Nat → Prop}

theorem Evolves.refl : Evolves A s s := ⟨fun _ _ => rfl, id, rfl, rfl, rfl, rfl, rfl, rfl⟩

theorem Evolves.trans (h : Evolves A s t) (g : Evolves A t u) : Evolves A s u where
  byte a ha := (g.byte a ha).trans (h.byte a ha)
  wf := g.wf ∘ h.wf
  epoch := g.epoch.trans h.epoch
  phases := g.phases.trans h.phases
  platform := g.platform.trans h.platform
  inFlight := g.inFlight.trans h.inFlight
  pending := g.pending.trans h.pending
  hostData := g.hostData.trans h.hostData

theorem Evolves.mono (h : Evolves A s t) (hAB : ∀ a, A a → B a) : Evolves B s t :=
  { h with byte := fun a ha => h.byte a fun hA => ha (hAB a hA) }

/-- Bytes clear of the changed addresses read the same. -/
theorem Evolves.readBytes (h : Evolves A s t) {a n : Nat} (ha : ∀ x, a ≤ x → x < a + n → ¬ A x) :
    t.readBytes a n = s.readBytes a n :=
  State.readBytes_congr fun i hi => h.byte _ (ha _ (by omega) (by omega))

theorem Evolves.chain (h : Evolves A s t) {c : Nat} (ha : ∀ x, c ≤ x → x < c + 16 → ¬ A x) : t.chain c = s.chain c :=
  State.chain_congr (h.readBytes ha)

theorem Evolves.count (h : Evolves A s t) {c : Nat} (ha : ∀ x, c + 16 ≤ x → x < c + 24 → ¬ A x) : t.count c = s.count c :=
  State.count_congr (h.readBytes fun x h1 h2 => ha x h1 (by simp only [countOffset] at h2; omega))

/-- A write inside the address space. -/
theorem Evolves.writeBytes {a : Nat} {bs : List Byte} (hA : ∀ x, a ≤ x → x < a + bs.length → A x)
    (hfit : a + bs.length ≤ Config.addressSpace) : Evolves A s (s.writeBytes a bs) where
  byte x hx := State.readByte_writeBytes_of_outside s (by
    by_contra hc
    exact hx (hA x (by omega) (by omega)))
  wf hm := State.writeBytes_wf s hm hfit
  epoch := by simp
  phases := by simp
  platform := by simp
  inFlight := by simp
  pending := by simp
  hostData := by simp

theorem Evolves.forgetBytes {a n : Nat} (hA : ∀ x, a ≤ x → x < a + n → A x) (hfit : a + n ≤ Config.addressSpace) :
    Evolves A s (s.forgetBytes a n) where
  byte x hx := State.readByte_forgetBytes_of_outside s (by
    by_contra hc
    exact hx (hA x (by omega) (by omega)))
  wf hm := State.forgetBytes_wf s hm hfit
  epoch := by simp
  phases := by simp
  platform := by simp
  inFlight := by simp
  pending := by simp
  hostData := by simp

/-- COMPRESS writes S. -/
theorem Evolves.compress {c : Nat} {block : List Byte} (hA : ∀ x, c ≤ x → x < c + 16 → A x) (hfit : c + 16 ≤ Config.addressSpace) :
    Evolves A s (s.compress c block) where
  byte x hx := State.readByte_compress_of_outside s block (by
    by_contra hc
    exact hx (hA x (by omega) (by omega)))
  wf hm := State.compress_wf s block hm hfit
  epoch := by simp
  phases := by simp
  platform := by simp
  inFlight := by simp
  pending := by simp
  hostData := by simp

theorem Evolves.setPos (n : Nat) : Evolves A s (s.setPos n) := ⟨fun a _ => State.readByte_setPos s n a, id, rfl, rfl, rfl, rfl, rfl, rfl⟩
theorem Evolves.setFill (n : Nat) : Evolves A s (s.setFill n) := ⟨fun a _ => State.readByte_setFill s n a, id, rfl, rfl, rfl, rfl, rfl, rfl⟩
theorem Evolves.setTotal (v : Double) : Evolves A s (s.setTotal v) :=
  ⟨fun a _ => State.readByte_setTotal s v a, id, rfl, rfl, rfl, rfl, rfl, rfl⟩
theorem Evolves.forgetInternal : Evolves A s s.forgetInternal :=
  ⟨fun a _ => State.readByte_forgetInternal s a, id, rfl, rfl, rfl, rfl, rfl, rfl⟩

end Sys2Proof.Machine
end

