-- ==== Sys2Proof/Laws/Functional.lean ====
section
/-! SUPPORT. The functions of values: chaining over a split message, and the padding. -/

namespace Sys2Proof.Machine

/-- Chaining over m + n blocks is chaining over m, then over the next n (R136). -/
theorem chainBlocks_add (m n : Nat) (q : Quad) (bs : List Byte) :
    chainBlocks (m + n) q bs = chainBlocks n (chainBlocks m q bs) (bs.drop (64 * m)) := by
  induction m generalizing q bs with
  | zero => simp [chainBlocks]
  | succ m ih =>
    rw [show m + 1 + n = m + n + 1 by omega, chainBlocks, ih, chainBlocks, List.drop_drop]
    congr 2
    omega

/-- Only the bytes of the n blocks matter. -/
theorem chainBlocks_append {n : Nat} {q : Quad} {bs cs : List Byte} (h : 64 * n ≤ bs.length) :
    chainBlocks n q (bs ++ cs) = chainBlocks n q bs := by
  induction n generalizing q bs with
  | zero => rfl
  | succ n ih =>
    rw [chainBlocks, chainBlocks, List.take_append_of_le_length (by omega), List.drop_append_of_le_length (by omega), ih]
    simp only [List.length_drop]
    omega

theorem chainBlocks_one (q : Quad) {block : List Byte} (h : block.length = 64) :
    chainBlocks 1 q block = compressFn q block := by
  simp [chainBlocks, ← h]

theorem tailOf_length (msg : List Byte) : (tailOf msg).length = msg.length % 64 := by
  simp only [tailOf, List.length_drop]
  omega

/-- The blocks and the tail of a message grown by `data`: what the old tail and `data` have together. -/
theorem chainOf_append (msg data : List Byte) :
    chainOf (msg ++ data) = chainBlocks ((msg.length % 64 + data.length) / 64) (chainOf msg) (tailOf msg ++ data) := by
  have hn : (msg ++ data).length / 64 = msg.length / 64 + (msg.length % 64 + data.length) / 64 := by
    rw [List.length_append]; omega
  rw [chainOf, hn, chainBlocks_add, chainBlocks_append (by omega), List.drop_append_of_le_length (by omega)]
  rfl

theorem tailOf_append (msg data : List Byte) :
    tailOf (msg ++ data) = (tailOf msg ++ data).drop (64 * ((msg.length % 64 + data.length) / 64)) := by
  have hn : 64 * ((msg ++ data).length / 64) = 64 * (msg.length / 64) + 64 * ((msg.length % 64 + data.length) / 64) := by
    rw [List.length_append]; omega
  rw [tailOf, hn, ← List.drop_drop, List.drop_append_of_le_length (by omega)]
  rfl

/-- The fill level the bit count implies (R24). -/
theorem fillOf_toNat (v : Double) : fillOf v = v.toNat / 8 % 64 := by
  simp [fillOf, BitVec.extractLsb'_toNat, Nat.shiftRight_eq_div_pow]

theorem fillOf_lt (v : Double) : fillOf v < 64 := (v.extractLsb' 3 6).isLt

theorem fillOf_bitLength (n : Nat) : fillOf (bitLength n) = n % 64 := by
  rw [fillOf_toNat, bitLength, BitVec.toNat_ofNat]
  omega

theorem bitsOf_toNat (len : Word) : (bitsOf len).toNat = 8 * len.toNat := by
  have := len.isLt
  simp only [bitsOf, BitVec.toNat_shiftLeft, BitVec.toNat_setWidth, Nat.shiftLeft_eq]
  omega

/-- The counter counts bits (R154). -/
theorem countAfter_bitLength (n : Nat) (len : Word) : countAfter (bitLength n) len = bitLength (n + len.toNat) := by
  apply BitVec.eq_of_toNat_eq
  simp only [countAfter, add64, bitLength, BitVec.toNat_add, BitVec.toNat_ofNat, bitsOf_toNat]
  omega

theorem padding_length (n : Nat) : (padding n).length = padZeros n + 9 := by
  simp [padding]

/-- A padded message is a whole number of blocks (R160, R162 f). -/
theorem padded_length (msg : List Byte) : (padded msg).length = 64 * ((msg.length + 8) / 64 + 1) := by
  simp only [padded, List.length_append, padding_length, padZeros]
  omega

end Sys2Proof.Machine
end

