-- ==== Sys2Proof/Laws/Absorb.lean ====
section
/-! SUPPORT. ABSORB: what its stages do to S, to the buffer and to the rest of memory (spec/42_context_engine.md R153 to R158).  `c` is the
context's address; the span is the `len` bytes at `ptr`, clear of the context. -/

namespace Sys2Proof.Machine

variable (s : State)

/-- The addresses of S and BUF of the context at `c`: all that the stages write. -/
def chainOrBuffer (c a : Nat) : Prop := (c ≤ a ∧ a < c + 16) ∨ (c + 28 ≤ a ∧ a < c + 92)

/-- The `n` bytes at `p` are clear of the context at `c`. -/
def ClearOf (c p n : Nat) : Prop := n = 0 ∨ p + n ≤ c ∨ c + 92 ≤ p

theorem readBytes_span {A : Nat → Prop} {s t : State} (h : Evolves A s t) {c p n : Nat} (hp : ClearOf c p n)
    (hA : ∀ a, A a → c ≤ a ∧ a < c + 92) : t.readBytes p n = s.readBytes p n := by
  refine h.readBytes fun x h1 h2 hx => ?_
  have := hA x hx
  rcases hp with h0 | h0 | h0 <;> omega

/-- One chunk (R156). -/
theorem State.absorbChunk_spec {c ptr : Nat} (hfit : c + 92 ≤ Config.addressSpace) :
    (s.absorbChunk c ptr).chain c = compressFn (s.chain c) (s.readBytes (ptr + s.pos) 64) ∧
      (s.absorbChunk c ptr).pos = s.pos + 64 ∧ Evolves (fun a => c ≤ a ∧ a < c + 16) s (s.absorbChunk c ptr) :=
  ⟨by rw [State.absorbChunk, State.chain_setPos, State.compress_chain]; rfl, rfl,
    (Evolves.compress (fun _ h1 h2 => ⟨h1, h2⟩) (by omega)).trans (Evolves.setPos _)⟩

/-- Stage 2: S chained over the chunks, nothing but S written (R156). -/
theorem State.absorbChunks_spec {c ptr n : Nat} (hfit : c + 92 ≤ Config.addressSpace) (hp : ClearOf c (ptr + s.pos) (64 * n)) :
    (s.absorbChunks c ptr n).chain c = chainBlocks n (s.chain c) (s.readBytes (ptr + s.pos) (64 * n)) ∧
      (s.absorbChunks c ptr n).pos = s.pos + 64 * n ∧
      Evolves (fun a => c ≤ a ∧ a < c + 16) s (s.absorbChunks c ptr n) := by
  induction n generalizing s with
  | zero =>
    exact ⟨rfl, rfl, Evolves.refl⟩
  | succ n ih =>
    obtain ⟨g1, g2, g3⟩ := s.absorbChunk_spec (ptr := ptr) hfit
    have hp' : ClearOf c (ptr + (s.pos + 64)) (64 * n) := by
      unfold ClearOf at hp ⊢; omega
    obtain ⟨h1, h2, h3⟩ := ih (s.absorbChunk c ptr) (by rwa [g2])
    rw [State.absorbChunks]
    refine ⟨?_, by rw [h2, g2]; omega, g3.trans h3⟩
    rw [h1, g1, g2, readBytes_span g3 hp' (fun a ha => ⟨ha.1, by omega⟩), chainBlocks, State.readBytes_take _ _ _ _ (by omega),
      State.readBytes_drop, show 64 * (n + 1) - 64 = 64 * n by omega, Nat.add_assoc]

/-- Stage 1: the filled buffer is compressed (R155). -/
theorem State.absorbFill_spec {c ptr : Nat} (hfit : c + 92 ≤ Config.addressSpace) (hf : s.fill ≤ 64) :
    (s.absorbFill c ptr).chain c = compressFn (s.chain c) (s.buffer c 0 s.fill ++ s.readBytes ptr (64 - s.fill)) ∧
      (s.absorbFill c ptr).pos = 64 - s.fill ∧ Evolves (chainOrBuffer c) s (s.absorbFill c ptr) := by
  have hb : Evolves (chainOrBuffer c) s (s.setBuffer c s.fill (s.readBytes ptr (64 - s.fill))) := by
    refine Evolves.writeBytes (fun x h1 h2 => Or.inr ?_) ?_ <;>
      simp only [bufferOffset, Config.headerBytes, State.readBytes_length] at * <;> omega
  refine ⟨?_, rfl, (hb.trans (Evolves.compress (fun x h1 h2 => Or.inl ⟨h1, h2⟩) (by omega))).trans (Evolves.setPos _)⟩
  rw [State.absorbFill, State.chain_setPos, State.compressBuffer, State.compress_chain]
  congr 1
  · exact State.chain_congr (State.readBytes_writeBytes_apart _ (by simp only [bufferOffset, Config.headerBytes]; omega))
  · exact State.readBytes_writeBytes_append s (by simp only [State.readBytes_length, Config.blockBytes]; omega)

/-- The stages of ABSORB: S is chained over the whole blocks that the buffered bytes and the span make together, and the bytes after them stand
at the start of the buffer (R152, R155 to R157). -/
theorem State.absorbStages_spec {c ptr len : Nat} (hfit : c + 92 ≤ Config.addressSpace) (hf : s.fill < 64) (h0 : s.pos = 0)
    (hp : ClearOf c ptr len) :
    (s.absorbStages c ptr len).chain c =
        chainBlocks ((s.fill + len) / 64) (s.chain c) (s.buffer c 0 s.fill ++ s.readBytes ptr len) ∧
      (s.absorbStages c ptr len).buffer c 0 ((s.fill + len) % 64) =
        (s.buffer c 0 s.fill ++ s.readBytes ptr len).drop (64 * ((s.fill + len) / 64)) ∧
      Evolves (chainOrBuffer c) s (s.absorbStages c ptr len) := by
  have hbl : ∀ i, (s.buffer c 0 i).length = i := fun i => State.readBytes_length s _ i
  by_cases hpart : s.fill > 0 ∧ len < 64 - s.fill
  · -- no block is completed
    have heq : s.absorbStages c ptr len = s.absorbPartial c ptr len := by
      exact if_pos hpart
    have hdiv : (s.fill + len) / 64 = 0 := by omega
    rw [heq, hdiv, Nat.mod_eq_of_lt (by omega)]
    refine ⟨?_, ?_, ?_⟩
    · exact State.chain_congr (State.readBytes_writeBytes_apart _ (by simp only [bufferOffset, Config.headerBytes]; omega))
    · exact State.readBytes_writeBytes_append s (by simp)
    · refine Evolves.writeBytes (fun x h1 h2 => Or.inr ?_) ?_ <;>
        simp only [bufferOffset, Config.headerBytes, State.readBytes_length] at * <;> omega
  · -- stage 1 (when the buffer is not empty), then chunks, then the rest
    have hstage1 : ∃ t : State, ∃ j, t = (if s.fill > 0 then s.absorbFill c ptr else s) ∧
        t.pos ≤ len ∧ s.fill + t.pos = 64 * j ∧
        t.chain c = chainBlocks j (s.chain c) (s.buffer c 0 s.fill ++ s.readBytes ptr t.pos) ∧
        Evolves (chainOrBuffer c) s t := by
      by_cases hz : s.fill > 0
      · obtain ⟨h1, h2, h3⟩ := s.absorbFill_spec (ptr := ptr) hfit hf.le
        refine ⟨_, 1, (if_pos hz).symm, by omega, by omega, ?_, h3⟩
        rw [h1, h2, chainBlocks_one]
        rw [List.length_append, hbl, State.readBytes_length]
        omega
      · have hz' : s.fill = 0 := by omega
        refine ⟨_, 0, (if_neg hz).symm, by omega, by omega, ?_, Evolves.refl⟩
        rfl
    obtain ⟨t, j, ht, hpos, hj, hchain, hev⟩ := hstage1
    have heq : s.absorbStages c ptr len =
        (t.absorbChunks c ptr ((len - t.pos) / 64)).absorbRest c ptr len := by
      rw [ht]
      exact if_neg hpart
    generalize hn : (len - t.pos) / 64 = n at heq
    have hclear : ClearOf c (ptr + t.pos) (64 * n) := by unfold ClearOf at hp ⊢; omega
    obtain ⟨k1, k2, k3⟩ := t.absorbChunks_spec hfit hclear
    have hev2 : Evolves (chainOrBuffer c) s (t.absorbChunks c ptr n) := hev.trans (k3.mono fun a ha => Or.inl ha)
    have hspan : ∀ i m, i + m ≤ len → (t.absorbChunks c ptr n).readBytes (ptr + i) m = s.readBytes (ptr + i) m := by
      intro i m him
      refine readBytes_span hev2 (c := c) ?_ (fun a ha => by unfold chainOrBuffer at ha; omega)
      unfold ClearOf at hp ⊢; omega
    have hspan1 : ∀ i m, i + m ≤ len → t.readBytes (ptr + i) m = s.readBytes (ptr + i) m := by
      intro i m him
      refine readBytes_span hev (c := c) ?_ (fun a ha => by unfold chainOrBuffer at ha; omega)
      unfold ClearOf at hp ⊢; omega
    have hdiv : (s.fill + len) / 64 = j + n := by omega
    have hmod : (s.fill + len) % 64 = len - (t.pos + 64 * n) := by omega
    have hsplit : s.buffer c 0 s.fill ++ s.readBytes ptr len =
        (s.buffer c 0 s.fill ++ s.readBytes ptr t.pos) ++
          (s.readBytes (ptr + t.pos) (64 * n) ++ s.readBytes (ptr + (t.pos + 64 * n)) (len - (t.pos + 64 * n))) := by
      have h1 := State.readBytes_add s ptr t.pos (len - t.pos)
      have h2 := State.readBytes_add s (ptr + t.pos) (64 * n) (len - (t.pos + 64 * n))
      rw [show t.pos + (len - t.pos) = len by omega] at h1
      rw [show 64 * n + (len - (t.pos + 64 * n)) = len - t.pos by omega, Nat.add_assoc] at h2
      rw [h1, h2, List.append_assoc]
    have hlen1 : (s.buffer c 0 s.fill ++ s.readBytes ptr t.pos).length = 64 * j := by
      rw [List.length_append, hbl, State.readBytes_length]; omega
    have hrest : Evolves (chainOrBuffer c) (t.absorbChunks c ptr n) ((t.absorbChunks c ptr n).absorbRest c ptr len) := by
      refine Evolves.writeBytes (fun x h1 h2 => Or.inr ?_) ?_ <;>
        simp only [bufferOffset, Config.headerBytes, State.readBytes_length, k2] at * <;> omega
    rw [heq, hdiv, hmod]
    refine ⟨?_, ?_, hev2.trans hrest⟩
    · rw [State.absorbRest, State.setBuffer, State.chain_congr (State.readBytes_writeBytes_apart _ (by
          simp only [bufferOffset, Config.headerBytes]; omega)), k1, hchain, chainBlocks_add, hsplit,
        chainBlocks_append (show 64 * j ≤ (s.buffer c 0 s.fill ++ s.readBytes ptr t.pos).length from hlen1.ge), List.drop_left' hlen1,
        chainBlocks_append (show 64 * n ≤ (s.readBytes (ptr + t.pos) (64 * n)).length by simp), hspan1 _ _ (by omega)]
    · rw [hsplit, Nat.mul_add, ← List.drop_drop, List.drop_left' hlen1, List.drop_left' (by simp), State.absorbRest, State.setBuffer, State.buffer, State.readBytes_writeBytes_same _ (by simp [k2]), k2, hspan _ _ (by omega)]

/-- The stages over an empty span do nothing (R158 a). -/
theorem State.absorbStages_zero {c ptr : Nat} (hf : s.fill < 64) (h0 : s.pos = 0) : s.absorbStages c ptr 0 = s := by
  have hnil : ∀ i, s.setBuffer c i [] = s := fun i => State.writeBytes_nil s _
  by_cases hz : s.fill > 0
  · rw [State.absorbStages, if_pos ⟨hz, by simp only [Config.blockBytes]; omega⟩, State.absorbPartial, State.readBytes, hnil]
  · rw [State.absorbStages, if_neg (fun h => hz h.1), if_neg hz]
    simp only [h0, Nat.zero_sub, Nat.zero_div, State.absorbChunks, State.absorbRest, State.readBytes, hnil]

/-! ### The whole command -/

/-- The addresses ABSORB may write: S, CNT and BUF, never BASE (R27, R61). -/
def absorbWrites (c a : Nat) : Prop := (c ≤ a ∧ a < c + 24) ∨ (c + 28 ≤ a ∧ a < c + 92)

/-- The state after the opening of ABSORB: the counter updated, S, BUF and the span as they were. -/
theorem State.absorbOpen_spec {c : Nat} (len : Word) (hfit : c + 92 ≤ Config.addressSpace) :
    (s.absorbOpen c len).count c = countAfter (s.count c) len ∧ (s.absorbOpen c len).fill = fillOf (s.count c) ∧
      (s.absorbOpen c len).pos = 0 ∧ Evolves (fun a => c + 16 ≤ a ∧ a < c + 24) s (s.absorbOpen c len) := by
  refine ⟨?_, by simp [State.absorbOpen, State.setCount], by simp [State.absorbOpen], ((Evolves.setFill _).trans (Evolves.writeBytes ?_ ?_)).trans (Evolves.setPos _)⟩
  · rw [State.absorbOpen, State.count_setPos, State.count_setCount]
  · intro x h1 h2; simp only [countOffset, le64_length] at h1 h2; omega
  · simp only [countOffset, le64_length]; omega

/-- ABSORB: everything it does to the context and to memory (R152 to R158). -/
theorem State.absorbSpan_spec {ctx ptr len : Word} (hfit : ctx.toNat + 92 ≤ Config.addressSpace)
    (hp : ClearOf ctx.toNat ptr.toNat len.toNat) :
    (s.absorbSpan ctx ptr len).chain ctx.toNat =
        chainBlocks ((fillOf (s.count ctx.toNat) + len.toNat) / 64) (s.chain ctx.toNat)
          (s.buffer ctx.toNat 0 (fillOf (s.count ctx.toNat)) ++ s.readBytes ptr.toNat len.toNat) ∧
      (s.absorbSpan ctx ptr len).count ctx.toNat = countAfter (s.count ctx.toNat) len ∧
      (s.absorbSpan ctx ptr len).buffer ctx.toNat 0 ((fillOf (s.count ctx.toNat) + len.toNat) % 64) =
        (s.buffer ctx.toNat 0 (fillOf (s.count ctx.toNat)) ++ s.readBytes ptr.toNat len.toNat).drop
          (64 * ((fillOf (s.count ctx.toNat) + len.toNat) / 64)) ∧
      Evolves (absorbWrites ctx.toNat) s (s.absorbSpan ctx ptr len) ∧
      (len = 0 → Evolves (fun a => ctx.toNat + 16 ≤ a ∧ a < ctx.toNat + 24) s (s.absorbSpan ctx ptr len)) := by
  generalize hc : ctx.toNat = c at *
  generalize hf : fillOf (s.count c) = f
  have hf64 : f < 64 := hf ▸ fillOf_lt _
  obtain ⟨o1, o2, o3, o4⟩ := s.absorbOpen_spec len hfit
  rw [hf] at o2
  obtain ⟨g1, g2, g3⟩ := (s.absorbOpen c len).absorbStages_spec hfit (by omega) o3 hp
  have gu := fun (h : len.toNat = 0) => h ▸ (s.absorbOpen c len).absorbStages_zero (c := c) (ptr := ptr.toNat) (by omega) o3
  rw [o2] at g1 g2
  have hbuf : (s.absorbOpen c len).buffer c 0 f = s.buffer c 0 f :=
    o4.readBytes fun x h1 h2 => by simp only [bufferOffset, Config.headerBytes] at h1; omega
  have hspan : (s.absorbOpen c len).readBytes ptr.toNat len.toNat = s.readBytes ptr.toNat len.toNat :=
    readBytes_span o4 hp fun a ha => by omega
  have hchain : (s.absorbOpen c len).chain c = s.chain c := o4.chain fun x h1 h2 => by omega
  rw [hbuf, hspan, hchain] at g1
  rw [hbuf, hspan] at g2
  generalize hu : (s.absorbOpen c len).absorbStages c ptr.toNat len.toNat = u at g1 g2 g3 gu
  have hcount : u.count c = countAfter (s.count c) len := by
    rw [← o1]
    exact g3.count fun x h1 h2 => by unfold chainOrBuffer; omega
  have hsu : Evolves (absorbWrites c) s u :=
    (o4.mono fun a ha => Or.inl ⟨by omega, by omega⟩).trans (g3.mono fun a ha => by
      unfold chainOrBuffer at ha; omega)
  -- the free bytes above the new fill level
  have hform : s.absorbSpan ctx ptr len =
      (if len = 0 then u
        else u.forgetBytes (c + bufferOffset + (f + len.toNat) % 64) (64 - (f + len.toNat) % 64)).forgetInternal := by
    rw [State.absorbSpan, hc, hf, ← hu]
    rfl
  have hmod : (f + len.toNat) % 64 < 64 := Nat.mod_lt _ (by omega)
  generalize (f + len.toNat) % 64 = r at *
  have hfree : Evolves (fun a => c + 28 + r ≤ a ∧ a < c + 92) u
      (if len = 0 then u else u.forgetBytes (c + bufferOffset + r) (64 - r)).forgetInternal := by
    refine Evolves.trans ?_ Evolves.forgetInternal
    split
    · exact Evolves.refl
    · refine Evolves.forgetBytes (fun x h1 h2 => ?_) ?_ <;> simp only [bufferOffset, Config.headerBytes] at * <;> omega
  rw [hform]
  refine ⟨?_, ?_, ?_, hsu.trans (hfree.mono fun a ha => Or.inr ⟨by omega, ha.2⟩), fun ht => ?_⟩
  · rw [← g1]; exact hfree.chain fun x h1 h2 => by omega
  · rw [← hcount]; exact hfree.count fun x h1 h2 => by omega
  · rw [← g2]
    exact hfree.readBytes fun x h1 h2 => by simp only [bufferOffset, Config.headerBytes] at h1 h2; omega
  · rw [if_pos ht, gu (by rw [ht]; rfl)]
    exact o4.trans Evolves.forgetInternal

end Sys2Proof.Machine
end

