-- ==== Sys2Proof/Laws/Final.lean ====
section
/-! SUPPORT. INIT and FINAL: what they do to the context, the digest and the rest of memory (spec/42_context_engine.md R151, R160 to R163). -/

namespace Sys2Proof.Machine

variable (s : State)

/-! ### INIT -/

/-- INIT leaves the magic words, a zero counter and a zero buffer, and writes the context region only (R151, R61). -/
theorem State.initMemory_spec {c : Nat} (hfit : c + 92 ≤ Config.addressSpace) :
    (s.initMemory c).chain c = magicWords ∧ (s.initMemory c).count c = 0 ∧
      (s.initMemory c).buffer c 0 64 = List.replicate 64 0 ∧ Evolves (fun a => c ≤ a ∧ a < c + 92) s (s.initMemory c) := by
  have e1 : Evolves (fun a => c ≤ a ∧ a < c + 16) s (s.setChain c magicWords) :=
    Evolves.writeBytes (fun x h1 h2 => ⟨h1, h2⟩) (by rw [quadBytes_length]; omega)
  generalize hu : s.setChain c magicWords = u at e1
  have e2 : Evolves (fun a => c + 16 ≤ a ∧ a < c + 24) u (u.setCount c 0) :=
    Evolves.writeBytes (fun x h1 h2 => ⟨h1, h2⟩) (by rw [le64_length, countOffset]; omega)
  generalize hv : u.setCount c 0 = v at e2
  have e3 : Evolves (fun a => c + 28 ≤ a ∧ a < c + 92) v (v.setBuffer c 0 (List.replicate 64 0)) := by
    refine Evolves.writeBytes (fun x h1 h2 => ?_) ?_ <;>
      simp only [bufferOffset, Config.headerBytes, List.length_replicate] at * <;> omega
  generalize hw : v.setBuffer c 0 (List.replicate 64 0) = w at e3
  have e4 : Evolves (fun a => c + 24 ≤ a ∧ a < c + 28) w (w.forgetBytes (c + baseOffset) 4) := by
    refine Evolves.forgetBytes (fun x h1 h2 => ?_) ?_ <;> simp only [baseOffset] at * <;> omega
  have heq : s.initMemory c = w.forgetBytes (c + baseOffset) 4 := by
    rw [← hw, ← hv, ← hu]; rfl
  rw [heq]
  refine ⟨?_, ?_, ?_, ?_⟩
  · rw [e4.chain fun x h1 h2 => by omega, e3.chain fun x h1 h2 => by omega, e2.chain fun x h1 h2 => by omega, ← hu]
    exact State.chain_setChain s c magicWords
  · rw [e4.count fun x h1 h2 => by omega, e3.count fun x h1 h2 => by omega, ← hv]
    exact State.count_setCount u c 0
  · have h4 : (w.forgetBytes (c + baseOffset) 4).buffer c 0 64 = w.buffer c 0 64 :=
      e4.readBytes fun x h1 h2 => by simp only [bufferOffset, Config.headerBytes] at h1 h2; omega
    rw [h4, ← hw]
    exact State.readBytes_writeBytes_same v (by simp)
  · exact (((e1.mono fun a ha => ⟨ha.1, by omega⟩).trans (e2.mono fun a ha => ⟨by omega, by omega⟩)).trans
      (e3.mono fun a ha => ⟨by omega, by omega⟩)).trans (e4.mono fun a ha => ⟨by omega, by omega⟩)

/-! ### FINAL -/

/-- The padding as FINAL forms it, from the fill level `f` and the latched count `v` (R160). -/
def padOf (f : Nat) (v : Double) : List Byte := 0x80 :: (List.replicate ((55 + 64 - f) % 64) 0 ++ le64 v)

/-- The number of final blocks: two when fewer than 9 bytes of the last one are left (R160). -/
def finalBlocks (f : Nat) : Nat := if f ≥ 56 then 2 else 1

theorem padOf_fills {f : Nat} (v : Double) (hf : f < 64) : f + (padOf f v).length = 64 * finalBlocks f := by
  simp only [padOf, finalBlocks, List.length_cons, List.length_append, List.length_replicate, le64_length]
  split <;> omega

theorem setBuffer_evolves {c i : Nat} {bs : List Byte} (hfit : c + 92 ≤ Config.addressSpace) (h : i + bs.length ≤ 64) :
    Evolves (chainOrBuffer c) s (s.setBuffer c i bs) := by
  refine Evolves.writeBytes (fun x h1 h2 => Or.inr ?_) ?_ <;> simp only [bufferOffset, Config.headerBytes] at * <;> omega

theorem chain_setBuffer (c i : Nat) (bs : List Byte) : (s.setBuffer c i bs).chain c = s.chain c :=
  State.chain_congr (State.readBytes_writeBytes_apart s (by simp only [bufferOffset, Config.headerBytes]; omega))

theorem buffer_setBuffer {c i n : Nat} {bs : List Byte} (h : i + bs.length = n) :
    (s.setBuffer c i bs).buffer c 0 n = s.buffer c 0 i ++ bs :=
  State.readBytes_writeBytes_append s h

theorem buffer_setBuffer_zero {c n : Nat} {bs : List Byte} (h : bs.length = n) : (s.setBuffer c 0 bs).buffer c 0 n = bs :=
  State.readBytes_writeBytes_same s h

/-- BUF is clear of the 16 bytes COMPRESS writes. -/
theorem buffer_compress (c i n : Nat) (block : List Byte) : (s.compress c block).buffer c i n = s.buffer c i n :=
  State.readBytes_congr fun j hj => State.readByte_compress_of_outside s block (by
    simp only [bufferOffset, Config.headerBytes]; omega)

theorem compressBuffer_evolves {c : Nat} (hfit : c + 92 ≤ Config.addressSpace) : Evolves (chainOrBuffer c) s (s.compressBuffer c) :=
  Evolves.compress (fun x h1 h2 => Or.inl ⟨h1, h2⟩) (by omega)

@[simp] theorem setBuffer_fill (c i : Nat) (bs : List Byte) : (s.setBuffer c i bs).fill = s.fill := State.writeBytes_fill s _ bs
@[simp] theorem setBuffer_total (c i : Nat) (bs : List Byte) : (s.setBuffer c i bs).total = s.total := State.writeBytes_total s _ bs

/-- With the mark at BUF[fill] and no room for the length: one block more is compressed, and the next is zeros so far. -/
theorem State.padTwo_spec {c : Nat} (hfit : c + 92 ≤ Config.addressSpace) (hf : s.fill < 64) :
    (s.padTwo c).chain c = compressFn (s.chain c) (s.buffer c 0 (s.fill + 1) ++ List.replicate (63 - s.fill) 0) ∧
      (s.padTwo c).buffer c 0 56 = List.replicate 56 0 ∧ (s.padTwo c).total = s.total ∧
      Evolves (chainOrBuffer c) s (s.padTwo c) := by
  have h2 := setBuffer_evolves s (i := s.fill + 1) (bs := List.replicate (63 - s.fill) 0) hfit (by simp; omega)
  have b2 := buffer_setBuffer s (c := c) (i := s.fill + 1) (n := 64) (bs := List.replicate (63 - s.fill) 0) (by simp; omega)
  have c2 := chain_setBuffer s c (s.fill + 1) (List.replicate (63 - s.fill) 0)
  have t2 := setBuffer_total s c (s.fill + 1) (List.replicate (63 - s.fill) 0)
  rw [State.padTwo]
  generalize s.setBuffer c (s.fill + 1) (List.replicate (63 - s.fill) 0) = v at h2 b2 c2 t2
  have h3 := compressBuffer_evolves v hfit
  have c3 : (v.compressBuffer c).chain c = compressFn (v.chain c) (v.buffer c 0 64) := by
    rw [State.compressBuffer, State.compress_chain]; rfl
  have t3 : (v.compressBuffer c).total = v.total := by rw [State.compressBuffer, State.compress_total]
  generalize v.compressBuffer c = w at h3 c3 t3
  refine ⟨?_, buffer_setBuffer_zero w rfl, ?_, (h2.trans h3).trans (setBuffer_evolves w hfit (by simp))⟩
  · rw [chain_setBuffer, c3, b2, c2]
  · rw [setBuffer_total, t3, t2]

/-- With room for the length: zeros up to it. -/
theorem State.padOne_spec {c : Nat} (hfit : c + 92 ≤ Config.addressSpace) (hf : s.fill < 56) :
    (s.padOne c).chain c = s.chain c ∧
      (s.padOne c).buffer c 0 56 = s.buffer c 0 (s.fill + 1) ++ List.replicate (55 - s.fill) 0 ∧ (s.padOne c).total = s.total ∧
      Evolves (chainOrBuffer c) s (s.padOne c) := by
  rw [State.padOne]
  exact ⟨chain_setBuffer s c _ _, buffer_setBuffer s (by simp; omega), setBuffer_total s c _ _,
    setBuffer_evolves s hfit (by simp; omega)⟩

/-- The length field and the last COMPRESS. -/
theorem State.finalLength_spec {c : Nat} (hfit : c + 92 ≤ Config.addressSpace) :
    (s.finalLength c).chain c = compressFn (s.chain c) (s.buffer c 0 56 ++ le64 s.total) ∧
      Evolves (chainOrBuffer c) s (s.finalLength c) := by
  have h := setBuffer_evolves s (i := 56) (bs := le64 s.total) hfit (by simp)
  have b := buffer_setBuffer s (c := c) (i := 56) (n := 64) (bs := le64 s.total) rfl
  have k := chain_setBuffer s c 56 (le64 s.total)
  rw [State.finalLength]
  generalize s.setBuffer c 56 (le64 s.total) = y at h b k
  refine ⟨?_, h.trans (compressBuffer_evolves y hfit)⟩
  rw [State.compressBuffer, State.compress_chain, show Config.blockBytes = 64 from rfl, b, k]

/-- Padding and length: the buffered bytes and the padding, as one or two blocks, go through COMPRESS (R160, R161). -/
theorem State.finalPad_spec {c : Nat} (hfit : c + 92 ≤ Config.addressSpace) (hf : s.fill < 64) :
    ((s.finalPad c).finalLength c).chain c =
        chainBlocks (finalBlocks s.fill) (s.chain c) (s.buffer c 0 s.fill ++ padOf s.fill s.total) ∧
      Evolves (chainOrBuffer c) s ((s.finalPad c).finalLength c) := by
  have h1 : Evolves (chainOrBuffer c) s (s.setBuffer c s.fill [0x80]) := setBuffer_evolves s hfit (by simp; omega)
  have b1 : (s.setBuffer c s.fill [0x80]).buffer c 0 (s.fill + 1) = s.buffer c 0 s.fill ++ [0x80] := buffer_setBuffer s rfl
  have c1 := chain_setBuffer s c s.fill [0x80]
  have f1 := setBuffer_fill s c s.fill [0x80]
  have t1 := setBuffer_total s c s.fill [0x80]
  have hbl : (s.buffer c 0 s.fill).length = s.fill := State.readBytes_length s _ _
  rw [State.finalPad]
  generalize s.setBuffer c s.fill [0x80] = u at h1 b1 c1 f1 t1
  by_cases hcase : s.fill ≥ 56
  · -- two final blocks
    obtain ⟨g1, g2, g3, g4⟩ := u.padTwo_spec hfit (by omega)
    obtain ⟨k1, k2⟩ := (u.padTwo c).finalLength_spec hfit
    rw [f1, if_pos hcase]
    refine ⟨?_, (h1.trans g4).trans k2⟩
    have hl : (s.buffer c 0 s.fill ++ [0x80] ++ List.replicate (63 - s.fill) (0 : Byte)).length = 64 := by
      simp only [List.length_append, hbl, List.length_replicate, List.length_singleton]; omega
    have hsplit : s.buffer c 0 s.fill ++ padOf s.fill s.total =
        (s.buffer c 0 s.fill ++ [0x80] ++ List.replicate (63 - s.fill) 0) ++ (List.replicate 56 0 ++ le64 s.total) := by
      rw [padOf, show (55 + 64 - s.fill) % 64 = (63 - s.fill) + 56 by omega, List.replicate_add]
      simp only [List.append_assoc, List.cons_append, List.nil_append]
    rw [k1, g1, g2, g3, f1, t1, b1, c1, show finalBlocks s.fill = 1 + 1 by simp [finalBlocks, hcase], hsplit, chainBlocks_add,
      chainBlocks_append (show 64 * 1 ≤ _ from hl.ge), List.drop_left' (by omega), chainBlocks_one _ hl, chainBlocks_one _ (by simp)]
  · -- one final block
    obtain ⟨g1, g2, g3, g4⟩ := u.padOne_spec hfit (by omega)
    obtain ⟨k1, k2⟩ := (u.padOne c).finalLength_spec hfit
    rw [f1, if_neg hcase]
    refine ⟨?_, (h1.trans g4).trans k2⟩
    have hsplit : s.buffer c 0 s.fill ++ padOf s.fill s.total =
        s.buffer c 0 s.fill ++ [0x80] ++ List.replicate (55 - s.fill) 0 ++ le64 s.total := by
      rw [padOf, show (55 + 64 - s.fill) % 64 = 55 - s.fill by omega]
      simp only [List.append_assoc, List.cons_append, List.nil_append]
    rw [k1, g1, g2, g3, f1, t1, b1, c1, show finalBlocks s.fill = 1 by simp [finalBlocks, hcase], hsplit, chainBlocks_one]
    simp only [List.length_append, hbl, List.length_replicate, List.length_singleton, le64_length]
    omega

/-- The addresses FINAL may write: S, CNT, BUF and the digest region, never BASE (R27, R61). -/
def finalWrites (c out a : Nat) : Prop := absorbWrites c a ∨ (out ≤ a ∧ a < out + 16)

/-- FINAL: the final state in S, its 16 bytes at `out`, nothing else written but CNT and BUF (R161, R163, R28). -/
theorem State.finalMemory_spec {c out : Nat} (hfit : c + 92 ≤ Config.addressSpace) (hout : out + 16 ≤ Config.addressSpace)
    (hap : out + 16 ≤ c ∨ c + 92 ≤ out) :
    (s.finalMemory c out).chain c =
        chainBlocks (finalBlocks (fillOf (s.count c))) (s.chain c)
          (s.buffer c 0 (fillOf (s.count c)) ++ padOf (fillOf (s.count c)) (s.count c)) ∧
      (s.finalMemory c out).readBytes out 16 = quadBytes ((s.finalMemory c out).chain c) ∧
      Evolves (finalWrites c out) s (s.finalMemory c out) := by
  have h0 : Evolves (chainOrBuffer c) s (s.finalOpen c) := (Evolves.setFill _).trans (Evolves.setTotal _)
  obtain ⟨g1, g2⟩ := (s.finalOpen c).finalPad_spec hfit (fillOf_lt _)
  have g1' : (((s.finalOpen c).finalPad c).finalLength c).chain c =
      chainBlocks (finalBlocks (fillOf (s.count c))) (s.chain c)
        (s.buffer c 0 (fillOf (s.count c)) ++ padOf (fillOf (s.count c)) (s.count c)) := by
    rw [g1, show (s.finalOpen c).chain c = s.chain c from State.chain_congr (State.readBytes_congr fun _ _ => rfl),
      show (s.finalOpen c).fill = fillOf (s.count c) from rfl, show (s.finalOpen c).total = s.count c from rfl,
      show (s.finalOpen c).buffer c 0 (fillOf (s.count c)) = s.buffer c 0 (fillOf (s.count c)) from
        State.readBytes_congr fun _ _ => rfl]
  have hu : Evolves (chainOrBuffer c) s (((s.finalOpen c).finalPad c).finalLength c) := h0.trans g2
  rw [State.finalMemory]
  generalize ((s.finalOpen c).finalPad c).finalLength c = u at g1' hu ⊢
  have h3 : Evolves (fun a => out ≤ a ∧ a < out + 16) u (u.writeDigest c out) :=
    Evolves.writeBytes (fun x h1 h2 => ⟨h1, h2⟩) (by rw [quadBytes_length]; exact hout)
  have d3 : (u.writeDigest c out).readBytes out 16 = quadBytes (u.chain c) := State.readBytes_writeBytes_same u rfl
  have c3 : (u.writeDigest c out).chain c = u.chain c := h3.chain fun x h1 h2 => by omega
  simp only [Config.blockBytes]
  generalize u.writeDigest c out = v at h3 d3 c3 ⊢
  have h4 : Evolves (fun a => c + 16 ≤ a ∧ a < c + 24) v (v.forgetBytes (c + countOffset) 8) := by
    refine Evolves.forgetBytes (fun x h1 h2 => ?_) ?_ <;> simp only [countOffset] at * <;> omega
  have h5 : Evolves (fun a => c + 28 ≤ a ∧ a < c + 92) (v.forgetBytes (c + countOffset) 8)
      ((v.forgetBytes (c + countOffset) 8).forgetBytes (c + bufferOffset) 64) := by
    refine Evolves.forgetBytes (fun x h1 h2 => ?_) ?_ <;> simp only [bufferOffset, Config.headerBytes] at * <;> omega
  have h45 : Evolves (fun a => c + 16 ≤ a ∧ a < c + 92 ∧ (a < c + 24 ∨ c + 28 ≤ a)) v
      ((v.forgetBytes (c + countOffset) 8).forgetBytes (c + bufferOffset) 64) :=
    (h4.mono fun a ha => ⟨ha.1, by omega, Or.inl ha.2⟩).trans (h5.mono fun a ha => ⟨by omega, ha.2, Or.inr ha.1⟩)
  have hch : ((v.forgetBytes (c + countOffset) 8).forgetBytes (c + bufferOffset) 64).chain c = u.chain c := by
    rw [h45.chain fun x h1 h2 => by omega, c3]
  refine ⟨hch.trans g1', ?_, ?_⟩
  · refine Eq.trans ?_ (congrArg quadBytes hch.symm)
    rw [← d3]
    exact h45.readBytes fun x h1 h2 => by omega
  · refine ((hu.mono fun a ha => Or.inl ?_).trans (h3.mono fun a ha => Or.inr ha)).trans (h45.mono fun a ha => Or.inl ?_)
    · unfold chainOrBuffer at ha; unfold absorbWrites; omega
    · unfold absorbWrites; omega

end Sys2Proof.Machine
end

