-- ==== Sys2Proof/Laws/Operands.lean ====
section
/-! SUPPORT. What the operand checks of a command say when they pass (spec/60_exceptions.md R191). -/

namespace Sys2Proof.Machine

variable (s : State)

theorem Region.overlaps_eq_false {r q : Region} :
    r.overlaps q = false ↔ r.size = 0 ∨ q.size = 0 ∨ q.base + q.size ≤ r.base ∨ r.base + r.size ≤ q.base := by
  simp only [Region.overlaps, Bool.and_eq_false_iff, decide_eq_false_iff_not]
  omega

theorem Region.overlaps_comm (r q : Region) : r.overlaps q = q.overlaps r := by
  rw [Bool.eq_iff_iff]
  simp only [Region.overlaps, Bool.and_eq_true, decide_eq_true_eq]
  omega

theorem Region.holds_eq_false {r : Region} {a : Nat} : r.holds a = false ↔ a < r.base ∨ r.base + r.size ≤ a := by
  simp only [Region.holds, Bool.and_eq_false_iff, decide_eq_false_iff_not]
  omega

theorem Region.holds_iff {r : Region} {a : Nat} : r.holds a = true ↔ r.base ≤ a ∧ a < r.base + r.size := by
  simp only [Region.holds, Bool.and_eq_true, decide_eq_true_eq]

/-- A run of bytes is Valid when each of them is (R62). -/
theorem State.validFrom_iff (a n : Nat) : s.validFrom a n = true ↔ ∀ i, i < n → s.validByte (a + i) = true := by
  induction n generalizing a with
  | zero => simp [State.validFrom]
  | succ n ih =>
    rw [State.validFrom, Bool.and_eq_true, ih]
    constructor
    · rintro ⟨h0, h⟩ i hi
      cases i with
      | zero => exact h0
      | succ j => rw [show a + (j + 1) = a + 1 + j by omega]; exact h j (by omega)
    · intro h
      refine ⟨h 0 (by omega), fun i hi => ?_⟩
      rw [show a + 1 + i = a + (i + 1) by omega]
      exact h (i + 1) (by omega)

theorem State.validRegion_iff (r : Region) :
    s.validRegion r = true ↔ r.base + r.size ≤ Config.addressSpace ∧ ∀ i, i < r.size → s.validByte (r.base + i) = true := by
  rw [State.validRegion, Bool.and_eq_true, decide_eq_true_eq, State.validFrom_iff]

theorem Option.or_eq_none_iff' {α : Type} {x y : Option α} : x.or y = none ↔ x = none ∧ y = none := by
  cases x <;> simp

theorem State.checkContext_eq_none (ctx : Word) :
    s.checkContext ctx = none ↔ isAligned Config.ctxAlign ctx = true ∧ s.validRegion (contextRegion ctx) = true := by
  rw [State.checkContext]
  split_ifs with h1 h2 <;> simp_all

theorem State.checkPhase_eq_none (ctx : Word) : s.checkPhase ctx = none ↔ s.phaseOf ctx.toNat = .active := by
  rw [State.checkPhase]
  split <;> simp_all

theorem State.checkOther_eq_none (ctx : Word) (align : Nat) (ref : Word) (r : Region) :
    s.checkOther ctx align ref r = none ↔
      isAligned align ref = true ∧ s.validRegion r = true ∧ (contextRegion ctx).overlaps r = false := by
  rw [State.checkOther]
  split_ifs with h1 h2 h3 <;> simp_all

/-- A reference with alignment 1 is aligned (R63: DATA_ALIGN, DIGEST_ALIGN). -/
@[simp] theorem isAligned_one (r : Word) : isAligned 1 r = true := by
  simp [isAligned, Nat.mod_one]

/-- ABSORB runs exactly when the phase is Active, the context region aligned and valid, and the span, unless empty, valid and clear of the
context (R153). -/
theorem State.checkAbsorb_eq_none (ctx ptr len : Word) :
    s.checkAbsorb ctx ptr len = none ↔
      (isAligned Config.ctxAlign ctx = true ∧ s.validRegion (contextRegion ctx) = true) ∧ s.phaseOf ctx.toNat = .active ∧
        (len = 0 ∨ s.validRegion (spanRegion ptr len) = true ∧ (contextRegion ctx).overlaps (spanRegion ptr len) = false) := by
  simp only [State.checkAbsorb, Option.or_eq_none_iff', State.checkContext_eq_none, State.checkPhase_eq_none]
  have hd : isAligned Config.dataAlign ptr = true := isAligned_one ptr
  by_cases h : len = 0
  · simp [h]
  · rw [if_neg h, State.checkOther_eq_none]
    simp only [hd, h, true_and, false_or]

/-- FINAL runs exactly when the phase is Active, the context region aligned and valid, and the digest region valid and clear of the context
(R161). -/
theorem State.checkFinal_eq_none (ctx out : Word) :
    s.checkFinal ctx out = none ↔
      (isAligned Config.ctxAlign ctx = true ∧ s.validRegion (contextRegion ctx) = true) ∧ s.phaseOf ctx.toNat = .active ∧
        s.validRegion (digestRegion out) = true ∧ (contextRegion ctx).overlaps (digestRegion out) = false := by
  have hd : isAligned Config.digestAlign out = true := isAligned_one out
  simp only [State.checkFinal, Option.or_eq_none_iff', State.checkContext_eq_none, State.checkPhase_eq_none, State.checkOther_eq_none, hd,
    true_and]

/-- A guarded command answers a next state exactly when its check passes. -/
theorem guarded_eq_next {o : Option Refusal} {t u : State} : guarded o t = .next u ↔ o = none ∧ t = u := by
  cases o <;> simp [guarded]

end Sys2Proof.Machine
end

