-- ==== Sys2Proof/Laws/Phases.lean ====
section
/-! SUPPORT. The phases of the contexts: what reading one gives after each update, and that every update keeps the canonical form. -/

namespace Sys2Proof.Machine

variable (s : State)

/-- Removing entries by address. -/
theorem Sparse.get?_filter_key {α : Type} (p : Nat → Bool) (l : List (Nat × α)) (a : Nat) :
    Sparse.get? (l.filter fun e => p e.1) a = if p a then Sparse.get? l a else none := by
  induction l with
  | nil => simp [Sparse.get?]
  | cons e rest ih =>
    obtain ⟨b, v⟩ := e
    by_cases hb : p b
    · rw [List.filter_cons_of_pos (by exact hb), Sparse.get?, Sparse.get?, ih]
      by_cases hab : a = b
      · subst hab; simp [hb]
      · simp [hab]
    · rw [List.filter_cons_of_neg (by exact hb), Sparse.get?, ih]
      by_cases hab : a = b
      · subst hab; simp [hb]
      · simp [hab]

@[simp] theorem State.phaseOf_setPhase_same (c : Nat) (p : Phase) : (s.setPhase c p).phaseOf c = p := by
  simp [State.phaseOf, State.setPhase]

theorem State.phaseOf_setPhase_other {c x : Nat} (p : Phase) (h : x ≠ c) : (s.setPhase c p).phaseOf x = s.phaseOf x := by
  simp [State.phaseOf, State.setPhase, Sparse.get?_set_other _ _ h]

/-- A context whose region the bytes meet is Uninitialized, every other as before (R217). -/
theorem State.phaseOf_retire (r : Region) (x : Nat) :
    (s.retire r).phaseOf x = if (contextAt x).overlaps r then .uninitialized else s.phaseOf x := by
  have := Sparse.get?_filter_key (fun c => !(contextAt c).overlaps r) s.phases x
  rw [State.phaseOf, State.phaseOf, State.retire, State.setPhases_phases, this]
  cases (contextAt x).overlaps r <;> simp

theorem Phases.wf_filter {ps : Phases} (f : Nat × Phase → Bool) (h : Phases.wf ps = true) : Phases.wf (ps.filter f) = true := by
  rw [Phases.wf, Bool.and_eq_true, List.all_eq_true] at h ⊢
  exact ⟨Sparse.rises_filter f ps 0 h.1, fun e he => h.2 e (List.mem_of_mem_filter he)⟩

theorem Sparse.mem_of_mem_set {α : Type} {l : List (Nat × α)} {a : Nat} {v : α} {e : Nat × α} (h : e ∈ Sparse.set l a v) :
    e = (a, v) ∨ e ∈ l := by
  induction l with
  | nil => simpa [Sparse.set] using h
  | cons x rest ih =>
    obtain ⟨b, w⟩ := x
    rw [Sparse.set] at h
    split_ifs at h with h1 h2
    · simpa using h
    · rcases List.mem_cons.1 h with h | h
      · exact .inl h
      · exact .inr (List.mem_cons_of_mem _ h)
    · rcases List.mem_cons.1 h with h | h
      · exact .inr (h ▸ List.mem_cons_self)
      · exact (ih h).imp id (List.mem_cons_of_mem _)

theorem Phases.wf_set {ps : Phases} {c : Nat} {p : Phase} (hc : c < Config.addressSpace) (hp : p ≠ .uninitialized)
    (h : Phases.wf ps = true) : Phases.wf (Sparse.set ps c p) = true := by
  rw [Phases.wf, Bool.and_eq_true, List.all_eq_true] at h ⊢
  refine ⟨Sparse.rises_set hc p ps 0 (Nat.zero_le c) h.1, fun e he => ?_⟩
  rcases Sparse.mem_of_mem_set he with rfl | he
  · simpa using hp
  · exact h.2 e he

end Sys2Proof.Machine
end

