-- ==== Sys2Proof/Laws/Ready.lean ====
section
/-! SUPPORT. The preconditions as the rules give them (Safety.lean, Ready) and the checks the machine makes say the same. -/

namespace Sys2Proof.Machine

variable (s : State)

theorem backed_iff (a : Nat) : Backed s a ↔ s.validByte a = true := by
  simp [Backed, State.validByte, Region.holds]

theorem regionValid_iff (a n : Nat) : RegionValid s a n ↔ s.validRegion ⟨a, n⟩ = true := by
  rw [State.validRegion_iff, RegionValid]
  simp only [backed_iff, Config.addressSpace]

theorem noCommonByte_iff {a n b m : Nat} (hn : 0 < n) :
    NoCommonByte a n b m ↔ (⟨a, n⟩ : Region).overlaps ⟨b, m⟩ = false := by
  rw [Region.overlaps_eq_false]
  simp only
  constructor
  · intro h
    by_contra hc
    have := h (max a b)
    omega
  · intro h x hx
    omega

theorem contextReady_iff (ctx : Word) : ContextReady s ctx ↔ s.checkContext ctx = none := by
  rw [State.checkContext_eq_none, ContextReady, regionValid_iff]
  simp [isAligned, Config.ctxAlign, contextRegion, contextAt, Config.contextBytes]

theorem ready_init (ctx : Word) : Ready s (.init ctx) ↔ s.checkInit ctx = none := contextReady_iff s ctx

theorem ready_absorb (ctx ptr len : Word) : Ready s (.absorb ctx ptr len) ↔ s.checkAbsorb ctx ptr len = none := by
  rw [State.checkAbsorb_eq_none, ← State.checkContext_eq_none, ← contextReady_iff, spanRegion, ← regionValid_iff, contextRegion, contextAt,
    Config.contextBytes, ← noCommonByte_iff (by omega)]
  rfl

theorem ready_final (ctx out : Word) : Ready s (.final ctx out) ↔ s.checkFinal ctx out = none := by
  rw [State.checkFinal_eq_none, ← State.checkContext_eq_none, ← contextReady_iff, digestRegion, ← regionValid_iff, contextRegion, contextAt,
    Config.contextBytes, ← noCommonByte_iff (by omega)]
  rfl

theorem ready_iff_check (i : Instr) : Ready s i ↔ s.check i = none := by
  cases i <;> first | exact ready_init s _ | exact ready_absorb s _ _ _ | exact ready_final s _ _ | simp [Ready, State.check]

/-! ### What they give in sums -/

theorem ContextReady.fits {s : State} {ctx : Word} (h : ContextReady s ctx) : ctx.toNat + 92 ≤ Config.addressSpace := h.2.1

theorem SpanReady.clear {s : State} {ctx ptr len : Word} (h : SpanReady s ctx ptr len) :
    ClearOf ctx.toNat ptr.toNat len.toNat := by
  rcases h with h | ⟨-, h⟩
  · exact .inl (by simp [h])
  · rw [noCommonByte_iff (by omega), Region.overlaps_eq_false] at h
    simp only at h
    unfold ClearOf
    omega

theorem DigestReady.apart {s : State} {ctx out : Word} (h : DigestReady s ctx out) :
    out.toNat + 16 ≤ ctx.toNat ∨ ctx.toNat + 92 ≤ out.toNat := by
  have h := h.2
  rw [noCommonByte_iff (by omega), Region.overlaps_eq_false] at h
  simp only at h
  omega

theorem DigestReady.fits {s : State} {ctx out : Word} (h : DigestReady s ctx out) : out.toNat + 16 ≤ Config.addressSpace := h.1.1

/-- The preconditions read the platform's parameters and the phases, nothing else. -/
theorem Ready.congr {s t : State} {i : Instr} (hp : t.platform = s.platform) (hph : ∀ c, t.phaseOf c = s.phaseOf c) (h : Ready s i) :
    Ready t i := by
  cases i <;> simp only [Ready, ContextReady, SpanReady, DigestReady, RegionValid, Backed, hp, hph] at h ⊢ <;> exact h

end Sys2Proof.Machine
end

