-- ==== Sys2Proof/Laws/Commands.lean ====
section
/-! SUPPORT. The three commands as exec runs them: for each, everything the next state holds. -/

namespace Sys2Proof.Machine

/-- From `s` to `t` only memory at addresses in `A`, the phases, the engine's internal registers and the count of draws have changed, and
memory has stayed in canonical form. -/
structure Commits (A : Nat → Prop) (s t : State) : Prop where
  byte : ∀ a, ¬ A a → t.readByte a = s.readByte a
  wf : Memory.wf s.mem = true → Memory.wf t.mem = true
  epoch : t.epoch = s.epoch
  platform : t.platform = s.platform
  inFlight : t.inFlight = s.inFlight
  pending : t.pending = s.pending
  hostData : t.hostData = s.hostData

variable {s t u : State} {A B : Nat → Prop}

theorem Evolves.commits (h : Evolves A s t) : Commits A s t :=
  ⟨h.byte, h.wf, h.epoch, h.platform, h.inFlight, h.pending, h.hostData⟩

theorem Commits.mono (h : Commits A s t) (hAB : ∀ a, A a → B a) : Commits B s t :=
  { h with byte := fun a ha => h.byte a fun hA => ha (hAB a hA) }

theorem Commits.setPhases (h : Commits A s t) (p : Phases) : Commits A s (t.setPhases p) :=
  ⟨h.byte, h.wf, h.epoch, h.platform, h.inFlight, h.pending, h.hostData⟩

theorem Commits.retire (h : Commits A s t) (r : Region) : Commits A s (t.retire r) := h.setPhases _

theorem Commits.setPhase (h : Commits A s t) (c : Nat) (p : Phase) : Commits A s (t.setPhase c p) := h.setPhases _

theorem Commits.forgetInternal (h : Commits A s t) : Commits A s t.forgetInternal :=
  ⟨h.byte, h.wf, h.epoch, h.platform, h.inFlight, h.pending, h.hostData⟩

theorem Commits.readBytes (h : Commits A s t) {a n : Nat} (ha : ∀ x, a ≤ x → x < a + n → ¬ A x) :
    t.readBytes a n = s.readBytes a n :=
  State.readBytes_congr fun i hi => h.byte _ (ha _ (by omega) (by omega))

theorem Commits.chain (h : Commits A s t) {c : Nat} (ha : ∀ x, c ≤ x → x < c + 16 → ¬ A x) : t.chain c = s.chain c :=
  State.chain_congr (h.readBytes ha)

theorem Commits.count (h : Commits A s t) {c : Nat} (ha : ∀ x, c + 16 ≤ x → x < c + 24 → ¬ A x) : t.count c = s.count c :=
  State.count_congr (h.readBytes fun x h1 h2 => ha x h1 (by simp only [countOffset] at h2; omega))

theorem Commits.buffer (h : Commits A s t) {c i n : Nat} (ha : ∀ x, c + 28 + i ≤ x → x < c + 28 + i + n → ¬ A x) :
    t.buffer c i n = s.buffer c i n :=
  h.readBytes fun x h1 h2 => ha x (by simp only [bufferOffset, Config.headerBytes] at h1; omega)
    (by simp only [bufferOffset, Config.headerBytes] at h2; omega)

variable (s)

/-! ### INIT -/

theorem exec_init {ctx : Word} (h : ContextReady s ctx) : exec (.init ctx) s = .next (s.initContext ctx) :=
  guarded_eq_next.2 ⟨(ready_init s ctx).1 h, rfl⟩

/-- What INIT leaves (R151, R64). -/
theorem State.initContext_spec {ctx : Word} (h : ContextReady s ctx) :
    (s.initContext ctx).chain ctx.toNat = magicWords ∧ (s.initContext ctx).count ctx.toNat = 0 ∧
      (s.initContext ctx).buffer ctx.toNat 0 64 = List.replicate 64 0 ∧
      (∀ x, (s.initContext ctx).phaseOf x =
        if x = ctx.toNat then .active else if (contextAt x).overlaps (contextAt ctx.toNat) then .uninitialized else s.phaseOf x) ∧
      Commits (fun a => ctx.toNat ≤ a ∧ a < ctx.toNat + 92) s (s.initContext ctx) := by
  obtain ⟨h1, h2, h3, h4⟩ := s.initMemory_spec h.fits
  refine ⟨?_, ?_, ?_, fun x => ?_, (h4.commits.retire _).setPhase _ _⟩
  · rw [← h1, State.initContext, State.chain_setPhase, State.chain_retire]
  · rw [← h2, State.initContext, State.count_setPhase, State.count_retire]
  · rw [← h3, State.initContext, State.buffer, State.readBytes_setPhase, State.readBytes_retire]; rfl
  · rw [State.initContext]
    by_cases hx : x = ctx.toNat
    · rw [if_pos hx, hx, State.phaseOf_setPhase_same]
    · rw [if_neg hx, State.phaseOf_setPhase_other _ _ hx, State.phaseOf_retire, State.phaseOf, h4.phases]
      rfl

theorem SameInternal.writeBytes {s t : State} (h : SameInternal s t) (a : Nat) (bs : List Byte) : SameInternal s (t.writeBytes a bs) := by
  simpa only [SameInternal, State.writeBytes_work, State.writeBytes_msg, State.writeBytes_k, State.writeBytes_pos, State.writeBytes_fill,
    State.writeBytes_total] using h

/-- INIT leaves the working, message and scheduler registers alone (R39). -/
theorem State.initContext_internal (ctx : Word) : SameInternal s (s.initContext ctx) := by
  have h0 : SameInternal s s := ⟨rfl, rfl, rfl, rfl, rfl, rfl⟩
  have h : SameInternal s (s.initMemory ctx.toNat) :=
    (((h0.writeBytes _ (quadBytes magicWords)).writeBytes _ (le64 0)).writeBytes _ (List.replicate 64 0)).writeBytes _ _
  exact h

/-! ### ABSORB -/

theorem exec_absorb {ctx ptr len : Word} (h : Ready s (.absorb ctx ptr len)) :
    exec (.absorb ctx ptr len) s = .next (s.absorbSpan ctx ptr len) :=
  guarded_eq_next.2 ⟨(ready_absorb s ctx ptr len).1 h, rfl⟩

/-! ### FINAL -/

theorem exec_final {ctx out : Word} (h : Ready s (.final ctx out)) : exec (.final ctx out) s = .next (s.finalContext ctx out) :=
  guarded_eq_next.2 ⟨(ready_final s ctx out).1 h, rfl⟩

/-- What FINAL leaves (R161, R163, R28). -/
theorem State.finalContext_spec {ctx out : Word} (h : Ready s (.final ctx out)) :
    (s.finalContext ctx out).chain ctx.toNat =
        chainBlocks (finalBlocks (fillOf (s.count ctx.toNat))) (s.chain ctx.toNat)
          (s.buffer ctx.toNat 0 (fillOf (s.count ctx.toNat)) ++ padOf (fillOf (s.count ctx.toNat)) (s.count ctx.toNat)) ∧
      (s.finalContext ctx out).readBytes out.toNat 16 = quadBytes ((s.finalContext ctx out).chain ctx.toNat) ∧
      (∀ x, (s.finalContext ctx out).phaseOf x =
        if x = ctx.toNat then .finalized else if (contextAt x).overlaps (digestRegion out) then .uninitialized else s.phaseOf x) ∧
      Commits (finalWrites ctx.toNat out.toNat) s (s.finalContext ctx out) := by
  obtain ⟨hc, -, hd⟩ := h
  obtain ⟨h1, h2, h3⟩ := s.finalMemory_spec hc.fits hd.fits hd.apart
  have hch : (s.finalContext ctx out).chain ctx.toNat = (s.finalMemory ctx.toNat out.toNat).chain ctx.toNat := by
    rw [State.finalContext, State.chain_forgetInternal, State.chain_setPhase, State.chain_retire]
  refine ⟨hch.trans h1, ?_, fun x => ?_, ((h3.commits.retire _).setPhase _ _).forgetInternal⟩
  · rw [hch, ← h2, State.finalContext, State.readBytes_forgetInternal, State.readBytes_setPhase, State.readBytes_retire]
  · have hp : (s.finalContext ctx out).phaseOf x =
        (((s.finalMemory ctx.toNat out.toNat).retire (digestRegion out)).setPhase ctx.toNat .finalized).phaseOf x := by
      rw [State.finalContext, State.phaseOf, State.phaseOf, State.forgetInternal_phases]
    rw [hp]
    by_cases hx : x = ctx.toNat
    · rw [if_pos hx, hx, State.phaseOf_setPhase_same]
    · rw [if_neg hx, State.phaseOf_setPhase_other _ _ hx, State.phaseOf_retire, State.phaseOf, h3.phases]
      rfl

/-! ### What a context represents, through the commands (R26) -/

theorem Represents.fill {s : State} {c : Nat} {msg : List Byte} (h : Represents s c msg) : fillOf (s.count c) = msg.length % 64 := by
  rw [h.2.1, fillOf_bitLength]

theorem Represents.congr {s t : State} {c : Nat} {msg : List Byte} (h : Represents s c msg)
    (hb : ∀ x, c ≤ x → x < c + 92 → t.readByte x = s.readByte x) : Represents t c msg := by
  have hr : ∀ i n, i + n ≤ 92 → t.readBytes (c + i) n = s.readBytes (c + i) n := fun i n hin =>
    State.readBytes_congr fun j hj => hb _ (by omega) (by omega)
  refine ⟨(State.chain_congr (hr 0 16 (by omega))).trans h.1, (State.count_congr (hr countOffset 8 (by decide))).trans h.2.1, ?_⟩
  have := hr bufferOffset (msg.length % 64) (by simp only [bufferOffset, Config.headerBytes]; omega)
  exact (this : t.buffer c 0 _ = _).trans h.2.2

theorem represents_nil {s : State} {c : Nat} (h1 : s.chain c = magicWords) (h2 : s.count c = 0) : Represents s c [] :=
  ⟨by rw [h1]; rfl, by rw [h2]; rfl, rfl⟩

/-- ABSORB appends the span to the message (R152). -/
theorem State.absorbSpan_represents {ctx ptr len : Word} {msg : List Byte} (hc : ContextReady s ctx) (hs : SpanReady s ctx ptr len)
    (h : Represents s ctx.toNat msg) :
    Represents (s.absorbSpan ctx ptr len) ctx.toNat (msg ++ s.readBytes ptr.toNat len.toNat) := by
  obtain ⟨a1, a2, a3, -, -⟩ := s.absorbSpan_spec hc.fits hs.clear
  rw [h.fill] at a1 a3
  rw [h.2.2] at a1 a3
  have hl : (s.readBytes ptr.toNat len.toNat).length = len.toNat := State.readBytes_length s _ _
  refine ⟨?_, ?_, ?_⟩
  · rw [a1, h.1, chainOf_append, hl]
  · rw [a2, h.2.1, countAfter_bitLength, List.length_append, hl]
  · rw [List.length_append, hl, ← Nat.mod_add_mod, a3, tailOf_append, hl]

/-- FINAL leaves the chaining value of the padded message (R160, R164). -/
theorem chainOf_padded (msg : List Byte) :
    chainOf (padded msg) =
      chainBlocks (finalBlocks (msg.length % 64)) (chainOf msg)
        (tailOf msg ++ padOf (msg.length % 64) (bitLength msg.length)) := by
  have hp : padding msg.length = padOf (msg.length % 64) (bitLength msg.length) := rfl
  have hf := padOf_fills (bitLength msg.length) (Nat.mod_lt msg.length (show 64 > 0 by omega))
  rw [padded, chainOf_append, hp, hf, Nat.mul_div_cancel_left _ (by omega)]

theorem State.finalContext_digest {ctx out : Word} {msg : List Byte} (h : Ready s (.final ctx out)) (hr : Represents s ctx.toNat msg) :
    (s.finalContext ctx out).chain ctx.toNat = chainOf (padded msg) ∧ (s.finalContext ctx out).readBytes out.toNat 16 = md5 msg := by
  obtain ⟨h1, h2, -, -⟩ := s.finalContext_spec h
  rw [hr.fill, hr.2.2, hr.1, hr.2.1, ← chainOf_padded] at h1
  exact ⟨h1, by rw [h2, h1, md5]⟩

end Sys2Proof.Machine
end

