-- ==== Sys2Proof/Laws/Decode.lean ====
section
/-! SUPPORT. The fields of a descriptor as numbers, and the descriptor as bytes (spec/30_encoding.md R81). -/

namespace Sys2Proof

theorem Descriptor.op_toNat (d : Descriptor) : d.op.toNat = d.w0.toNat % 4 := by
  simp [Descriptor.op, BitVec.extractLsb'_toNat]

theorem Descriptor.rsv_eq_zero (d : Descriptor) : d.rsv = 0 ↔ d.w0.toNat / 4 = 0 := by
  have := d.w0.isLt
  rw [← BitVec.toNat_inj, Descriptor.rsv, BitVec.extractLsb'_toNat, Nat.shiftRight_eq_div_pow]
  simp only [BitVec.ofNat_eq_ofNat, BitVec.toNat_ofNat, Nat.zero_mod]
  omega

/-- The 16 bytes of a descriptor are read back as that descriptor, whatever follows. -/
theorem takeDescriptor_bytes (d : Descriptor) (rest : List Byte) : takeDescriptor (d.bytes ++ rest) = some (d, rest) := by
  obtain ⟨a, b, c, e⟩ := d
  simp [Descriptor.bytes, le32, takeDescriptor, wordLE_wordByte]

/-- What is read as a descriptor is that descriptor's bytes. -/
theorem bytes_of_takeDescriptor {bs rest : List Byte} {d : Descriptor} (h : takeDescriptor bs = some (d, rest)) :
    bs = d.bytes ++ rest := by
  unfold takeDescriptor at h
  split at h
  · injection h with h
    injection h with h1 h2
    subst h1; subst h2
    simp [Descriptor.bytes, wordByte_wordLE]
  · cases h

end Sys2Proof
end

