-- ==== Sys2Proof/Laws/Moves.lean ====
section
/-! SUPPORT. What exec and step can do, said once: an operation whose preconditions hold takes its effect, any other is refused; a step of the
machine is one of eight moves. -/

namespace Sys2Proof.Machine

/-- The effect of an operation, apart from its preconditions. -/
def State.effect (s : State) : Instr → State
  | .init ctx => s.initContext ctx
  | .absorb ctx ptr len => s.absorbSpan ctx ptr len
  | .final ctx out => s.finalContext ctx out
  | .step00 => s.stepWith mixF 0
  | .step01 => s.stepWith mixF 1
  | .step02 => s.stepWith mixF 2
  | .step03 => s.stepWith mixF 3
  | .step04 => s.stepWith mixF 4
  | .step05 => s.stepWith mixF 5
  | .step06 => s.stepWith mixF 6
  | .step07 => s.stepWith mixF 7
  | .step08 => s.stepWith mixF 8
  | .step09 => s.stepWith mixF 9
  | .step10 => s.stepWith mixF 10
  | .step11 => s.stepWith mixF 11
  | .step12 => s.stepWith mixF 12
  | .step13 => s.stepWith mixF 13
  | .step14 => s.stepWith mixF 14
  | .step15 => s.stepWith mixF 15
  | .step16 => s.stepWith mixG 16
  | .step17 => s.stepWith mixG 17
  | .step18 => s.stepWith mixG 18
  | .step19 => s.stepWith mixG 19
  | .step20 => s.stepWith mixG 20
  | .step21 => s.stepWith mixG 21
  | .step22 => s.stepWith mixG 22
  | .step23 => s.stepWith mixG 23
  | .step24 => s.stepWith mixG 24
  | .step25 => s.stepWith mixG 25
  | .step26 => s.stepWith mixG 26
  | .step27 => s.stepWith mixG 27
  | .step28 => s.stepWith mixG 28
  | .step29 => s.stepWith mixG 29
  | .step30 => s.stepWith mixG 30
  | .step31 => s.stepWith mixG 31
  | .step32 => s.stepWith mixH 32
  | .step33 => s.stepWith mixH 33
  | .step34 => s.stepWith mixH 34
  | .step35 => s.stepWith mixH 35
  | .step36 => s.stepWith mixH 36
  | .step37 => s.stepWith mixH 37
  | .step38 => s.stepWith mixH 38
  | .step39 => s.stepWith mixH 39
  | .step40 => s.stepWith mixH 40
  | .step41 => s.stepWith mixH 41
  | .step42 => s.stepWith mixH 42
  | .step43 => s.stepWith mixH 43
  | .step44 => s.stepWith mixH 44
  | .step45 => s.stepWith mixH 45
  | .step46 => s.stepWith mixH 46
  | .step47 => s.stepWith mixH 47
  | .step48 => s.stepWith mixI 48
  | .step49 => s.stepWith mixI 49
  | .step50 => s.stepWith mixI 50
  | .step51 => s.stepWith mixI 51
  | .step52 => s.stepWith mixI 52
  | .step53 => s.stepWith mixI 53
  | .step54 => s.stepWith mixI 54
  | .step55 => s.stepWith mixI 55
  | .step56 => s.stepWith mixI 56
  | .step57 => s.stepWith mixI 57
  | .step58 => s.stepWith mixI 58
  | .step59 => s.stepWith mixI 59
  | .step60 => s.stepWith mixI 60
  | .step61 => s.stepWith mixI 61
  | .step62 => s.stepWith mixI 62
  | .step63 => s.stepWith mixI 63

variable {s t : State}

/-- exec checks, then takes the effect. -/
theorem exec_eq_guarded (i : Instr) (s : State) : exec i s = guarded (s.check i) (s.effect i) := by
  cases i <;> rfl

theorem exec_eq_next {i : Instr} : exec i s = .next t ↔ Ready s i ∧ t = s.effect i := by
  rw [exec_eq_guarded, guarded_eq_next, ready_iff_check, eq_comm (a := t)]

theorem exec_of_ready {i : Instr} (h : Ready s i) : exec i s = .next (s.effect i) := exec_eq_next.2 ⟨h, rfl⟩

/-- The step of index `n`. -/
theorem exec_stepInstr {n : Nat} (h : n < 64) (s : State) : exec (stepInstr n) s = .next (s.stepWith (mixOf (n / 16)) n) := by
  interval_cases n <;> rfl

/-- The operations with a descriptor are the three commands; all others are steps. -/
theorem command_or_step (i : Instr) :
    (∃ ctx, i = .init ctx) ∨ (∃ ctx ptr len, i = .absorb ctx ptr len) ∨ (∃ ctx out, i = .final ctx out) ∨
      ∃ n, n < 64 ∧ i = stepInstr n := by
  cases i
  case init => exact .inl ⟨_, rfl⟩
  case absorb => exact .inr (.inl ⟨_, _, _, rfl⟩)
  case final => exact .inr (.inr (.inl ⟨_, _, rfl⟩))
  case step00 => exact .inr (.inr (.inr ⟨0, by omega, rfl⟩))
  case step01 => exact .inr (.inr (.inr ⟨1, by omega, rfl⟩))
  case step02 => exact .inr (.inr (.inr ⟨2, by omega, rfl⟩))
  case step03 => exact .inr (.inr (.inr ⟨3, by omega, rfl⟩))
  case step04 => exact .inr (.inr (.inr ⟨4, by omega, rfl⟩))
  case step05 => exact .inr (.inr (.inr ⟨5, by omega, rfl⟩))
  case step06 => exact .inr (.inr (.inr ⟨6, by omega, rfl⟩))
  case step07 => exact .inr (.inr (.inr ⟨7, by omega, rfl⟩))
  case step08 => exact .inr (.inr (.inr ⟨8, by omega, rfl⟩))
  case step09 => exact .inr (.inr (.inr ⟨9, by omega, rfl⟩))
  case step10 => exact .inr (.inr (.inr ⟨10, by omega, rfl⟩))
  case step11 => exact .inr (.inr (.inr ⟨11, by omega, rfl⟩))
  case step12 => exact .inr (.inr (.inr ⟨12, by omega, rfl⟩))
  case step13 => exact .inr (.inr (.inr ⟨13, by omega, rfl⟩))
  case step14 => exact .inr (.inr (.inr ⟨14, by omega, rfl⟩))
  case step15 => exact .inr (.inr (.inr ⟨15, by omega, rfl⟩))
  case step16 => exact .inr (.inr (.inr ⟨16, by omega, rfl⟩))
  case step17 => exact .inr (.inr (.inr ⟨17, by omega, rfl⟩))
  case step18 => exact .inr (.inr (.inr ⟨18, by omega, rfl⟩))
  case step19 => exact .inr (.inr (.inr ⟨19, by omega, rfl⟩))
  case step20 => exact .inr (.inr (.inr ⟨20, by omega, rfl⟩))
  case step21 => exact .inr (.inr (.inr ⟨21, by omega, rfl⟩))
  case step22 => exact .inr (.inr (.inr ⟨22, by omega, rfl⟩))
  case step23 => exact .inr (.inr (.inr ⟨23, by omega, rfl⟩))
  case step24 => exact .inr (.inr (.inr ⟨24, by omega, rfl⟩))
  case step25 => exact .inr (.inr (.inr ⟨25, by omega, rfl⟩))
  case step26 => exact .inr (.inr (.inr ⟨26, by omega, rfl⟩))
  case step27 => exact .inr (.inr (.inr ⟨27, by omega, rfl⟩))
  case step28 => exact .inr (.inr (.inr ⟨28, by omega, rfl⟩))
  case step29 => exact .inr (.inr (.inr ⟨29, by omega, rfl⟩))
  case step30 => exact .inr (.inr (.inr ⟨30, by omega, rfl⟩))
  case step31 => exact .inr (.inr (.inr ⟨31, by omega, rfl⟩))
  case step32 => exact .inr (.inr (.inr ⟨32, by omega, rfl⟩))
  case step33 => exact .inr (.inr (.inr ⟨33, by omega, rfl⟩))
  case step34 => exact .inr (.inr (.inr ⟨34, by omega, rfl⟩))
  case step35 => exact .inr (.inr (.inr ⟨35, by omega, rfl⟩))
  case step36 => exact .inr (.inr (.inr ⟨36, by omega, rfl⟩))
  case step37 => exact .inr (.inr (.inr ⟨37, by omega, rfl⟩))
  case step38 => exact .inr (.inr (.inr ⟨38, by omega, rfl⟩))
  case step39 => exact .inr (.inr (.inr ⟨39, by omega, rfl⟩))
  case step40 => exact .inr (.inr (.inr ⟨40, by omega, rfl⟩))
  case step41 => exact .inr (.inr (.inr ⟨41, by omega, rfl⟩))
  case step42 => exact .inr (.inr (.inr ⟨42, by omega, rfl⟩))
  case step43 => exact .inr (.inr (.inr ⟨43, by omega, rfl⟩))
  case step44 => exact .inr (.inr (.inr ⟨44, by omega, rfl⟩))
  case step45 => exact .inr (.inr (.inr ⟨45, by omega, rfl⟩))
  case step46 => exact .inr (.inr (.inr ⟨46, by omega, rfl⟩))
  case step47 => exact .inr (.inr (.inr ⟨47, by omega, rfl⟩))
  case step48 => exact .inr (.inr (.inr ⟨48, by omega, rfl⟩))
  case step49 => exact .inr (.inr (.inr ⟨49, by omega, rfl⟩))
  case step50 => exact .inr (.inr (.inr ⟨50, by omega, rfl⟩))
  case step51 => exact .inr (.inr (.inr ⟨51, by omega, rfl⟩))
  case step52 => exact .inr (.inr (.inr ⟨52, by omega, rfl⟩))
  case step53 => exact .inr (.inr (.inr ⟨53, by omega, rfl⟩))
  case step54 => exact .inr (.inr (.inr ⟨54, by omega, rfl⟩))
  case step55 => exact .inr (.inr (.inr ⟨55, by omega, rfl⟩))
  case step56 => exact .inr (.inr (.inr ⟨56, by omega, rfl⟩))
  case step57 => exact .inr (.inr (.inr ⟨57, by omega, rfl⟩))
  case step58 => exact .inr (.inr (.inr ⟨58, by omega, rfl⟩))
  case step59 => exact .inr (.inr (.inr ⟨59, by omega, rfl⟩))
  case step60 => exact .inr (.inr (.inr ⟨60, by omega, rfl⟩))
  case step61 => exact .inr (.inr (.inr ⟨61, by omega, rfl⟩))
  case step62 => exact .inr (.inr (.inr ⟨62, by omega, rfl⟩))
  case step63 => exact .inr (.inr (.inr ⟨63, by omega, rfl⟩))

theorem stepInstr_used {n : Nat} (h : n < 64) : usedRegions (stepInstr n) = [] ∧ writtenRegions (stepInstr n) = [] := by
  interval_cases n <;> exact ⟨rfl, rfl⟩

theorem effect_stepInstr {n : Nat} (h : n < 64) (s : State) : s.effect (stepInstr n) = s.stepWith (mixOf (n / 16)) n := by
  interval_cases n <;> rfl

/-- A step writes a, b, c, d and k, and counts a draw when it uses one. -/
theorem State.stepWith_eq (s : State) (mix : Word → Word → Word → Word) (n : Nat) :
    ∃ q k d, s.stepWith mix n = ((s.setWork q).setK k).setDrawn d := by
  rw [State.stepWith, State.advanceIndex]
  split
  · exact ⟨stepQuad mix n s.msg s.work, BitVec.ofNat 6 (n + 1), s.drawn, by simp only [State.setDrawn, State.setK, State.setWork]⟩
  · exact ⟨_, _, _, rfl⟩

theorem commits_stepWith (A : Nat → Prop) (s : State) (mix : Word → Word → Word → Word) (n : Nat) : Commits A s (s.stepWith mix n) := by
  obtain ⟨q, k, d, h⟩ := s.stepWith_eq mix n
  rw [h]
  exact ⟨fun _ _ => rfl, id, rfl, rfl, rfl, rfl, rfl⟩

theorem phaseOf_stepWith (s : State) (mix : Word → Word → Word → Word) (n x : Nat) : (s.stepWith mix n).phaseOf x = s.phaseOf x := by
  obtain ⟨q, k, d, h⟩ := s.stepWith_eq mix n
  rw [h]; rfl

/-! ### The regions of a command -/

/-- Conflict goes both ways. -/
theorem anyOverlap_comm (rs qs : List Region) : anyOverlap rs qs = anyOverlap qs rs := by
  rw [Bool.eq_iff_iff]
  simp only [anyOverlap, List.any_eq_true]
  constructor <;> rintro ⟨r, hr, q, hq, h⟩ <;> exact ⟨q, hq, r, hr, by rwa [Region.overlaps_comm]⟩

theorem conflicts_comm (i j : Instr) : conflicts i j = conflicts j i := by
  rw [conflicts, conflicts, anyOverlap_comm, Bool.or_comm, anyOverlap_comm (usedRegions i)]

theorem anyOverlap_eq_false {rs qs : List Region} : anyOverlap rs qs = false ↔ ∀ r ∈ rs, ∀ q ∈ qs, r.overlaps q = false := by
  simp [anyOverlap]

/-- The addresses an operation may write. -/
def mayWrite (i : Instr) (a : Nat) : Prop := ∃ r ∈ writtenRegions i, r.holds a = true

/-- Every operation writes its own regions only (R61), and of the rest of the state only phases, registers and the count of draws. -/
theorem effect_commits {i : Instr} (h : Ready s i) : Commits (mayWrite i) s (s.effect i) := by
  rcases command_or_step i with ⟨ctx, rfl⟩ | ⟨ctx, ptr, len, rfl⟩ | ⟨ctx, out, rfl⟩ | ⟨n, hn, rfl⟩
  · refine (s.initContext_spec h).2.2.2.2.mono fun a ha => ⟨contextRegion ctx, List.mem_singleton.2 rfl, ?_⟩
    exact Region.holds_iff.2 ha
  · obtain ⟨hc, -, hs⟩ := h
    refine (s.absorbSpan_spec hc.fits hs.clear).2.2.2.1.commits.mono fun a ha => ⟨contextRegion ctx, List.mem_singleton.2 rfl, ?_⟩
    simp only [absorbWrites] at ha
    exact Region.holds_iff.2 (show ctx.toNat ≤ a ∧ a < ctx.toNat + 92 by omega)
  · refine (s.finalContext_spec h).2.2.2.mono fun a ha => ?_
    rcases ha with ha | ha
    · refine ⟨contextRegion ctx, by simp [writtenRegions], ?_⟩
      simp only [absorbWrites] at ha
      exact Region.holds_iff.2 (show ctx.toNat ≤ a ∧ a < ctx.toNat + 92 by omega)
    · refine ⟨digestRegion out, by simp [writtenRegions], ?_⟩
      exact Region.holds_iff.2 ha
  · rw [effect_stepInstr hn]
    exact commits_stepWith _ _ _ _

/-- A context clear of what an operation may write keeps its phase. -/
theorem effect_phase_of_apart {i : Instr} (h : Ready s i) {x : Nat}
    (hx : ∀ r ∈ writtenRegions i, (contextAt x).overlaps r = false) : (s.effect i).phaseOf x = s.phaseOf x := by
  have hself : ∀ ctx : Word, (contextAt x).overlaps (contextRegion ctx) = false → x ≠ ctx.toNat := by
    intro ctx ho he
    rw [he, contextRegion, Region.overlaps_eq_false] at ho
    simp only [contextAt, Config.contextBytes] at ho
    omega
  rcases command_or_step i with ⟨ctx, rfl⟩ | ⟨ctx, ptr, len, rfl⟩ | ⟨ctx, out, rfl⟩ | ⟨n, hn, rfl⟩
  · have h1 := hx (contextRegion ctx) (List.mem_singleton.2 rfl)
    rw [State.effect, (s.initContext_spec h).2.2.2.1, if_neg (hself ctx h1), ← contextRegion, h1]
    rfl
  · rw [State.phaseOf, State.phaseOf, State.effect, (s.absorbSpan_spec h.1.fits h.2.2.clear).2.2.2.1.phases]
  · have h1 := hx (contextRegion ctx) (by simp [writtenRegions])
    have h2 := hx (digestRegion out) (by simp [writtenRegions])
    rw [State.effect, (s.finalContext_spec h).2.2.1, if_neg (hself ctx h1), h2]
    rfl
  · rw [effect_stepInstr hn, phaseOf_stepWith]

/-- An operation leaves the preconditions of one it does not conflict with. -/
theorem Ready.after {i j : Instr} (hi : Ready s i) (hj : Ready s j) (hc : conflicts i j = false) : Ready (s.effect i) j := by
  have hp := (effect_commits hi).platform
  have hph : ∀ ctx : Word, contextRegion ctx ∈ usedRegions j → (s.effect i).phaseOf ctx.toNat = s.phaseOf ctx.toNat := by
    intro ctx hctx
    refine effect_phase_of_apart hi fun r hr => ?_
    rw [conflicts, Bool.or_eq_false_iff, anyOverlap_eq_false] at hc
    rw [← contextRegion, Region.overlaps_comm]
    exact hc.1 r hr _ hctx
  rcases command_or_step j with ⟨ctx, rfl⟩ | ⟨ctx, ptr, len, rfl⟩ | ⟨ctx, out, rfl⟩ | ⟨n, hn, rfl⟩
  · simpa only [Ready, ContextReady, RegionValid, Backed, hp] using hj
  · have := hph ctx (by simp [usedRegions])
    simpa only [Ready, ContextReady, SpanReady, RegionValid, Backed, hp, this] using hj
  · have := hph ctx (by simp [usedRegions])
    simpa only [Ready, ContextReady, DigestReady, RegionValid, Backed, hp, this] using hj
  · interval_cases n <;> trivial

/-! ### The moves -/

/-- What one step of the machine can be. -/
inductive Move (s t : State) : Prop where
  /-- A command, issued and run at once. -/
  | issued (d : Descriptor) (rest : List Input) (i : Instr) (hd : decodeDescriptor d = .ok i) (hp : s.pending = .issue d :: rest)
      (ha : s.admission i = none) (hs : s.hasIdleEngine = true) (hr : Ready (s.setPending rest) i) (ht : t = (s.setPending rest).effect i)
  /-- A command, issued and now in progress. -/
  | started (d : Descriptor) (rest : List Input) (i : Instr) (hd : decodeDescriptor d = .ok i) (hp : s.pending = .start d :: rest)
      (ha : s.admission i = none) (hr : Ready s i) (ht : t = (s.setPending rest).setInFlight (s.inFlight ++ [i]))
  /-- A running command completes; `u` is the state without it.  It is the one named by the next input, or the oldest: when no input is left,
  or when the next input is an issue that waits for an engine. -/
  | completed (n : Nat) (i : Instr) (u : State) (hi : s.running[n]? = some i)
      (hu : (∃ rest, s.pending = .complete n :: rest ∧ u = (s.setPending rest).setInFlight (s.inFlight.eraseIdx n)) ∨
        ((s.pending = [] ∨ (∃ d rest, s.pending = .issue d :: rest) ∧ s.hasIdleEngine = false) ∧ n = 0 ∧
          u = s.setInFlight (s.inFlight.eraseIdx n)))
      (hr : Ready u i) (ht : t = u.effect i)
  /-- A host write. -/
  | wrote (a : Word) (bs : List Byte) (rest : List Input) (hp : s.pending = .write a bs :: rest)
      (hf : a.toNat + bs.length ≤ Config.addressSpace) (hb : s.busyToWrite ⟨a.toNat, bs.length⟩ = false)
      (ht : t = ((s.setPending rest).writeBytes a.toNat bs).retire ⟨a.toNat, bs.length⟩)
  /-- A host read. -/
  | read (a : Word) (n : Nat) (rest : List Input) (hp : s.pending = .read a n :: rest) (hf : a.toNat + n ≤ Config.addressSpace)
      (hb : s.busyToRead ⟨a.toNat, n⟩ = false) (ht : t = (s.setPending rest).setHostData (s.readBytes a.toNat n))
  /-- Hardware reset. -/
  | wasReset (rest : List Input) (hp : s.pending = .reset :: rest) (ht : t = (s.setPending rest).hardReset)
  /-- The sequencer's tick. -/
  | ticked (rest : List Input) (hp : s.pending = .tick :: rest) (ht : t = (s.setPending rest).effect (decodeStep s.k))
  /-- Nothing to do. -/
  | rested (hp : s.pending = []) (hi : s.inFlight = []) (ht : t = s)

/-- Putting the pending inputs back gives the state. -/
theorem State.setPending_self {l m : List Input} (s : State) (h : s.pending = l) : (s.setPending m).setPending l = s := by
  subst h; rfl

/-- The first to run is the first issued. -/
theorem State.running_zero (s : State) : s.running[0]? = s.inFlight[0]? := by
  rw [State.running, List.getElem?_take, if_pos (Nat.succ_pos _)]

/-- A running command is in progress. -/
theorem State.inFlight_of_running {s : State} {n : Nat} {i : Instr} (h : s.running[n]? = some i) : s.inFlight[n]? = some i := by
  rw [State.running, List.getElem?_take] at h
  split_ifs at h
  exact h

/-- What a context is said to hold does not depend on the inputs to come. -/
theorem ContextSound.setPending {c : Nat} {p : Phase} (h : ContextSound s c p) (l : List Input) : ContextSound (s.setPending l) c p := by
  cases p with
  | uninitialized => trivial
  | active => exact h.imp fun msg hr => hr.congr fun _ _ _ => rfl
  | finalized => exact h.imp fun msg hr => (State.chain_setPending s l c).trans hr

/-- Nor does the invariant: a host may hand over any moves. -/
theorem Invariant.setPending (h : Invariant s) (l : List Input) : Invariant (s.setPending l) := by
  obtain ⟨hm, hp, ⟨h1, h2⟩, h3, h4⟩ := h
  exact ⟨hm, hp, ⟨fun e he => ⟨(h1 e he).1, (h1 e he).2.1, (h1 e he).2.2.setPending l⟩, h2⟩, h3, fun i hi =>
    (ready_iff_check _ _).1 (Ready.congr (s := s) rfl (fun _ => rfl) ((ready_iff_check _ _).2 (h4 i hi)))⟩

theorem decodeStep_ready (k : StepIndex) (s : State) : Ready s (decodeStep k) := by
  have h := k.isLt
  rw [decodeStep]
  generalize k.toNat = n at h
  interval_cases n <;> trivial

/-- Every step that is not refused is one of the moves. -/
theorem step_move (h : step s = .next t) : Move s t := by
  rw [step] at h
  split at h
  · next hp =>
    rw [State.idle] at h
    split at h
    · next hi =>
      injection h with h
      exact .rested hp hi h.symm
    · rw [State.complete] at h
      split at h
      · cases h
      · next i hi =>
        obtain ⟨hr, ht⟩ := exec_eq_next.1 h
        exact .completed 0 i _ hi (.inr ⟨.inl hp, rfl, rfl⟩) hr ht
  · next x rest hp =>
    cases x with
    | issue d =>
      simp only [State.take, State.issue] at h
      split at h
      · cases h
      · next i hd =>
        split at h
        · cases h
        · next ha =>
          split at h
          · next hs =>
            obtain ⟨hr, ht⟩ := exec_eq_next.1 h
            exact .issued d rest i hd hp ha hs hr ht
          · next hs =>
            rw [show (s.setPending rest).setPending (.issue d :: (s.setPending rest).pending) = s from s.setPending_self hp] at h
            simp only [State.complete] at h
            split at h
            · cases h
            · next j hj =>
              obtain ⟨hr, ht⟩ := exec_eq_next.1 h
              exact .completed 0 j _ hj (.inr ⟨.inr ⟨⟨d, rest, hp⟩, Bool.eq_false_iff.2 hs⟩, rfl, rfl⟩) hr ht
    | start d =>
      simp only [State.take, State.start] at h
      split at h
      · cases h
      · next i hd =>
        obtain ⟨hc, ht⟩ := guarded_eq_next.1 h
        obtain ⟨ha, hr⟩ := Option.or_eq_none_iff'.1 hc
        exact .started d rest i hd hp ha (Ready.congr (s := s.setPending rest) rfl (fun _ => rfl) ((ready_iff_check _ _).2 hr)) ht.symm
    | complete n =>
      simp only [State.take, State.complete] at h
      split at h
      · cases h
      · next i hi =>
        obtain ⟨hr, ht⟩ := exec_eq_next.1 h
        exact .completed n i _ hi (.inl ⟨rest, hp, rfl⟩) hr ht
    | write a bs =>
      simp only [State.take, State.hostWrite] at h
      split_ifs at h with h1 h2
      injection h with h
      exact .wrote a bs rest hp (by omega) (Bool.eq_false_iff.2 h2) h.symm
    | read a n =>
      simp only [State.take, State.hostRead] at h
      split_ifs at h with h1 h2
      injection h with h
      exact .read a n rest hp (by omega) (Bool.eq_false_iff.2 h2) (by rw [← h, State.readBytes_setPending])
    | reset =>
      simp only [State.take] at h
      injection h with h
      exact .wasReset rest hp h.symm
    | tick =>
      obtain ⟨-, ht⟩ := exec_eq_next.1 h
      exact .ticked rest hp ht

end Sys2Proof.Machine
end

