-- ==== Sys2Proof/Laws/PerInstr.lean ====
section
/-! SUPPORT. The family FixedBits: each instruction's encoding has the fixed bits of its row of spec/opcode_table.json. -/

namespace Sys2Proof.Laws.FixedBits

/-- The fixed value of the row: all 32 bits of W0 for a command (mask 0xFFFFFFFF), the 6-bit index for a step. -/
def rowValue : Instr → Nat
  | .init _ => 0x00000000
  | .absorb _ _ _ => 0x00000001
  | .final _ _ => 0x00000002
  | .step00 => 0
  | .step01 => 1
  | .step02 => 2
  | .step03 => 3
  | .step04 => 4
  | .step05 => 5
  | .step06 => 6
  | .step07 => 7
  | .step08 => 8
  | .step09 => 9
  | .step10 => 10
  | .step11 => 11
  | .step12 => 12
  | .step13 => 13
  | .step14 => 14
  | .step15 => 15
  | .step16 => 16
  | .step17 => 17
  | .step18 => 18
  | .step19 => 19
  | .step20 => 20
  | .step21 => 21
  | .step22 => 22
  | .step23 => 23
  | .step24 => 24
  | .step25 => 25
  | .step26 => 26
  | .step27 => 27
  | .step28 => 28
  | .step29 => 29
  | .step30 => 30
  | .step31 => 31
  | .step32 => 32
  | .step33 => 33
  | .step34 => 34
  | .step35 => 35
  | .step36 => 36
  | .step37 => 37
  | .step38 => 38
  | .step39 => 39
  | .step40 => 40
  | .step41 => 41
  | .step42 => 42
  | .step43 => 43
  | .step44 => 44
  | .step45 => 45
  | .step46 => 46
  | .step47 => 47
  | .step48 => 48
  | .step49 => 49
  | .step50 => 50
  | .step51 => 51
  | .step52 => 52
  | .step53 => 53
  | .step54 => 54
  | .step55 => 55
  | .step56 => 56
  | .step57 => 57
  | .step58 => 58
  | .step59 => 59
  | .step60 => 60
  | .step61 => 61
  | .step62 => 62
  | .step63 => 63

/-- The encoding carries the row's fixed value, and, in a command, zeros in the words its row says must be zero (R81). -/
def Statement (i : Instr) : Prop :=
  match encode i with
  | .command d =>
    d.w0.toNat = rowValue i ∧ (rowValue i = 0 → d.w2 = 0 ∧ d.w3 = 0) ∧ (rowValue i = 2 → d.w3 = 0)
  | .stepIndex k => k.toNat = rowValue i

theorem init (ctx : Word) : Statement (.init ctx) := ⟨rfl, fun _ => ⟨rfl, rfl⟩, fun _ => rfl⟩
theorem absorb (ctx ptr len : Word) : Statement (.absorb ctx ptr len) := ⟨rfl, nofun, nofun⟩
theorem final (ctx out : Word) : Statement (.final ctx out) := ⟨rfl, nofun, fun _ => rfl⟩
theorem step00 : Statement .step00 := rfl
theorem step01 : Statement .step01 := rfl
theorem step02 : Statement .step02 := rfl
theorem step03 : Statement .step03 := rfl
theorem step04 : Statement .step04 := rfl
theorem step05 : Statement .step05 := rfl
theorem step06 : Statement .step06 := rfl
theorem step07 : Statement .step07 := rfl
theorem step08 : Statement .step08 := rfl
theorem step09 : Statement .step09 := rfl
theorem step10 : Statement .step10 := rfl
theorem step11 : Statement .step11 := rfl
theorem step12 : Statement .step12 := rfl
theorem step13 : Statement .step13 := rfl
theorem step14 : Statement .step14 := rfl
theorem step15 : Statement .step15 := rfl
theorem step16 : Statement .step16 := rfl
theorem step17 : Statement .step17 := rfl
theorem step18 : Statement .step18 := rfl
theorem step19 : Statement .step19 := rfl
theorem step20 : Statement .step20 := rfl
theorem step21 : Statement .step21 := rfl
theorem step22 : Statement .step22 := rfl
theorem step23 : Statement .step23 := rfl
theorem step24 : Statement .step24 := rfl
theorem step25 : Statement .step25 := rfl
theorem step26 : Statement .step26 := rfl
theorem step27 : Statement .step27 := rfl
theorem step28 : Statement .step28 := rfl
theorem step29 : Statement .step29 := rfl
theorem step30 : Statement .step30 := rfl
theorem step31 : Statement .step31 := rfl
theorem step32 : Statement .step32 := rfl
theorem step33 : Statement .step33 := rfl
theorem step34 : Statement .step34 := rfl
theorem step35 : Statement .step35 := rfl
theorem step36 : Statement .step36 := rfl
theorem step37 : Statement .step37 := rfl
theorem step38 : Statement .step38 := rfl
theorem step39 : Statement .step39 := rfl
theorem step40 : Statement .step40 := rfl
theorem step41 : Statement .step41 := rfl
theorem step42 : Statement .step42 := rfl
theorem step43 : Statement .step43 := rfl
theorem step44 : Statement .step44 := rfl
theorem step45 : Statement .step45 := rfl
theorem step46 : Statement .step46 := rfl
theorem step47 : Statement .step47 := rfl
theorem step48 : Statement .step48 := rfl
theorem step49 : Statement .step49 := rfl
theorem step50 : Statement .step50 := rfl
theorem step51 : Statement .step51 := rfl
theorem step52 : Statement .step52 := rfl
theorem step53 : Statement .step53 := rfl
theorem step54 : Statement .step54 := rfl
theorem step55 : Statement .step55 := rfl
theorem step56 : Statement .step56 := rfl
theorem step57 : Statement .step57 := rfl
theorem step58 : Statement .step58 := rfl
theorem step59 : Statement .step59 := rfl
theorem step60 : Statement .step60 := rfl
theorem step61 : Statement .step61 := rfl
theorem step62 : Statement .step62 := rfl
theorem step63 : Statement .step63 := rfl

end Sys2Proof.Laws.FixedBits
end

