-- ==== Sys2Proof/Tests/Slice0.lean ====
section
/-! SUPPORT. Tests: the smoke tests of WellFormed; words written out from the encoding tables; single steps, commands and refusals against
spec/95_test_vectors.md (the vector is named in each comment); and, for every statement of Obligations.lean that has hypotheses, a witness
that meets them together. -/

set_option Elab.async false

namespace Sys2Proof.Tests

open Sys2Proof Sys2Proof.Machine

/-! ### Small states -/

/-- The bytes of a context with the given S, CNT and first buffer bytes (R56); BASE is de ad be ef, the rest of BUF 0xee. -/
def contextBytes (q : Quad) (cnt : Double) (buf : List Byte) : List Byte :=
  quadBytes q ++ le64 cnt ++ [0xde, 0xad, 0xbe, 0xef] ++ buf ++ List.replicate (64 - buf.length) 0xee

/-- `s` with a context of the given contents and phase at `c`. -/
def withContext (s : State) (c : Nat) (p : Phase) (q : Quad) (cnt : Double) (buf : List Byte) : State :=
  (s.writeBytes c (contextBytes q cnt buf)).setPhase c p

/-- A fresh Active context at 0x1000, the bytes 61 62 63 at 0x3000. -/
def ready : State := withContext (State.reset.writeBytes 0x3000 [0x61, 0x62, 0x63]) 0x1000 .active magicWords 0 []

/-- An Active context at 0x1000 that holds `n` bytes 61 in its buffer and in its counter (n < 64). -/
def holding (n : Nat) : State :=
  withContext State.reset 0x1000 .active magicWords (BitVec.ofNat 64 (8 * n)) (List.replicate n 0x61)

/-- Two Active contexts, at 0x1000 and 0x2000, and two engines. -/
def pair : State :=
  let s := withContext ready 0x2000 .active magicWords 0 []
  { s with platform := ⟨[⟨0, 2 ^ 32⟩], 1⟩ }

/-- Memory is backed from 0x1000 to 0x3001 only. -/
def narrow : State := { ready with platform := ⟨[⟨0x1000, 0x2002⟩], 0⟩ }

/-- Registers and message words for one step. -/
def registers (a b c d : Word) (m : Vector Word 16) : State := (State.reset.setWork ⟨a, b, c, d⟩).setMsg m

/-- What holds of the next state. -/
def nextIs (o : Host.Outcome State Fault Refusal) (p : State → Bool) : Bool :=
  match o with
  | .next t => p t
  | .fault _ => false
  | .refused _ => false

/-- The operation is refused for this reason. -/
def refusedFor (o : Host.Outcome State Fault Refusal) (r : Refusal) : Bool :=
  match o with
  | .next _ => false
  | .fault _ => false
  | .refused q => q = r

/-! ### WellFormed: one ill-formed term for each check -/

/-- X5. -/
theorem test_wellFormed_aligned : WellFormed.aligned 4 0x1002 = false ∧ (Instr.init 0x1002).wellFormed = false := by decide
/-- X6: the region would end at 0x10000001b; the highest that fits starts at 0xffffffa4. -/
theorem test_wellFormed_fits : (Instr.init 0xffffffc0).wellFormed = false ∧ (Instr.init 0xffffffa4).wellFormed = true := by decide
/-- X7, X8. -/
theorem test_wellFormed_apart : (Instr.absorb 0x1000 0x1040 64).wellFormed = false ∧ (Instr.absorb 0x1000 0x105c 64).wellFormed = true ∧
    (Instr.final 0x1000 0x1050).wellFormed = false ∧ (Instr.final 0x1000 0x105c).wellFormed = true := by decide
/-- A span past the top is ill-formed unless it is empty (R62). -/
theorem test_wellFormed_span : (Instr.absorb 0x1000 0xffffffff 2).wellFormed = false ∧ (Instr.absorb 0x1000 0xffffffff 1).wellFormed = true ∧
    (Instr.absorb 0x1000 0x1000 0).wellFormed = true := by decide

/-! ### Decoding words written out from R81, R82 and R85 -/

/-- L2-D1. -/
theorem test_decode_init :
    decodeBytes [0x00, 0x00, 0x00, 0x00, 0x00, 0x10, 0x00, 0x00, 0x00, 0x00, 0x00, 0x00, 0x00, 0x00, 0x00, 0x00] = .ok (.init 0x1000, []) := by
  decide +kernel
/-- L2-D1, with two bytes after it. -/
theorem test_decode_absorb :
    decodeBytes [0x01, 0x00, 0x00, 0x00, 0x00, 0x10, 0x00, 0x00, 0x00, 0x30, 0x00, 0x00, 0x03, 0x00, 0x00, 0x00, 0xaa, 0xbb] =
      .ok (.absorb 0x1000 0x3000 3, [0xaa, 0xbb]) := by
  decide +kernel
/-- L2-D1. -/
theorem test_decode_final :
    decodeBytes [0x02, 0x00, 0x00, 0x00, 0x00, 0x10, 0x00, 0x00, 0x00, 0x20, 0x00, 0x00, 0x00, 0x00, 0x00, 0x00] =
      .ok (.final 0x1000 0x2000, []) := by
  decide +kernel
/-- X10, X11, X12, and FINAL with a non-zero ARG1. -/
theorem test_decode_reserved :
    decodeDescriptor ⟨3, 0x1000, 0, 0⟩ = .error .reservedOp ∧ decodeDescriptor ⟨4, 0x1000, 0, 0⟩ = .error .reservedBits ∧
      decodeDescriptor ⟨0, 0x1000, 1, 0⟩ = .error .initArgument ∧ decodeDescriptor ⟨2, 0x1000, 0x2000, 1⟩ = .error .finalArgument ∧
      decodeBytes [0, 0, 0, 0] = .error .truncated := by
  decide +kernel
theorem test_decode_steps :
    decodeStep 0b000000 = .step00 ∧ decodeStep 0b001111 = .step15 ∧ decodeStep 0b010000 = .step16 ∧ decodeStep 0b011111 = .step31 ∧
      decodeStep 0b100000 = .step32 ∧ decodeStep 0b101111 = .step47 ∧ decodeStep 0b110000 = .step48 ∧ decodeStep 0b111111 = .step63 := by
  decide
theorem test_tableWords :
    decodeTableWord 32 1 = some (.absorb 0 0 0) ∧ decodeTableWord 128 0x00003000000010000000000000000002 = none ∧
      decodeTableWord 128 0x00000000000020000000100000000002 = some (.final 0x1000 0x2000) ∧ decodeTableWord 8 37 = some .step37 ∧
      decodeTableWord 6 63 = some .step63 ∧ decodeTableWord 8 64 = none := by
  decide +kernel

/-! ### Constants (L2-T2) -/

theorem test_constants_sum : tTable.foldl (· + ·) 0 = 0x27f3a0bc ∧ tTable.foldl (· ^^^ ·) 0 = 0x10e6cc5a ∧ tTable.length = 64 := by decide +kernel

/-! ### Steps -/

/-- A row of L2-S2: k, the registers, the message word, the registers after the step. -/
def stepRowHolds (k : Nat) (a b c d m a' b' c' d' : Word) : Bool :=
  nextIs (exec (stepInstr k) (registers a b c d ((Vector.replicate 16 0xdeadbeef).set (wordIndex k) m))) fun t => t.work = ⟨a', b', c', d'⟩

/-- L2-S2, the rows of FF. -/
theorem test_steps_ff :
    stepRowHolds 0 0x00000000 0x00000000 0x00000000 0x00000000 0x00000000 0x00000000 0xb5523c6b 0x00000000 0x00000000 = true ∧
    stepRowHolds 0 0xffffffff 0xffffffff 0xffffffff 0xffffffff 0xffffffff 0xffffffff 0xb5523aea 0xffffffff 0xffffffff = true ∧
    stepRowHolds 0 0x67452301 0xefcdab89 0x98badcfe 0x10325476 0x00000080 0x10325476 0xa5202774 0xefcdab89 0x98badcfe = true ∧
    stepRowHolds 0 0x28955b88 0x00000000 0x12345678 0x9abcdef0 0x00000000 0x9abcdef0 0x5e6f784d 0x00000000 0x12345678 = true ∧
    stepRowHolds 3 0x00000000 0x00000000 0x00000000 0x00000000 0x3e423112 0x00000000 0x00000000 0x00000000 0x00000000 = true := by
  decide +kernel
/-- L2-S2, the rows of GG. -/
theorem test_steps_gg :
    stepRowHolds 16 0x00000000 0x00000000 0x00000000 0x00000000 0x00000000 0x00000000 0xc3c4ac5e 0x00000000 0x00000000 = true ∧
    stepRowHolds 16 0xffffffff 0xffffffff 0xffffffff 0xffffffff 0xffffffff 0xffffffff 0xc3c4abfd 0xffffffff 0xffffffff = true ∧
    stepRowHolds 16 0x00000001 0xffff0000 0x12345678 0x00ffff00 0x00000002 0x00ffff00 0x23a3bba1 0xffff0000 0x12345678 = true := by
  decide +kernel
/-- L2-S2, the rows of HH. -/
theorem test_steps_hh :
    stepRowHolds 32 0x00000000 0x00000000 0x00000000 0x00000000 0x00000000 0x00000000 0xffa3942f 0x00000000 0x00000000 = true ∧
    stepRowHolds 32 0xffffffff 0xffffffff 0xffffffff 0xffffffff 0xffffffff 0xffffffff 0xffa393fe 0xffffffff 0xffffffff = true ∧
    stepRowHolds 32 0x00000001 0xffff0000 0x12345678 0x00ffff00 0x00000002 0x00ffff00 0xd2ed2bde 0xffff0000 0x12345678 = true := by
  decide +kernel
/-- L2-S2, the rows of II. -/
theorem test_steps_ii :
    stepRowHolds 48 0x00000000 0x00000000 0x00000000 0x00000000 0x00000000 0x00000000 0x0a4890fd 0x00000000 0x00000000 = true ∧
    stepRowHolds 48 0xffffffff 0xffffffff 0xffffffff 0xffffffff 0xffffffff 0xffffffff 0x0a4890bc 0xffffffff 0xffffffff = true ∧
    stepRowHolds 48 0x00000001 0xffff0000 0x12345678 0x00ffff00 0x00000002 0x00ffff00 0x7d1d33b8 0xffff0000 0x12345678 = true ∧
    stepRowHolds 63 0x7246fad3 0x14e45506 0xff4ea3eb 0x6e10a476 0x00000000 0x6e10a476 0x6dfd62ff 0x14e45506 0xff4ea3eb = true := by
  decide +kernel

/-- The trace L2-C1: the word each step computes, in order, after the four the registers start with (a, d, c, b). -/
def traceWords : List Word :=
  [0x67452301, 0x10325476, 0x98badcfe, 0xefcdab89] ++
  [0xa5202774, 0xf59592dd, 0xe7f06b23, 0x1b163203, 0x32033344, 0x2f35d494, 0xf5b158db, 0x9bc13ce9,
   0x3893b991, 0xfce4a312, 0xe1ef0576, 0x70768a29, 0xf56c7cf1, 0x374943a7, 0x5aa53f75, 0xd6819c6a,
   0x1c7d7513, 0x7bd57a3a, 0xc095f13a, 0xbd782e17, 0x3d1e3e6c, 0x68b7b3e3, 0xeb41643e, 0xe422531a,
   0x306ec122, 0xd28c77c2, 0xa3c663da, 0xa0572807, 0x13707036, 0xae7813db, 0x1c31c384, 0xa2205f1f] ++
  [0xdf63eaa1, 0xc3689f5b, 0x12f3e755, 0x004b6669, 0x5f7a9b2e, 0xabc34e16, 0x91ca4cb7, 0xc5dc8c15,
   0x4497169d, 0x76fd93d4, 0xfd95f243, 0x0fe32453, 0x3f55edfd, 0x22a31f54, 0x68d84ea2, 0xca7d2dbd,
   0x93aa2577, 0x1688dc85, 0xcd85b8cb, 0x561e0689, 0x5625a114, 0x3450f42b, 0x392ad0d0, 0x1e77fa61,
   0x474a9c8c, 0xdfce00bc, 0x36594b14, 0x30130182, 0x7246fad3, 0x6e10a476, 0xff4ea3eb, 0x14e45506]

/-- One step of L2-C1: from the four words before it, step k computes the word of row k; M is the padded empty message. -/
def traceRowHolds (k : Nat) : Bool :=
  nextIs (exec (stepInstr k) (registers (traceWords.getD k 0) (traceWords.getD (k + 3) 0) (traceWords.getD (k + 2) 0)
    (traceWords.getD (k + 1) 0) ((Vector.replicate 16 0).set 0 0x80))) fun t => t.work.b = traceWords.getD (k + 4) 0

/-- L2-C1, every step on its own. -/
theorem test_trace_rows : ∀ k, k < 64 → traceRowHolds k = true := by decide +kernel
/-- R32: the step advances k. -/
theorem test_step_advances : nextIs (exec .step05 (registers 1 2 3 4 (Vector.replicate 16 0))) (fun t => t.k = 6) = true := by decide +kernel
/-- A tick runs the step k selects. -/
theorem test_tick : nextIs (step ((State.reset.setK 16).setPending [.tick])) (fun t => t.k = 17 && t.pending = []) = true := by decide +kernel

/-! ### COMPRESS (L2-C0) -/

/-- L2-C0d: a big-endian misreading gives another value. -/
theorem test_compress_rising :
    compressFn magicWords ((List.range 64).map fun i => BitVec.ofNat 8 i) = ⟨0x9144d9ca, 0xd901e4c9, 0x72fc5b38, 0x625ff51e⟩ := by
  decide +kernel
/-- L2-C0c. -/
theorem test_compress_ones :
    compressFn ⟨0xffffffff, 0xffffffff, 0xffffffff, 0xffffffff⟩ (List.replicate 64 0xff) =
      ⟨0x6cba9129, 0x29ffd12a, 0x8b9bb7d3, 0xa9a0a3c1⟩ := by
  decide +kernel

/-! ### Commands -/

/-- L2-E0, over whatever the memory held; BASE is free. -/
theorem test_init :
    nextIs (exec (.init 0x1000) (holding 5)) (fun t => t.readBytes 0x1000 24 =
      [0x01, 0x23, 0x45, 0x67, 0x89, 0xab, 0xcd, 0xef, 0xfe, 0xdc, 0xba, 0x98, 0x76, 0x54, 0x32, 0x10, 0, 0, 0, 0, 0, 0, 0, 0] &&
      t.readBytes 0x101c 64 = List.replicate 64 0 && t.phaseOf 0x1000 = .active) = true := by
  decide +kernel
/-- X14: a second INIT over part of the first context. -/
theorem test_init_overlap :
    nextIs (exec (.init 0x1040) ready) (fun t => t.phaseOf 0x1000 = .uninitialized && t.phaseOf 0x1040 = .active) = true ∧
      nextIs (exec (.init 0x105c) ready) (fun t => t.phaseOf 0x1000 = .active) = true := by
  decide +kernel
/-- R153, the worked example. -/
theorem test_absorb_abc :
    nextIs (exec (.absorb 0x1000 0x3000 3) ready) (fun t => t.count 0x1000 = 24 && t.buffer 0x1000 0 3 = [0x61, 0x62, 0x63] &&
      t.chain 0x1000 = magicWords && t.readBytes 0x1018 4 = [0xde, 0xad, 0xbe, 0xef]) = true := by
  decide +kernel
/-- R158 c with L2-E5: the 64th byte fills the block (61 at 0x3000), which is compressed; the buffer is empty again. -/
theorem test_absorb_fills :
    nextIs (exec (.absorb 0x1000 0x3000 1) ((holding 63).writeBytes 0x3000 [0x61])) (fun t => t.count 0x1000 = 0x200 &&
      t.chain 0x1000 = ⟨0x89d4ff56, 0x125cd962, 0x69cade33, 0x0033e325⟩ && t.fillLevel 0x1000 = 0) = true := by
  decide +kernel
/-- L2-E1: the digest of the empty message. -/
theorem test_final_empty :
    nextIs (exec (.final 0x1000 0x2000) ready) (fun t => t.readBytes 0x2000 16 =
      [0xd4, 0x1d, 0x8c, 0xd9, 0x8f, 0x00, 0xb2, 0x04, 0xe9, 0x80, 0x09, 0x98, 0xec, 0xf8, 0x42, 0x7e] && t.phaseOf 0x1000 = .finalized) =
      true := by
  decide +kernel
/-- L2-E3: 56 bytes, two final blocks. -/
theorem test_final_two_blocks :
    nextIs (exec (.final 0x1000 0x2000) (holding 56)) (fun t => t.readBytes 0x2000 16 =
      [0x3b, 0x0c, 0x8a, 0xc7, 0x03, 0xf8, 0x28, 0xb0, 0x4c, 0x6c, 0x19, 0x70, 0x06, 0xd1, 0x72, 0x18]) = true := by
  decide +kernel

/-! ### Refusals (section 4 of the vectors) and host moves -/

/-- X1, X2 from reset; X3, X4 on a finalized context. -/
theorem test_refused_phases :
    refusedFor (exec (.absorb 0x1000 0x3000 3) State.reset) .uninitializedContext = true ∧
      refusedFor (exec (.final 0x1000 0x2000) State.reset) .uninitializedContext = true ∧
      refusedFor (exec (.absorb 0x1000 0x3000 3) (ready.setPhase 0x1000 .finalized)) .finalizedContext = true ∧
      refusedFor (exec (.final 0x1000 0x2000) (ready.setPhase 0x1000 .finalized)) .finalizedContext = true := by
  decide +kernel
/-- X5 to X9. -/
theorem test_refused_operands :
    refusedFor (exec (.init 0x1002) ready) .misalignedReference = true ∧ refusedFor (exec (.init 0xffffffc0) ready) .invalidRegion = true ∧
      refusedFor (exec (.absorb 0x1000 0x1040 64) ready) .overlappingRegions = true ∧
      refusedFor (exec (.final 0x1000 0x1050) ready) .overlappingRegions = true ∧
      refusedFor (exec (.absorb 0x1000 0x3000 3) narrow) .invalidRegion = true ∧
      nextIs (exec (.absorb 0x1000 0x3000 2) narrow) (fun _ => true) = true := by
  decide +kernel
/-- X13: a host write into the context. -/
theorem test_host_write :
    nextIs (step (ready.setPending [.write 0x1010 [0xff]])) (fun t => t.phaseOf 0x1000 = .uninitialized && t.readByte 0x1010 = 0xff) = true := by
  decide +kernel
/-- V6: a second command on a context in use, and reading it; its span may be read. -/
theorem test_busy :
    let s := pair.setInFlight [.absorb 0x1000 0x3000 3]
    refusedFor (step (s.setPending [.issue ⟨2, 0x1000, 0x4000, 0⟩])) .concurrentAccess = true ∧
      refusedFor (step (s.setPending [.read 0x105b 1])) .concurrentAccess = true ∧
      refusedFor (step (s.setPending [.write 0x3002 [0]])) .concurrentAccess = true ∧
      nextIs (step (s.setPending [.read 0x3000 3])) (fun t => t.hostData = [0x61, 0x62, 0x63]) = true := by
  decide +kernel
/-- R8, R190: both engines in use.  A started command waits (it cannot complete yet); an issued one waits for the oldest to complete. -/
theorem test_waits_for_an_engine :
    let s := pair.setInFlight [.init 0x5000, .init 0x6000]
    nextIs (step (s.setPending [.start ⟨0, 0x7000, 0, 0⟩])) (fun t => t.inFlight = [.init 0x5000, .init 0x6000, .init 0x7000]) = true ∧
      refusedFor (step ((s.setInFlight (s.inFlight ++ [.init 0x7000])).setPending [.complete 2])) .noSuchCommand = true ∧
      nextIs (step (s.setPending [.issue ⟨0, 0x7000, 0, 0⟩])) (fun t => t.inFlight = [.init 0x6000] && t.phaseOf 0x5000 = .active &&
        t.phaseOf 0x7000 = .uninitialized && t.pending = [.issue ⟨0, 0x7000, 0, 0⟩]) = true := by
  decide +kernel
/-- The first step after reset with a table word placed. -/
theorem test_withFetchWord :
    nextIs (step (State.reset.withFetchWord 32 0)) (fun t => t.phaseOf 0 = .active) = true ∧
      nextIs (step (State.reset.withFetchWord 8 17)) (fun t => t.k = 18) = true ∧
      refusedFor (step (State.reset.withFetchWord 32 3)) .reservedDescriptor = true ∧
      refusedFor (step (State.reset.withFetchWord 32 1)) .uninitializedContext = true := by
  decide +kernel

/-! ### Witnesses: for each statement with hypotheses, a state and operands that meet them -/

theorem ready_absorb_abc : Ready ready (.absorb 0x1000 0x3000 3) := (ready_iff_check _ _).2 (by decide +kernel)
theorem ready_final_digest : Ready ready (.final 0x1000 0x2000) := (ready_iff_check _ _).2 (by decide +kernel)
/-- The lowest and the highest context there can be. -/
theorem contextReady_ends : ContextReady ready 0 ∧ ContextReady ready 0xffffffa4 :=
  ⟨(contextReady_iff _ _).2 (by decide +kernel), (contextReady_iff _ _).2 (by decide +kernel)⟩
theorem ready_represents : Represents ready 0x1000 [] := represents_nil (by decide +kernel) (by decide +kernel)

theorem witness_DecodeOfEncodeIsTheInstruction :
    encode (.absorb 0xffffffff 0xffffffff 0xffffffff) = .command ⟨1, 0xffffffff, 0xffffffff, 0xffffffff⟩ := rfl
theorem witness_EncodeOfDecodeIsTheWord :
    decode (.command ⟨2, 0x1000, 0xffffffff, 0⟩) = .ok (.final 0x1000 0xffffffff) ∧ decode (.stepIndex 63) = .ok .step63 ∧
      decodeBytes (Descriptor.bytes ⟨0, 4, 0, 0⟩ ++ [1]) = .ok (.init 4, [1]) := by
  decide +kernel
theorem witness_ReservedDescriptorsAreRefused :
    (decodeDescriptor ⟨3, 0, 0, 0⟩ = .error .reservedOp ∧ decodeDescriptor ⟨0x80000001, 0, 0, 0⟩ = .error .reservedBits ∧
      decodeDescriptor ⟨0, 0, 0, 0xffffffff⟩ = .error .initArgument ∧ decodeDescriptor ⟨2, 0, 0, 1⟩ = .error .finalArgument) ∧
      (ready.setPending [.issue ⟨3, 0, 0, 0⟩]).pending = .issue ⟨3, 0, 0, 0⟩ :: [] := by
  decide +kernel
theorem witness_StepIndexSelectsRoundAndPosition : decodeStep 63 = decodeStep 63 := rfl
theorem witness_RoundOneStepsFollowFF :
    let s := registers 0x67452301 0xefcdab89 0x98badcfe 0x10325476 ((Vector.replicate 16 0).set 0 0x80)
    s.work = ⟨0x67452301, 0xefcdab89, 0x98badcfe, 0x10325476⟩ ∧ s.msg[0] = 0x80 := by
  decide +kernel
theorem witness_RoundTwoStepsFollowGG :
    let s := registers 0x00000001 0xffff0000 0x12345678 0x00ffff00 ((Vector.replicate 16 0).set 1 2)
    s.work = ⟨0x00000001, 0xffff0000, 0x12345678, 0x00ffff00⟩ ∧ s.msg[1] = 2 := by
  decide +kernel
theorem witness_RoundThreeStepsFollowHH :
    let s := registers 0x00000001 0xffff0000 0x12345678 0x00ffff00 ((Vector.replicate 16 0).set 5 2)
    s.work = ⟨0x00000001, 0xffff0000, 0x12345678, 0x00ffff00⟩ ∧ s.msg[5] = 2 := by
  decide +kernel
theorem witness_RoundFourStepsFollowII :
    let s := registers 0x00000001 0xffff0000 0x12345678 0x00ffff00 ((Vector.replicate 16 0).set 0 2)
    s.work = ⟨0x00000001, 0xffff0000, 0x12345678, 0x00ffff00⟩ ∧ s.msg[0] = 2 := by
  decide +kernel
theorem witness_StepsChangeOnlyTheWorkingRegisters :
    encode .step00 = .stepIndex 0 ∧ encode .step62 = .stepIndex 62 ∧ (62 : StepIndex) ≠ 63 ∧ encode .step63 = .stepIndex 63 := by
  decide
theorem witness_ScheduleOfEveryStep : 0 < 64 ∧ 63 < 64 := by decide
theorem witness_WordScheduleIsFourPermutations : 15 < 16 ∧ 63 < 64 ∧ 3 < 4 ∧ (wordIndex (16 * 3 + 15)).val = 9 := by decide
theorem witness_ConstantsAreTheIntegerPartsOfTheSines : (1 ≤ 1 ∧ 1 ≤ 64) ∧ (1 ≤ 64 ∧ 64 ≤ 64) := by decide
theorem witness_MixingTruthTable : 0 < 32 ∧ 31 < 32 := by decide
theorem witness_RotationLaws :
    (1 ≤ 1 ∧ 1 ≤ 31) ∧ (1 ≤ 31 ∧ 31 ≤ 31) ∧ (0xfffffffe : Word).toNat < 2 ^ 32 - 1 ∧ 63 < 64 := by
  decide
theorem witness_RoleRotationViewAgrees : (1 : Fin 4) ≠ roleHolder 0 0 := by decide
theorem witness_CompressIsLoadSixtyFourStepsAndFeedForward : (List.replicate 64 (0xff : Byte)).length = 64 ∧ (15 : Nat) < 0 + 16 := by decide
theorem witness_InitMakesAFreshContext :
    (ContextReady ready 0 ∧ ContextReady ready 0xffffffa4) ∧ ∃ t, exec (.init 0) ready = .next t :=
  ⟨contextReady_ends, _, exec_init _ contextReady_ends.1⟩
theorem witness_AbsorbHashesWholeBlocksAndKeepsTheTail :
    Ready ready (.absorb 0x1000 0x3000 3) ∧ Ready (holding 63) (.absorb 0x1000 0x3000 0xffffcfff) := by
  refine ⟨ready_absorb_abc, (contextReady_iff _ _).2 (by decide +kernel), by decide +kernel, .inr ⟨⟨by decide, fun i hi => ?_⟩, ?_⟩⟩
  · exact ⟨⟨0, 2 ^ 32⟩, by decide +kernel, Nat.zero_le _, by
      have : (0xffffcfff : Word).toNat = 0xffffcfff := rfl
      have : (0x3000 : Word).toNat = 0x3000 := rfl
      simp only at *
      omega⟩
  · exact (noCommonByte_iff (by omega)).2 (by decide)
theorem witness_CounterAddsEightTimesTheLength :
    (∃ t, exec (.absorb 0x1000 0x3000 3) ready = .next t) ∧
      ∃ t, exec (.absorb 0x1000 0x3000 1) (withContext ready 0x1000 .active magicWords 0x00000000FFFFFFF8 []) = .next t ∧
        (withContext ready 0x1000 .active magicWords 0x00000000FFFFFFF8 []).count 0x1000 = 0x00000000FFFFFFF8 :=
  ⟨⟨_, exec_absorb _ ready_absorb_abc⟩, _, exec_absorb _ ((ready_iff_check _ _).2 (by decide +kernel)), by decide +kernel⟩
theorem witness_EmptyAndWholeBlockSpansBufferNothing :
    ContextReady ready 0x1000 ∧ ready.phaseOf 0x1000 = .active ∧ SpanReady ready 0x1000 0x3000 128 ∧ ready.fillLevel 0x1000 = 0 ∧
      (128 : Word).toNat % 64 = 0 := by
  have h : Ready ready (.absorb 0x1000 0x3000 128) := (ready_iff_check _ _).2 (by decide +kernel)
  exact ⟨h.1, h.2.1, h.2.2, by decide +kernel, by decide⟩
theorem witness_FinalPadsAndCompressesTheTail :
    (Ready ready (.final 0x1000 0x2000) ∧ Represents ready 0x1000 []) ∧ Ready (holding 55) (.final 0x1000 0xfffffff0) ∧
      Ready (holding 56) (.final 0x1000 0x105c) :=
  ⟨⟨ready_final_digest, ready_represents⟩, (ready_iff_check _ _).2 (by decide +kernel), (ready_iff_check _ _).2 (by decide +kernel)⟩
theorem witness_DigestBytesAreTheStateLittleEndian : ∃ t, exec (.final 0x1000 0x2000) ready = .next t := ⟨_, exec_final _ ready_final_digest⟩
theorem witness_CommandsWriteOnlyTheirRegions :
    (∃ t, exec (.init 0) ready = .next t) ∧ (∃ t, exec (.absorb 0x1000 0x3000 3) ready = .next t) ∧
      ∃ t, exec (.final 0x1000 0x2000) ready = .next t :=
  ⟨⟨_, exec_init _ contextReady_ends.1⟩, ⟨_, exec_absorb _ ready_absorb_abc⟩, _, exec_final _ ready_final_digest⟩
/-- The digest at 0x2000 is written over the live context of `pair`. -/
theorem witness_CommandsLeaveRegistersAndOtherPhases :
    (∃ t, exec (.init 0x1040) ready = .next t ∧ 0x1000 ≠ (0x1040 : Word).toNat ∧ (contextAt 0x1000).overlaps ⟨0x1040, 92⟩ = true) ∧
      (∃ t, exec (.absorb 0x1000 0x3000 3) ready = .next t) ∧
      ∃ t, exec (.final 0x1000 0x2000) pair = .next t ∧ (contextAt 0x2000).overlaps ⟨0x2000, 16⟩ = true :=
  ⟨⟨_, exec_init _ ((contextReady_iff _ _).2 (by decide +kernel)), by decide, by decide⟩, ⟨_, exec_absorb _ ready_absorb_abc⟩,
    _, exec_final _ ((ready_iff_check _ _).2 (by decide +kernel)), by decide⟩
theorem witness_LifecycleOfAContext :
    (ContextReady ready 0x1000 ∧ SpanReady ready 0x1000 0x3000 3 ∧ DigestReady ready 0x1000 0x2000 ∧ ready.phaseOf 0x1000 = .active) ∧
      (ready.setPhase 0x1000 .finalized).phaseOf 0x1000 = .finalized ∧ ready.phaseOf 0x5000 = .uninitialized :=
  ⟨⟨ready_absorb_abc.1, ready_absorb_abc.2.2, ready_final_digest.2.2, by decide +kernel⟩, by decide +kernel, by decide +kernel⟩
theorem witness_ExecCompletesExactlyWhenReady : Ready ready (.absorb 0x1000 0x3000 3) ∧ ¬ Ready ready (.init 0x1002) :=
  ⟨ready_absorb_abc, fun h => absurd h.1 (by decide)⟩
theorem witness_EachViolationIsRefusedByName :
    (0x1002 : Word).toNat % 4 ≠ 0 ∧ ((0xffffffc0 : Word).toNat % 4 = 0 ∧ ¬ RegionValid ready (0xffffffc0 : Word).toNat 92) ∧
      (ContextReady narrow 0x1000 ∧ narrow.phaseOf 0x1000 = .active ∧ (3 : Word) ≠ 0 ∧
        ¬ RegionValid narrow (0x3000 : Word).toNat (3 : Word).toNat ∧ ¬ RegionValid narrow (0x3000 : Word).toNat 16 ∧
        (RegionValid narrow (0x105b : Word).toNat (1 : Word).toNat ∧ ¬ NoCommonByte (0x1000 : Word).toNat 92 (0x105b : Word).toNat (1 : Word).toNat) ∧
        RegionValid narrow (0x1050 : Word).toNat 16 ∧ ¬ NoCommonByte (0x1000 : Word).toNat 92 (0x1050 : Word).toNat 16) := by
  simp only [regionValid_iff, noCommonByte_iff (show 0 < 92 by omega), contextReady_iff]
  decide +kernel
theorem witness_IllFormedOperandsNeverRun :
    (Instr.init 0x1002).wellFormed = false ∧ (Instr.absorb 0x1000 0x105b 1).wellFormed = false ∧ (Instr.final 0x1000 0xfffffff1).wellFormed = false := by
  decide
theorem witness_StepRunsTheDecodedInstruction :
    ((ready.setPending [.issue ⟨0, 4, 0, 0⟩]).pending = .issue ⟨0, 4, 0, 0⟩ :: [] ∧ decodeDescriptor ⟨0, 4, 0, 0⟩ = .ok (.init 4) ∧
      ready.inFlight = []) ∧
      ((pair.setInFlight [.init 0x1000]).admission (.init 4) = none ∧ (pair.setInFlight [.init 0x1000]).hasIdleEngine = true) ∧ (ready.setPending [.tick]).pending = .tick :: [] := by
  decide +kernel
theorem witness_TableWordRunsAsTheNextStep :
    decodeTableWord 32 0 = some (.init 0) ∧ decodeTableWord 8 63 = some .step63 ∧ ready.inFlight = [] := by
  decide +kernel
theorem witness_HostWriteRetiresTheContextsItMeets :
    let s := (pair.setInFlight [.init 0x2000]).setPending [.write 0x105b [7]]
    s.pending = .write 0x105b [7] :: [] ∧ (0x105b : Word).toNat + [(7 : Byte)].length ≤ 2 ^ 32 ∧
      (∀ i ∈ s.inFlight, ∀ r ∈ usedRegions i, r.overlaps ⟨(0x105b : Word).toNat, [(7 : Byte)].length⟩ = false) ∧
      (contextAt 0x1000).overlaps ⟨0x105b, 1⟩ = true := by
  decide +kernel
/-- A read that ends at the last address, one that runs past it, one of the span in use and one of the context in use. -/
theorem witness_HostReadReturnsTheBytes :
    let s := pair.setInFlight [.absorb 0x1000 0x3000 3]
    (s.setPending [.read 0xffffffff 1]).pending = .read 0xffffffff 1 :: [] ∧ (0xffffffff : Word).toNat + 1 ≤ 2 ^ 32 ∧
      2 ^ 32 < (0xffffffff : Word).toNat + 2 ∧
      (∀ i ∈ s.inFlight, ∀ r ∈ writtenRegions i, r.overlaps ⟨(0x3000 : Word).toNat, 3⟩ = false) ∧
      (∃ i ∈ s.inFlight, ∃ r ∈ writtenRegions i, r.overlaps ⟨(0x105b : Word).toNat, 1⟩ = true) := by
  decide +kernel
theorem witness_RegionsInUseAreFrozen :
    let i : Instr := .absorb 0x1000 0x3000 3
    i ∈ (pair.setInFlight [i]).inFlight ∧ ((pair.setInFlight [i]).setPending [.write 0x3002 [0]]).pending = .write 0x3002 [0] :: [] ∧
      (∃ r ∈ usedRegions i, r.overlaps ⟨(0x3002 : Word).toNat, [(0 : Byte)].length⟩ = true) ∧
      decodeDescriptor ⟨2, 0x2000, 0x3000, 0⟩ = .ok (.final 0x2000 0x3000) ∧
      (∃ r ∈ usedRegions i, ∃ q ∈ writtenRegions (.final 0x2000 0x3000), r.overlaps q = true) ∧
      (∃ r ∈ writtenRegions i, ∃ q ∈ usedRegions (.absorb 0x2000 0x105b 1), r.overlaps q = true) := by
  decide +kernel
theorem witness_StartThenCompleteIsTheAtomicCommand : ready.inFlight = [] := by decide +kernel
theorem witness_HardwareResetLeavesNoContextLive :
    ((pair.setInFlight [.init 0x1000]).setPending [.reset]).pending = .reset :: [] := rfl
theorem witness_ResetStateMeetsTheStartPremises : ContextReady State.reset 0 ∧ ContextReady State.reset 0xffffffa4 :=
  ⟨(contextReady_iff _ _).2 (by decide +kernel), (contextReady_iff _ _).2 (by decide +kernel)⟩
theorem ready_phases : ready.phases = [(0x1000, .active)] := by decide +kernel
theorem ready_idle : ready.inFlight = [] := by decide +kernel
theorem ready_mem : Memory.wf ready.mem = true := by decide +kernel
/-- A state with an Active context that meets the invariant, whatever is to come. -/
theorem ready_invariant (l : List Input) : Invariant (ready.setPending l) := by
  refine ⟨ready_mem, ?_, ⟨fun e he => ?_, fun e he f hf hne => ?_⟩, ?_⟩
  · rw [State.setPending_phases, ready_phases]; rfl
  · rw [State.setPending_phases, ready_phases, List.mem_singleton] at he
    subst he
    exact ⟨by decide, by decide, [], ready_represents.congr fun _ _ _ => rfl⟩
  · rw [State.setPending_phases, ready_phases, List.mem_singleton] at he hf
    exact absurd (by rw [he, hf]) hne
  · rw [InFlightSound, State.setPending_inFlight, ready_idle]
    exact ⟨List.Pairwise.nil, nofun⟩
theorem witness_EveryStepKeepsTheInvariant :
    Invariant (ready.setPending [.issue ⟨0, 0, 0, 0⟩]) ∧ ∃ t, step (ready.setPending [.issue ⟨0, 0, 0, 0⟩]) = .next t := by
  refine ⟨ready_invariant _, (ready.setPending []).initContext 0, ?_⟩
  have hd : decodeDescriptor ⟨0, 0, 0, 0⟩ = .ok (.init 0) := by decide
  have ha : (ready.setPending []).admission (.init 0) = none := by decide +kernel
  have hs : (ready.setPending []).hasIdleEngine = true := by decide +kernel
  have hr : ContextReady (ready.setPending []) 0 := contextReady_ends.1
  rw [step, State.setPending_pending]
  simp only [State.take, State.issue, hd]
  rw [show (ready.setPending [.issue ⟨0, 0, 0, 0⟩]).setPending [] = ready.setPending [] from rfl, ha]
  exact (if_pos hs).trans (exec_init _ hr)
theorem witness_FillLevelFollowsTheCounter : Invariant (ready.setPending []) ∧ (ready.setPending []).phaseOf 0x1000 = .active :=
  ⟨ready_invariant _, by decide +kernel⟩
theorem witness_AbsorbAppendsToTheMessage : Ready ready (.absorb 0x1000 0x3000 3) ∧ Represents ready 0x1000 [] :=
  ⟨ready_absorb_abc, ready_represents⟩
/-- The contexts differ in address and in the bytes above the fill level; the spans differ in address. -/
theorem witness_AbstractValueDecidesEveryResult :
    let t := withContext (State.reset.writeBytes 0x4000 [0x61, 0x62, 0x63]) 0x2000 .active magicWords 0 [1, 2, 3]
    SameAbstractValue ready (0x1000 : Word).toNat t (0x2000 : Word).toNat ∧ Ready ready (.absorb 0x1000 0x3000 3) ∧
      Ready t (.absorb 0x2000 0x4000 3) ∧ ready.readBytes (0x3000 : Word).toNat (3 : Word).toNat = t.readBytes (0x4000 : Word).toNat (3 : Word).toNat ∧
      Ready ready (.final 0x1000 0x2000) ∧ Ready t (.final 0x2000 0x1000) := by
  refine ⟨⟨by decide +kernel, by decide +kernel, by decide +kernel⟩, ready_absorb_abc, (ready_iff_check _ _).2 (by decide +kernel),
    by decide +kernel, ready_final_digest, (ready_iff_check _ _).2 (by decide +kernel)⟩
/-- "abc" as "ab" and "c", on the same context in two copies of one state. -/
theorem witness_SplittingASpanChangesNothing :
    Ready ready (.absorb 0x1000 0x3000 2) ∧ SpanReady ready 0x1000 0x3002 1 ∧ Ready ready (.absorb 0x1000 0x3000 3) ∧
      SameAbstractValue ready (0x1000 : Word).toNat ready (0x1000 : Word).toNat ∧
      (3 : Word).toNat = (2 : Word).toNat + (1 : Word).toNat ∧
      ready.readBytes (0x3000 : Word).toNat (3 : Word).toNat =
        ready.readBytes (0x3000 : Word).toNat (2 : Word).toNat ++ ready.readBytes (0x3002 : Word).toNat (1 : Word).toNat ∧
      DigestReady ready 0x1000 0x2000 := by
  have h : Ready ready (.absorb 0x1000 0x3002 1) := (ready_iff_check _ _).2 (by decide +kernel)
  exact ⟨(ready_iff_check _ _).2 (by decide +kernel), h.2.2, ready_absorb_abc, ⟨rfl, rfl, rfl⟩, by decide, by decide +kernel,
    ready_final_digest.2.2⟩
/-- Two spans, the second empty with a reference nobody looks at. -/
theorem witness_DigestIsMD5OfTheConcatenatedSpans :
    ContextReady ready 0x1000 ∧ DigestReady ready 0x1000 0x2000 ∧
      ∀ x ∈ [((0x3000 : Word), (3 : Word)), (0x1000, 0)], SpanReady ready 0x1000 x.1 x.2 := by
  refine ⟨ready_absorb_abc.1, ready_final_digest.2.2, fun x hx => ?_⟩
  rcases List.mem_cons.1 hx with rfl | hx
  · exact ready_absorb_abc.2.2
  · rw [List.mem_singleton.1 hx]; exact .inl rfl
theorem witness_DigestDependsOnTheMessageAlone :
    (ContextReady ready 0x1000 ∧ DigestReady ready 0x1000 0x2000 ∧
      ∀ x ∈ [((0x3000 : Word), (3 : Word))], SpanReady ready 0x1000 x.1 x.2) ∧
      spansBytes ready [(0x3000, 3)] = spansBytes ready [(0x3000, 2), (0x3002, 1)] := by
  refine ⟨⟨ready_absorb_abc.1, ready_final_digest.2.2, fun x hx => ?_⟩, by decide +kernel⟩
  rw [List.mem_singleton.1 hx]
  exact ready_absorb_abc.2.2
theorem witness_NonConflictingCommandsCommute :
    conflicts (.absorb 0x1000 0x3000 3) (.init 0x2000) = false ∧
      ∃ t u, exec (.absorb 0x1000 0x3000 3) ready = .next t ∧ exec (.init 0x2000) t = .next u := by
  have h : conflicts (.absorb 0x1000 0x3000 3) (.init 0x2000) = false := by decide
  exact ⟨h, _, _, exec_of_ready ready_absorb_abc,
    exec_of_ready (Ready.after ready_absorb_abc (j := .init 0x2000) ((ready_iff_check _ _).2 (by decide +kernel)) h)⟩
theorem witness_CommandsInProgressRunDry :
    let s := (pair.setInFlight [.absorb 0x1000 0x3000 3, .final 0x2000 0x4000]).setPending []
    InFlightSound s ∧ s.pending = [] ∧ s.running[1]? = some (.final 0x2000 0x4000) ∧
      (s.setPending [.complete 1]).pending = .complete 1 :: [] := by
  unfold InFlightSound
  decide +kernel

/-- Both engines busy, and a command that meets neither. -/
theorem witness_EveryValidCommandIsTaken :
    let s := pair.setInFlight [.absorb 0x1000 0x3000 3, .final 0x2000 0x4000]
    InFlightSound s ∧ decodeDescriptor ⟨0, 0x7000, 0, 0⟩ = .ok (.init 0x7000) ∧ Ready s (.init 0x7000) ∧ s.busyFor (.init 0x7000) = false ∧
      s.inFlight.length - s.platform.moreEngines = 1 ∧
      (s.setPending [.issue ⟨0, 0x7000, 0, 0⟩]).pending = .issue ⟨0, 0x7000, 0, 0⟩ :: [] ∧
      (s.setPending [.start ⟨0, 0x7000, 0, 0⟩]).pending = .start ⟨0, 0x7000, 0, 0⟩ :: [] := by
  refine ⟨?_, by decide, (ready_iff_check _ _).2 (by decide +kernel), by decide +kernel, by decide +kernel, rfl, rfl⟩
  unfold InFlightSound
  decide +kernel
/-- A fresh Active context, and a Finalized one beside it that holds the final state of the empty message. -/
def partway : State := withContext ready 0x2000 .finalized (chainOf (padded [])) 0 []
theorem witness_StartPremisesGiveTheInvariant :
    let listed : List (Nat × StartContext) := [(0x1000, .active ⟨magicWords, 0, []⟩), (0x2000, .finalized)]
    StartPremises listed partway ∧ Memory.wf partway.mem = true ∧ Phases.wf partway.phases = true ∧
      (∀ e ∈ listed, e.1 % 4 = 0 ∧ e.1 + 92 ≤ 2 ^ 32 ∧ (e.2 = .finalized → ∃ msg, partway.chain e.1 = chainOf (padded msg))) ∧
      ∀ e ∈ listed, ∀ f ∈ listed, e.1 ≠ f.1 → NoCommonByte e.1 92 f.1 92 := by
  have hphases : partway.phases = [(0x1000, .active), (0x2000, .finalized)] := by decide +kernel
  refine ⟨⟨by decide +kernel, hphases, fun e he v hv => ?_⟩, by decide +kernel, by rw [hphases]; rfl, fun e he => ?_, fun e he f hf hne => ?_⟩ <;>
    simp only [List.mem_cons, List.not_mem_nil, or_false] at he
  · rcases he with rfl | rfl
    · injection hv with hv
      subst hv
      exact ⟨by decide +kernel, [], by decide +kernel⟩
    · cases hv
  · rcases he with rfl | rfl
    · exact ⟨by decide, by decide, nofun⟩
    · exact ⟨by decide, by decide, fun _ => ⟨[], by decide +kernel⟩⟩
  · simp only [List.mem_cons, List.not_mem_nil, or_false] at hf
    rw [noCommonByte_iff (by omega)]
    rcases he with rfl | rfl <;> rcases hf with rfl | rfl <;> first | exact absurd rfl hne | decide
/-- A host that resets the hardware for ever. -/
def afterResets : Nat → State
  | 0 => ready.setPending []
  | n + 1 => (afterResets n).hardReset
theorem afterResets_pending (n : Nat) : (afterResets n).pending = [] := by
  induction n with
  | zero => rfl
  | succ n ih => exact ih
theorem witness_InfiniteRunsKeepTheInvariant :
    Invariant (ready.setPending []) ∧ InfiniteRun (fun _ => .reset) (ready.setPending []) afterResets id := by
  refine ⟨ready_invariant _, ⟨rfl, rfl⟩, fun n => ?_, fun n => (if_pos (afterResets_pending (n + 1))).symm⟩
  rw [step, State.setPending_pending]
  exact congrArg Host.Outcome.next (congrArg State.hardReset (State.setPending_self _ (afterResets_pending n)))

end Sys2Proof.Tests
end

section
/-! The frame of the commands outside memory, and what the abstract value of a context decides (spec/10_state.md). -/

namespace Sys2Proof.Machine

variable {s t : State} {A : Nat → Prop}

/-! ### The reset state -/

/-- On an Uninitialized context ABSORB and FINAL are turned away as V1, once the context itself is in order. -/
theorem checks_uninitialized {ctx : Word} (hc : ContextReady s ctx) (hp : s.phaseOf ctx.toNat = .uninitialized) (ptr len out : Word) :
    s.checkAbsorb ctx ptr len = some .uninitializedContext ∧ s.checkFinal ctx out = some .uninitializedContext := by
  have hcheck : s.checkPhase ctx = some .uninitializedContext := by rw [State.checkPhase, hp]
  rw [State.checkAbsorb, State.checkFinal, (contextReady_iff s ctx).1 hc, hcheck]
  exact ⟨rfl, rfl⟩

/-- Settles O38: the reset state lists nothing, so each claim reads off its empty lists; ABSORB and FINAL fail their phase check. -/
theorem resetStateMeetsTheStartPremises : Obligations.ResetStateMeetsTheStartPremises := by
  unfold Obligations.ResetStateMeetsTheStartPremises
  refine ⟨⟨rfl, rfl, nofun⟩, ⟨rfl, rfl⟩, fun _ => rfl, fun _ => rfl, rfl, fun ctx ptr len out hc => ?_⟩
  obtain ⟨ha, hf⟩ := checks_uninitialized hc rfl ptr len out
  exact ⟨by rw [exec_eq_guarded, State.check, ha]; rfl, by rw [exec_eq_guarded, State.check, hf]; rfl⟩

/-! ### The frame of the commands outside memory -/

theorem Commits.surroundings (h : Commits A s t) : SameSurroundings s t :=
  ⟨h.platform, h.inFlight, h.pending, h.hostData, h.epoch⟩

/-- Settles O26: each command takes its effect, whose specification gives the phases and the fields it leaves alone. -/
theorem commandsLeaveRegistersAndOtherPhases : Obligations.CommandsLeaveRegistersAndOtherPhases := by
  unfold Obligations.CommandsLeaveRegistersAndOtherPhases
  refine ⟨fun s t ctx h => ?_, fun s t ctx ptr len h => ?_, fun s t ctx out h => ?_⟩ <;> obtain ⟨hr, rfl⟩ := exec_eq_next.1 h
  · obtain ⟨-, -, -, hphase, hframe⟩ := s.initContext_spec hr
    exact ⟨s.initContext_internal ctx, hframe.surroundings, fun c hc => (hphase c).trans (if_neg hc)⟩
  · obtain ⟨hc, -, hspan⟩ := hr
    obtain ⟨-, -, -, hframe, -⟩ := s.absorbSpan_spec hc.fits hspan.clear
    exact ⟨hframe.commits.surroundings, hframe.phases⟩
  · obtain ⟨-, -, hphase, hframe⟩ := s.finalContext_spec hr
    exact ⟨hframe.surroundings, (hphase _).trans (if_pos rfl), fun c hc => (hphase c).trans (if_neg hc)⟩

/-! ### Two contexts with one abstract value -/

/-- The fill level moves with the counter (R24, R154). -/
theorem fillOf_countAfter (v : Double) (len : Word) : fillOf (countAfter v len) = (fillOf v + len.toNat) % 64 := by
  rw [fillOf_toNat, fillOf_toNat, countAfter, add64, BitVec.toNat_add, bitsOf_toNat]
  omega

/-- ABSORB of the same bytes leaves equal abstract values (R152): its result is a function of the old value and the span. -/
theorem SameAbstractValue.absorbSpan {c e p q len : Word} (h : SameAbstractValue s c.toNat t e.toNat)
    (hs : Ready s (.absorb c p len)) (ht : Ready t (.absorb e q len))
    (hbytes : s.readBytes p.toNat len.toNat = t.readBytes q.toNat len.toNat) :
    SameAbstractValue (s.absorbSpan c p len) c.toNat (t.absorbSpan e q len) e.toNat := by
  obtain ⟨hchain, hcount, hbuf⟩ := h
  obtain ⟨hsc, -, hss⟩ := hs
  obtain ⟨htc, -, hts⟩ := ht
  obtain ⟨s1, s2, s3, -⟩ := s.absorbSpan_spec hsc.fits hss.clear
  obtain ⟨t1, t2, t3, -⟩ := t.absorbSpan_spec htc.fits hts.clear
  rw [State.fillLevel, State.fillLevel, hcount] at hbuf
  rw [hcount, hbuf, hchain, ← hbytes] at t1
  rw [hcount, hbuf, ← hbytes] at t3
  rw [hcount] at t2
  refine ⟨t1.trans s1.symm, t2.trans s2.symm, ?_⟩
  rw [State.fillLevel, State.fillLevel, t2, s2, fillOf_countAfter]
  exact t3.trans s3.symm

/-- FINAL gives the same 16 digest bytes (R165). -/
theorem SameAbstractValue.finalContext {c e o u : Word} (h : SameAbstractValue s c.toNat t e.toNat)
    (hs : Ready s (.final c o)) (ht : Ready t (.final e u)) :
    (s.finalContext c o).readBytes o.toNat 16 = (t.finalContext e u).readBytes u.toNat 16 := by
  obtain ⟨hchain, hcount, hbuf⟩ := h
  obtain ⟨s1, s2, -⟩ := s.finalContext_spec hs
  obtain ⟨t1, t2, -⟩ := t.finalContext_spec ht
  rw [State.fillLevel, State.fillLevel, hcount] at hbuf
  rw [hcount, hbuf, hchain] at t1
  rw [s2, t2, s1, t1]

/-- Settles O43: the specifications of ABSORB and FINAL read nothing of a context but its abstract value. -/
theorem abstractValueDecidesEveryResult : Obligations.AbstractValueDecidesEveryResult := by
  unfold Obligations.AbstractValueDecidesEveryResult
  intro s t c e h
  refine ⟨fun p len q hs ht hbytes => ?_, fun o u hs ht => ?_⟩
  · exact ⟨_, _, exec_absorb s hs, exec_absorb t ht, h.absorbSpan hs ht hbytes⟩
  · exact ⟨_, _, exec_final s hs, exec_final t ht, h.finalContext hs ht⟩

end Sys2Proof.Machine
end

section
/-! The invariant of the machine: every step keeps it (spec/10_state.md R26, R28, spec/20_memory.md R64, spec/70_reset_and_hazards.md R215,
R216).  The contexts are spoken of by their phase instead of by the list that holds the phases. -/

namespace Sys2Proof.Machine

variable {s t : State} {c : Nat}

/-! ### Live contexts -/

/-- The context at `c` is Active or Finalized (R29). -/
def State.Live (s : State) (c : Nat) : Prop := s.phaseOf c ≠ .uninitialized

/-- Aligned, inside the address space, and holding what its phase says: what the invariant asks of one live context. -/
def ContextOk (s : State) (c : Nat) : Prop :=
  c % Config.ctxAlign = 0 ∧ c + Config.contextBytes ≤ Config.addressSpace ∧ ContextSound s c (s.phaseOf c)

/-- In canonical form the listed phases are those of the live contexts. -/
theorem mem_phases_iff (h : Phases.wf s.phases = true) (c : Nat) (p : Phase) : (c, p) ∈ s.phases ↔ s.Live c ∧ s.phaseOf c = p := by
  rw [Phases.wf, Bool.and_eq_true, List.all_eq_true] at h
  obtain ⟨hrises, hall⟩ := h
  have hmem := fun v => Sparse.mem_iff_get? c v hrises
  rw [hmem, State.Live, State.phaseOf]
  cases hget : Sparse.get? s.phases c with
  | none => simp
  | some v =>
    have hv : v ≠ .uninitialized := by simpa using hall (c, v) ((hmem v).2 hget)
    simp [hv]

/-- What the invariant says of the contexts, by phase. -/
theorem contextsSound_iff (h : Phases.wf s.phases = true) :
    ContextsSound s ↔ (∀ c, s.Live c → ContextOk s c) ∧
      ∀ c d, s.Live c → s.Live d → c ≠ d → (contextAt c).overlaps (contextAt d) = false := by
  constructor
  · rintro ⟨hone, htwo⟩
    have hlisted := fun c (hc : s.Live c) => (mem_phases_iff h c _).2 ⟨hc, rfl⟩
    exact ⟨fun c hc => hone _ (hlisted c hc), fun c d hc hd => htwo _ (hlisted c hc) _ (hlisted d hd)⟩
  · rintro ⟨hone, htwo⟩
    refine ⟨fun ⟨c, p⟩ he => ?_, fun ⟨c, p⟩ he ⟨d, q⟩ hf => ?_⟩
    · obtain ⟨hc, rfl⟩ := (mem_phases_iff h c p).1 he
      exact hone c hc
    · exact htwo c d ((mem_phases_iff h c p).1 he).1 ((mem_phases_iff h d q).1 hf).1

/-- A context that has not been retired was not met. -/
theorem not_met_of_live {met : Bool} {p : Phase} (h : (if met then .uninitialized else p) ≠ .uninitialized) : met = false := by
  by_contra hmet
  exact h (if_pos (by simpa using hmet))

theorem State.live_of_active (h : s.phaseOf c = .active) : s.Live c := by
  simp [State.Live, h]

theorem Invariant.contextOk (h : Invariant s) (hc : s.Live c) : ContextOk s c := by
  obtain ⟨-, hphases, hctx, -⟩ := h
  exact ((contextsSound_iff hphases).1 hctx).1 c hc

theorem Invariant.apart (h : Invariant s) {d : Nat} (hc : s.Live c) (hd : s.Live d) (hne : c ≠ d) :
    (contextAt c).overlaps (contextAt d) = false := by
  obtain ⟨-, hphases, hctx, -⟩ := h
  exact ((contextsSound_iff hphases).1 hctx).2 c d hc hd hne

theorem Invariant.represents (h : Invariant s) (hactive : s.phaseOf c = .active) : ∃ msg, Represents s c msg := by
  obtain ⟨-, -, hsound⟩ := h.contextOk (State.live_of_active hactive)
  rwa [hactive] at hsound

theorem Invariant.mem_wf (h : Invariant s) : Memory.wf s.mem = true := h.1
theorem Invariant.phases_wf (h : Invariant s) : Phases.wf s.phases = true := h.2.1
theorem Invariant.inFlightSound (h : Invariant s) : InFlightSound s := h.2.2.2

/-- Settles O41: the counter of an Active context is the bit length of the message it represents. -/
theorem fillLevelFollowsTheCounter : Obligations.FillLevelFollowsTheCounter := by
  unfold Obligations.FillLevelFollowsTheCounter
  refine ⟨fun v => ⟨fillOf_toNat v, ?_, Nat.le_of_lt_succ (fillOf_lt v)⟩, fun s c hinv hactive => ?_⟩
  · rw [fillOf_toNat, BitVec.toNat_ushiftRight, Nat.shiftRight_eq_div_pow]
  · obtain ⟨msg, -, hcount, -⟩ := hinv.represents hactive
    have hbits : (s.count c).toNat = 8 * msg.length % 2 ^ 64 := by rw [hcount, bitLength, BitVec.toNat_ofNat]
    rw [State.fillLevel, fillOf_toNat]
    omega

/-! ### Contexts a move leaves alone -/

/-- The phase and the 92 bytes of the context at `c` are in `t` what they are in `s`. -/
def Untouched (s t : State) (c : Nat) : Prop :=
  t.phaseOf c = s.phaseOf c ∧ ∀ x, c ≤ x → x < c + 92 → t.readByte x = s.readByte x

theorem Untouched.live (h : Untouched s t c) (hc : t.Live c) : s.Live c := by
  rwa [State.Live, h.1] at hc

theorem Untouched.contextOk (h : Untouched s t c) (hok : ContextOk s c) : ContextOk t c := by
  obtain ⟨hphase, hbytes⟩ := h
  obtain ⟨halign, hfits, hsound⟩ := hok
  refine ⟨halign, hfits, ?_⟩
  rw [hphase]
  cases hp : s.phaseOf c <;> rw [hp] at hsound
  case uninitialized => trivial
  case active => exact hsound.imp fun msg hr => hr.congr hbytes
  case finalized =>
    have hchain : t.chain c = s.chain c := State.chain_congr (State.readBytes_congr fun i hi => hbytes _ (by omega) (by omega))
    exact hsound.imp fun msg hm => hchain.trans hm

/-- A move that leaves every context it does not retire alone keeps the invariant, when its commands in progress are in order. -/
theorem Invariant.of_untouched (h : Invariant s) (hmem : Memory.wf t.mem = true) (hphases : Phases.wf t.phases = true)
    (hkept : ∀ c, t.Live c → Untouched s t c) (hflight : InFlightSound t) : Invariant t := by
  have hlive := fun c hc => (hkept c hc).live hc
  refine ⟨hmem, hphases, (contextsSound_iff hphases).2 ⟨fun c hc => ?_, fun c d hc hd => ?_⟩, hflight⟩
  · exact (hkept c hc).contextOk (h.contextOk (hlive c hc))
  · exact h.apart (hlive c hc) (hlive d hd)

/-- The preconditions of an operation read the platform's parameters and the phase of its own context. -/
theorem Ready.congr_own {i : Instr} (hp : t.platform = s.platform)
    (hph : ∀ ctx : Word, contextRegion ctx ∈ usedRegions i → t.phaseOf ctx.toNat = s.phaseOf ctx.toNat) (h : Ready s i) : Ready t i := by
  rcases command_or_step i with ⟨ctx, rfl⟩ | ⟨ctx, ptr, len, rfl⟩ | ⟨ctx, out, rfl⟩ | ⟨n, hn, rfl⟩
  · simpa only [Ready, ContextReady, RegionValid, Backed, hp] using h
  · simpa only [Ready, ContextReady, SpanReady, RegionValid, Backed, hp, hph ctx List.mem_cons_self] using h
  · simpa only [Ready, ContextReady, DigestReady, RegionValid, Backed, hp, hph ctx List.mem_cons_self] using h
  · exact (exec_eq_next.1 (exec_stepInstr hn t)).1

theorem InFlightSound.ready (h : InFlightSound s) {i : Instr} (hi : i ∈ s.inFlight) : Ready s i :=
  (ready_iff_check s i).2 (h.2 i hi)

/-- The commands in progress may be exchanged for others that are in order. -/
theorem Invariant.setInFlight (h : Invariant s) {l : List Instr} (hpair : l.Pairwise fun i j => conflicts i j = false)
    (hready : ∀ i ∈ l, Ready s i) : Invariant (s.setInFlight l) := by
  refine h.of_untouched h.mem_wf h.phases_wf (fun c _ => ⟨rfl, fun _ _ _ => rfl⟩) ⟨hpair, fun i hi => (ready_iff_check _ i).1 ?_⟩
  exact (hready i hi).congr rfl fun _ => rfl

/-! ### An operation -/

/-- A region clear of the context holds none of its bytes. -/
theorem Region.not_holds_of_apart {x : Nat} {r : Region} (h : (contextAt c).overlaps r = false) (h1 : c ≤ x) (h2 : x < c + 92) :
    r.holds x = false := by
  rw [Region.overlaps_eq_false] at h
  simp only [contextAt, Config.contextBytes] at h
  rw [Region.holds_eq_false]
  omega

/-- An operation leaves alone every context that is clear of what it may write. -/
theorem effect_untouched {i : Instr} (hr : Ready s i) (hc : ∀ r ∈ writtenRegions i, (contextAt c).overlaps r = false) :
    Untouched s (s.effect i) c := by
  refine ⟨effect_phase_of_apart hr hc, fun x h1 h2 => (effect_commits hr).byte x ?_⟩
  rintro ⟨r, hmem, hholds⟩
  simp [Region.not_holds_of_apart (hc r hmem) h1 h2] at hholds

theorem absorbSpan_phases {ctx ptr len : Word} (hr : Ready s (.absorb ctx ptr len)) : (s.absorbSpan ctx ptr len).phases = s.phases := by
  obtain ⟨hc, -, hs⟩ := hr
  obtain ⟨-, -, -, hev, -⟩ := s.absorbSpan_spec hc.fits hs.clear
  exact hev.phases

/-- The phases stay in canonical form. -/
theorem effect_phases_wf {i : Instr} (hr : Ready s i) (h : Phases.wf s.phases = true) : Phases.wf (s.effect i).phases = true := by
  have hlt : ∀ ctx : Word, ctx.toNat < Config.addressSpace := fun ctx => ctx.isLt
  rcases command_or_step i with ⟨ctx, rfl⟩ | ⟨ctx, ptr, len, rfl⟩ | ⟨ctx, out, rfl⟩ | ⟨n, hn, rfl⟩
  · obtain ⟨-, -, -, hev⟩ := s.initMemory_spec (ContextReady.fits hr)
    exact Phases.wf_set (hlt ctx) nofun (Phases.wf_filter _ (by rwa [hev.phases]))
  · rwa [State.effect, absorbSpan_phases hr]
  · obtain ⟨hc, -, hd⟩ := hr
    obtain ⟨-, -, hev⟩ := s.finalMemory_spec hc.fits hd.fits hd.apart
    exact Phases.wf_set (hlt ctx) nofun (Phases.wf_filter _ (by rwa [hev.phases]))
  · obtain ⟨q, k, d, heq⟩ := s.stepWith_eq (mixOf (n / 16)) n
    rw [effect_stepInstr hn, heq]
    exact h

/-- An operation writes one context region at most: a digest region has another size. -/
theorem written_context_unique {i : Instr} {d : Nat} (hc : contextAt c ∈ writtenRegions i) (hd : contextAt d ∈ writtenRegions i) :
    c = d := by
  rcases command_or_step i with ⟨ctx, rfl⟩ | ⟨ctx, ptr, len, rfl⟩ | ⟨ctx, out, rfl⟩ | ⟨n, hn, rfl⟩
  · simp_all [writtenRegions, contextRegion, contextAt]
  · simp_all [writtenRegions, contextRegion, contextAt]
  · simp_all [writtenRegions, contextRegion, contextAt, digestRegion, Config.contextBytes, Config.digestBytes]
  · simp [(stepInstr_used hn).2] at hc

theorem ContextReady.contextOk {ctx : Word} (h : ContextReady s ctx) (hsound : ContextSound t ctx.toNat (t.phaseOf ctx.toNat)) :
    ContextOk t ctx.toNat := ⟨h.1, h.2.1, hsound⟩

/-- INIT leaves its own context with the empty message (R151). -/
theorem initContext_own {ctx : Word} (hr : ContextReady s ctx) : ContextOk (s.initContext ctx) ctx.toNat := by
  obtain ⟨hchain, hcount, -, hphase, -⟩ := s.initContext_spec hr
  refine hr.contextOk ?_
  rw [hphase, if_pos rfl]
  exact ⟨[], represents_nil hchain hcount⟩

/-- INIT retires every other context its own region meets (R64). -/
theorem initContext_other {ctx : Word} (hr : ContextReady s ctx) (hc : (s.initContext ctx).Live c) (hne : c ≠ ctx.toNat) :
    (contextAt c).overlaps (contextRegion ctx) = false := by
  obtain ⟨-, -, -, hphase, -⟩ := s.initContext_spec hr
  rw [State.Live, hphase, if_neg hne] at hc
  exact not_met_of_live hc

/-- ABSORB leaves its own context with the message grown by the span (R152). -/
theorem absorbSpan_own (h : Invariant s) {ctx ptr len : Word} (hr : Ready s (.absorb ctx ptr len)) :
    ContextOk (s.absorbSpan ctx ptr len) ctx.toNat := by
  have hphases := absorbSpan_phases hr
  obtain ⟨hc, hactive, hs⟩ := hr
  obtain ⟨msg, hmsg⟩ := h.represents hactive
  refine hc.contextOk ?_
  rw [State.phaseOf, hphases, ← State.phaseOf, hactive]
  exact ⟨_, s.absorbSpan_represents hc hs hmsg⟩

/-- FINAL leaves its own context with the final state of the message (R161). -/
theorem finalContext_own (h : Invariant s) {ctx out : Word} (hr : Ready s (.final ctx out)) :
    ContextOk (s.finalContext ctx out) ctx.toNat := by
  obtain ⟨-, -, hphase, -⟩ := s.finalContext_spec hr
  obtain ⟨msg, hmsg⟩ := h.represents hr.2.1
  refine hr.1.contextOk ?_
  rw [hphase, if_pos rfl]
  exact ⟨msg, (s.finalContext_digest hr hmsg).1⟩

/-- FINAL retires every other context the digest meets (R64); those that stay live were so before. -/
theorem finalContext_other {ctx out : Word} (hr : Ready s (.final ctx out)) (hc : (s.finalContext ctx out).Live c) (hne : c ≠ ctx.toNat) :
    s.Live c ∧ (contextAt c).overlaps (digestRegion out) = false := by
  obtain ⟨-, -, hphase, -⟩ := s.finalContext_spec hr
  rw [State.Live, hphase, if_neg hne] at hc
  have hclear := not_met_of_live hc
  rw [hclear] at hc
  exact ⟨hc, hclear⟩

/-- A context that is live after an operation is the operation's own and holds what its phase says, or is clear of what the operation wrote:
INIT and FINAL retire the contexts they write over, and no live context meets the Active one of ABSORB or FINAL (R64). -/
theorem effect_live_cases (h : Invariant s) {i : Instr} (hr : Ready s i) (hc : (s.effect i).Live c) :
    (contextAt c ∈ writtenRegions i ∧ ContextOk (s.effect i) c) ∨ ∀ r ∈ writtenRegions i, (contextAt c).overlaps r = false := by
  rcases command_or_step i with ⟨ctx, rfl⟩ | ⟨ctx, ptr, len, rfl⟩ | ⟨ctx, out, rfl⟩ | ⟨n, hn, rfl⟩
  · rcases eq_or_ne c ctx.toNat with rfl | hne
    · exact .inl ⟨List.mem_cons_self, initContext_own hr⟩
    · exact .inr (List.forall_mem_singleton.2 (initContext_other hr hc hne))
  · rcases eq_or_ne c ctx.toNat with rfl | hne
    · exact .inl ⟨List.mem_cons_self, absorbSpan_own h hr⟩
    · rw [State.Live, State.effect, State.phaseOf, absorbSpan_phases hr, ← State.phaseOf] at hc
      exact .inr (List.forall_mem_singleton.2 (h.apart hc (State.live_of_active hr.2.1) hne))
  · rcases eq_or_ne c ctx.toNat with rfl | hne
    · exact .inl ⟨List.mem_cons_self, finalContext_own h hr⟩
    · obtain ⟨hbefore, hdigest⟩ := finalContext_other hr hc hne
      exact .inr (List.forall_mem_cons.2
        ⟨h.apart hbefore (State.live_of_active hr.2.1) hne, List.forall_mem_singleton.2 hdigest⟩)
  · exact .inr (by simp [(stepInstr_used hn).2])

/-- The contexts that are live after an operation are disjoint and hold what their phases say. -/
theorem effect_contextsSound (h : Invariant s) {i : Instr} (hr : Ready s i) : ContextsSound (s.effect i) := by
  refine (contextsSound_iff (effect_phases_wf hr h.phases_wf)).2 ⟨fun c hc => ?_, fun c d hc hd hne => ?_⟩
  · rcases effect_live_cases h hr hc with ⟨-, hok⟩ | hclear
    · exact hok
    · have hkept := effect_untouched hr hclear
      exact hkept.contextOk (h.contextOk (hkept.live hc))
  · rcases effect_live_cases h hr hc, effect_live_cases h hr hd with ⟨⟨hc', -⟩ | hc', ⟨hd', -⟩ | hd'⟩
    · exact absurd (written_context_unique hc' hd') hne
    · rw [Region.overlaps_comm]
      exact hd' _ hc'
    · exact hc' _ hd'
    · exact h.apart ((effect_untouched hr hc').live hc) ((effect_untouched hr hd').live hd) hne

/-- An operation whose preconditions hold keeps the invariant, when it conflicts with no command in progress (R215). -/
theorem Invariant.effect (h : Invariant s) {i : Instr} (hr : Ready s i) (hfree : ∀ j ∈ s.inFlight, conflicts i j = false) :
    Invariant (s.effect i) := by
  have hframe := effect_commits hr
  refine ⟨hframe.wf h.mem_wf, effect_phases_wf hr h.phases_wf, effect_contextsSound h hr, ?_⟩
  have hflight := h.inFlightSound
  rw [InFlightSound, hframe.inFlight]
  exact ⟨hflight.1, fun j hj => (ready_iff_check _ j).1 (hr.after (hflight.ready hj) (hfree j hj))⟩

/-! ### The moves -/

theorem admission_eq_none {i : Instr} : s.admission i = none ↔ ∀ j ∈ s.inFlight, conflicts i j = false := by
  simp [State.admission, State.busyFor]

/-- A command in progress conflicts with none of the others. -/
theorem InFlightSound.eraseIdx_free (h : InFlightSound s) {n : Nat} {i : Instr} (hi : s.inFlight[n]? = some i) :
    ∀ j ∈ s.inFlight.eraseIdx n, conflicts i j = false := by
  intro j hj
  obtain ⟨hn, rfl⟩ := List.getElem?_eq_some_iff.1 hi
  obtain ⟨m, hm, hne, rfl⟩ := List.mem_eraseIdx_iff_getElem.1 hj
  have hpair := List.pairwise_iff_getElem.1 h.1
  rcases Nat.lt_or_gt_of_ne hne with hlt | hlt
  · rw [conflicts_comm]
    exact hpair m n hm hn hlt
  · exact hpair n m hn hm hlt

/-- A running command completes. -/
theorem Invariant.complete (h : Invariant s) {n : Nat} {i : Instr} (hi : s.running[n]? = some i)
    (hr : Ready (s.setInFlight (s.inFlight.eraseIdx n)) i) : Invariant ((s.setInFlight (s.inFlight.eraseIdx n)).effect i) := by
  have hflight := h.inFlightSound
  have hrest : ∀ j ∈ s.inFlight.eraseIdx n, j ∈ s.inFlight := fun j hj => List.mem_of_mem_eraseIdx hj
  refine Invariant.effect (h.setInFlight (hflight.1.sublist (List.eraseIdx_sublist _ n)) fun j hj => ?_) hr ?_
  · exact hflight.ready (hrest j hj)
  · exact hflight.eraseIdx_free (State.inFlight_of_running hi)

/-- A command that conflicts with none in progress is started. -/
theorem Invariant.start (h : Invariant s) {i : Instr} (ha : s.admission i = none) (hr : Ready s i) :
    Invariant (s.setInFlight (s.inFlight ++ [i])) := by
  have hflight := h.inFlightSound
  refine h.setInFlight ?_ fun j hj => ?_
  · refine List.pairwise_append.2 ⟨hflight.1, List.pairwise_singleton _ _, fun j hj k hk => ?_⟩
    rw [List.mem_singleton.1 hk, conflicts_comm]
    exact admission_eq_none.1 ha j hj
  · rcases List.mem_append.1 hj with hj | hj
    · exact hflight.ready hj
    · rwa [List.mem_singleton.1 hj]

/-- A host write clear of the commands in progress retires the contexts it meets and leaves every other alone (R216, R217). -/
theorem Invariant.hostWrite (h : Invariant s) {a : Nat} {bs : List Byte} (hfit : a + bs.length ≤ Config.addressSpace)
    (hbusy : s.busyToWrite ⟨a, bs.length⟩ = false) : Invariant ((s.writeBytes a bs).retire ⟨a, bs.length⟩) := by
  have hphase : ∀ c, (contextAt c).overlaps ⟨a, bs.length⟩ = false →
      ((s.writeBytes a bs).retire ⟨a, bs.length⟩).phaseOf c = s.phaseOf c := fun c hc => by
    rw [State.phaseOf_retire, hc, State.phaseOf, State.writeBytes_phases]
    rfl
  refine h.of_untouched (s.writeBytes_wf h.mem_wf hfit) (Phases.wf_filter _ ?_) (fun c hc => ?_) ?_
  · rw [State.writeBytes_phases]
    exact h.phases_wf
  · have hclear : (contextAt c).overlaps ⟨a, bs.length⟩ = false := by
      rw [State.Live, State.phaseOf_retire] at hc
      exact not_met_of_live hc
    refine ⟨hphase c hclear, fun x h1 h2 => ?_⟩
    rw [State.readByte_retire]
    exact s.readByte_writeBytes_of_outside (Region.holds_eq_false.1 (Region.not_holds_of_apart hclear h1 h2))
  · have hflight := h.inFlightSound
    rw [InFlightSound, State.retire_inFlight, State.writeBytes_inFlight]
    refine ⟨hflight.1, fun j hj => (ready_iff_check _ j).1 ((hflight.ready hj).congr_own ?_ fun ctx hctx => ?_)⟩
    · rw [State.retire_platform, State.writeBytes_platform]
    · refine hphase _ ?_
      rw [State.busyToWrite, List.any_eq_false] at hbusy
      have hclear := anyOverlap_eq_false.1 (Bool.eq_false_iff.2 (hbusy j hj))
      rw [Region.overlaps_comm]
      exact hclear _ (List.mem_singleton.2 rfl) _ hctx

/-- Handing bytes to the host changes nothing the invariant speaks of. -/
theorem Invariant.setHostData (h : Invariant s) (l : List Byte) : Invariant (s.setHostData l) := by
  have hflight := h.inFlightSound
  exact h.of_untouched h.mem_wf h.phases_wf (fun c _ => ⟨rfl, fun _ _ _ => rfl⟩)
    ⟨hflight.1, fun j hj => (ready_iff_check _ j).1 ((hflight.ready hj).congr rfl fun _ => rfl)⟩

/-- After a hardware reset no context is live and no command in progress, so the invariant holds whatever was before (R210). -/
theorem invariant_hardReset (s : State) : Invariant s.hardReset :=
  ⟨rfl, rfl, ⟨nofun, nofun⟩, .nil, nofun⟩

/-- Settles O40: each of the machine's moves keeps the invariant. -/
theorem everyStepKeepsTheInvariant : Obligations.EveryStepKeepsTheInvariant := by
  unfold Obligations.EveryStepKeepsTheInvariant
  intro s t h hstep
  cases step_move hstep with
  | issued d rest i hd hp ha hs hr ht =>
    rw [ht]
    exact (h.setPending rest).effect hr (admission_eq_none.1 ha)
  | started d rest i hd hp ha hr ht =>
    rw [ht]
    exact (h.setPending rest).start ha (hr.congr rfl fun _ => rfl)
  | completed n i u hi hu hr ht =>
    rw [ht]
    rcases hu with ⟨rest, -, rfl⟩ | ⟨-, -, rfl⟩
    · exact (h.setPending rest).complete hi hr
    · exact h.complete hi hr
  | wrote a bs rest hp hf hb ht =>
    rw [ht]
    exact (h.setPending rest).hostWrite hf hb
  | read a n rest hp hf hb ht =>
    rw [ht]
    exact (h.setPending rest).setHostData _
  | wasReset rest hp ht =>
    rw [ht]
    exact invariant_hardReset _
  | ticked rest hp ht =>
    have hsteps : ∀ j, conflicts (decodeStep s.k) j = false := fun j => by
      obtain ⟨hused, hwritten⟩ := stepInstr_used s.k.isLt
      rw [conflicts, decodeStep, hused, hwritten]
      rfl
    rw [ht]
    exact (h.setPending rest).effect (decodeStep_ready _ _) fun j _ => hsteps j
  | rested hp hi ht =>
    rw [ht]
    exact h

end Sys2Proof.Machine
end

section
/-! The commands on main memory (spec/20_memory.md): the frame rule (R61), operands that no state makes good (R62 to R64), and a started
command as the atomic one (R70). -/

namespace Sys2Proof.Machine

variable {s t : State}

/-! ### The frame rule -/

/-- A byte outside the regions is none that an operation writes, when all it writes lies in them. -/
theorem Commits.sameBytesBut {A : Nat → Prop} {rs : List Region} (h : Commits A s t) (hA : ∀ a, A a → ∃ r ∈ rs, r.holds a = true) :
    SameBytesBut rs s t := by
  intro a hout
  refine h.byte a fun ha => ?_
  obtain ⟨r, hr, hin⟩ := hA a ha
  rw [hout r hr] at hin
  cases hin

/-- BASE is no byte of S, CNT or BUF (R56). -/
theorem not_absorbWrites_base {c x : Nat} (h1 : c + 24 ≤ x) (h2 : x < c + 28) : ¬ absorbWrites c x := by
  unfold absorbWrites
  omega

/-- Nor of the digest region, which is clear of the context (R64). -/
theorem DigestReady.not_finalWrites_base {ctx out : Word} (h : DigestReady s ctx out) {x : Nat} (h1 : ctx.toNat + 24 ≤ x)
    (h2 : x < ctx.toNat + 28) : ¬ finalWrites ctx.toNat out.toNat x := by
  have hapart := h.apart
  rintro (hx | hx)
  · exact not_absorbWrites_base h1 h2 hx
  · omega

/-- S, CNT and BUF are the first 24 and the last 64 bytes of a context (R56). -/
theorem absorbWrites_held {c x : Nat} (h : absorbWrites c x) :
    (⟨c, 24⟩ : Region).holds x = true ∨ (⟨c + 28, 64⟩ : Region).holds x = true := by
  rw [Region.holds_iff, Region.holds_iff]
  exact h

theorem Commits.base {A : Nat → Prop} {c : Nat} (h : Commits A s t) (hA : ∀ x, c + 24 ≤ x → x < c + 28 → ¬ A x) :
    t.base c = s.base c :=
  State.readWord_congr (h.readBytes hA)

theorem initContext_frame {ctx : Word} (hr : ContextReady s ctx) : SameBytesBut [⟨ctx.toNat, 92⟩] s (s.initContext ctx) := by
  obtain ⟨-, -, -, -, hframe⟩ := s.initContext_spec hr
  exact hframe.sameBytesBut fun a ha => ⟨_, List.mem_cons_self, Region.holds_iff.2 ha⟩

theorem absorbSpan_frame {ctx ptr len : Word} (hr : Ready s (.absorb ctx ptr len)) :
    SameBytesBut [⟨ctx.toNat, 24⟩, ⟨ctx.toNat + 28, 64⟩] s (s.absorbSpan ctx ptr len) ∧
      (s.absorbSpan ctx ptr len).base ctx.toNat = s.base ctx.toNat ∧
      (s.absorbSpan ctx ptr len).readBytes ptr.toNat len.toNat = s.readBytes ptr.toNat len.toNat := by
  obtain ⟨hc, -, hspan⟩ := hr
  obtain ⟨-, -, -, hframe, -⟩ := s.absorbSpan_spec hc.fits hspan.clear
  refine ⟨hframe.commits.sameBytesBut fun a ha => ?_, hframe.commits.base fun x => not_absorbWrites_base, ?_⟩
  · simpa using absorbWrites_held ha
  · refine readBytes_span hframe hspan.clear fun a ha => ?_
    unfold absorbWrites at ha
    omega

theorem finalContext_frame {ctx out : Word} (hr : Ready s (.final ctx out)) :
    SameBytesBut [⟨ctx.toNat, 24⟩, ⟨ctx.toNat + 28, 64⟩, ⟨out.toNat, 16⟩] s (s.finalContext ctx out) ∧
      (s.finalContext ctx out).base ctx.toNat = s.base ctx.toNat := by
  obtain ⟨-, -, -, hframe⟩ := s.finalContext_spec hr
  obtain ⟨-, -, hdigest⟩ := hr
  refine ⟨hframe.sameBytesBut fun a ha => ?_, hframe.base fun x => hdigest.not_finalWrites_base⟩
  rcases ha with ha | ha
  · rcases absorbWrites_held ha with h | h
    · exact ⟨_, by simp, h⟩
    · exact ⟨_, by simp, h⟩
  · exact ⟨⟨out.toNat, 16⟩, by simp, Region.holds_iff.2 ha⟩

/-- Settles O25: a command that answers takes its effect, whose specification names the addresses it writes. -/
theorem commandsWriteOnlyTheirRegions : Obligations.CommandsWriteOnlyTheirRegions := by
  unfold Obligations.CommandsWriteOnlyTheirRegions
  refine ⟨fun s t ctx h => ?_, fun s t ctx ptr len h => ?_, fun s t ctx out h => ?_, fun s c block a hout => ?_⟩
  · obtain ⟨hr, rfl⟩ := exec_eq_next.1 h
    exact initContext_frame hr
  · obtain ⟨hr, rfl⟩ := exec_eq_next.1 h
    exact absorbSpan_frame hr
  · obtain ⟨hr, rfl⟩ := exec_eq_next.1 h
    exact finalContext_frame hr
  · exact State.readByte_compress_of_outside s block (Region.holds_eq_false.1 (hout _ List.mem_cons_self))

/-! ### Ill-formed operands -/

theorem wellFormed_aligned_one (r : Word) : WellFormed.aligned 1 r = true := by
  simp [WellFormed.aligned, Nat.mod_one]

theorem wellFormed_fits_iff {r : Word} {n : Nat} : WellFormed.fits r n = true ↔ r.toNat + n ≤ Config.addressSpace :=
  decide_eq_true_iff

theorem wellFormed_apart_iff {x y : Word} {n m : Nat} :
    WellFormed.apart x n y m = true ↔ x.toNat + n ≤ y.toNat ∨ y.toNat + m ≤ x.toNat := by
  simp [WellFormed.apart]

theorem ContextReady.wellFormed {ctx : Word} (h : ContextReady s ctx) : WellFormed.context ctx = true := by
  have hfits := wellFormed_fits_iff.2 h.fits
  obtain ⟨haligned, -⟩ := h
  rw [WellFormed.context, Bool.and_eq_true]
  exact ⟨beq_iff_eq.2 haligned, hfits⟩

/-- The preconditions hold in no state unless the operands are in order (R62 to R64). -/
theorem Ready.wellFormed {i : Instr} (h : Ready s i) : i.wellFormed = true := by
  rcases command_or_step i with ⟨ctx, rfl⟩ | ⟨ctx, ptr, len, rfl⟩ | ⟨ctx, out, rfl⟩ | ⟨n, hn, rfl⟩
  · exact ContextReady.wellFormed h
  · obtain ⟨hc, -, hspan⟩ := h
    have hclear := hspan.clear
    simp only [Instr.wellFormed, Bool.and_eq_true, Bool.or_eq_true, beq_iff_eq, wellFormed_fits_iff, wellFormed_apart_iff]
    refine ⟨hc.wellFormed, ?_⟩
    rcases hspan with rfl | ⟨⟨hfits, -⟩, -⟩
    · exact .inl rfl
    · exact hclear.imp id fun hapart => ⟨⟨wellFormed_aligned_one ptr, hfits⟩, hapart.symm⟩
  · obtain ⟨hc, -, hdigest⟩ := h
    simp only [Instr.wellFormed, Bool.and_eq_true, wellFormed_fits_iff, wellFormed_apart_iff]
    exact ⟨⟨⟨hc.wellFormed, wellFormed_aligned_one out⟩, hdigest.fits⟩, hdigest.apart.symm⟩
  · interval_cases n <;> rfl

/-- An operation whose preconditions do not hold is refused: none faults (R190). -/
theorem exec_refused_of_not_ready {i : Instr} (h : ¬ Ready s i) : ∃ v, exec i s = .refused v := by
  rw [ready_iff_check] at h
  obtain ⟨v, hv⟩ := Option.ne_none_iff_exists'.1 h
  exact ⟨v, by rw [exec_eq_guarded, hv]; rfl⟩

/-- Settles O30: the preconditions of an instruction with ill-formed operands hold in no state. -/
theorem illFormedOperandsNeverRun : Obligations.IllFormedOperandsNeverRun := by
  unfold Obligations.IllFormedOperandsNeverRun
  intro i hill s
  refine exec_refused_of_not_ready fun hr => ?_
  rw [hr.wellFormed] at hill
  cases hill

/-! ### A started command and the atomic one -/

theorem validRegion_setPending (s : State) (l : List Input) (r : Region) : (s.setPending l).validRegion r = s.validRegion r := by
  rw [Bool.eq_iff_iff, State.validRegion_iff, State.validRegion_iff]
  rfl

/-- The checks do not look at the inputs to come. -/
theorem check_setPending (s : State) (l : List Input) (i : Instr) : (s.setPending l).check i = s.check i := by
  have hctx : ∀ ctx, (s.setPending l).checkContext ctx = s.checkContext ctx := fun ctx => by
    rw [State.checkContext, validRegion_setPending]; rfl
  have hother : ∀ ctx align ref r, (s.setPending l).checkOther ctx align ref r = s.checkOther ctx align ref r :=
    fun ctx align ref r => by rw [State.checkOther, validRegion_setPending]; rfl
  have hphase : ∀ ctx, (s.setPending l).checkPhase ctx = s.checkPhase ctx := fun _ => rfl
  rcases command_or_step i with ⟨ctx, rfl⟩ | ⟨ctx, ptr, len, rfl⟩ | ⟨ctx, out, rfl⟩ | ⟨n, hn, rfl⟩
  · exact hctx ctx
  · simp only [State.check, State.checkAbsorb, hctx, hother, hphase]
  · simp only [State.check, State.checkFinal, hctx, hother, hphase]
  · interval_cases n <;> rfl

theorem stepTimes_succ_of_next {n : Nat} (h : step s = .next t) : stepTimes (n + 1) s = stepTimes n t := by
  rw [stepTimes, h]

theorem stepTimes_succ_of_refused {n : Nat} {v : Refusal} (h : step s = .refused v) : stepTimes (n + 1) s = .refused v := by
  rw [stepTimes, h]

theorem stepTimes_one (s : State) : stepTimes 1 s = step s := by
  rw [stepTimes]
  cases step s <;> rfl

theorem admission_of_idle (h : s.inFlight = []) (i : Instr) : s.admission i = none :=
  admission_eq_none.2 (by simp [h])

theorem step_start (s : State) (d : Descriptor) (l : List Input) : step (s.setPending (.start d :: l)) = (s.setPending l).start d := rfl
theorem step_issue (s : State) (d : Descriptor) (l : List Input) : step (s.setPending (.issue d :: l)) = (s.setPending l).issue d := rfl

/-- With no command in progress an issued command runs at once. -/
theorem issue_of_idle {d : Descriptor} {i : Instr} (hidle : s.inFlight = []) (hd : decodeDescriptor d = .ok i) :
    s.issue d = exec i s := by
  have hengine : s.hasIdleEngine = true := by simp [State.hasIdleEngine, hidle]
  simp only [State.issue, hd, admission_of_idle hidle, hengine, if_true]

/-- With no command in progress a started command is checked and is then the only one. -/
theorem start_of_idle {d : Descriptor} {i : Instr} (hidle : s.inFlight = []) (hd : decodeDescriptor d = .ok i) :
    s.start d = guarded (s.check i) (s.setInFlight [i]) := by
  simp only [State.start, hd, admission_of_idle hidle, hidle, Option.none_or, List.nil_append]

/-- The only command in progress, on completing, is run in the state without it. -/
theorem step_complete_only (s : State) (i : Instr) (l : List Input) :
    step ((s.setPending (.complete 0 :: l)).setInFlight [i]) = exec i ((s.setPending l).setInFlight []) := rfl

theorem State.setInFlight_self {l : List Instr} (h : s.inFlight = l) : s.setInFlight l = s := by
  subst h; rfl

/-- Settles O36: a refused descriptor or precondition is refused at the start already; otherwise the completion runs the command in the state
the issue would have run it in. -/
theorem startThenCompleteIsTheAtomicCommand : Obligations.StartThenCompleteIsTheAtomicCommand := by
  unfold Obligations.StartThenCompleteIsTheAtomicCommand
  intro s d rest hidle
  have hidle' : ∀ l, (s.setPending l).inFlight = [] := fun _ => hidle
  have hstart := step_start s d (.complete 0 :: rest)
  rw [step_issue]
  cases hd : decodeDescriptor d with
  | error e =>
    have hrefused : ∀ l, (s.setPending l).start d = .refused .reservedDescriptor := fun l => by simp only [State.start, hd]
    rw [stepTimes_succ_of_refused (hstart.trans (hrefused _))]
    simp only [State.issue, hd]
  | ok i =>
    rw [start_of_idle (hidle' _) hd, check_setPending] at hstart
    rw [issue_of_idle (hidle' _) hd]
    cases hc : s.check i with
    | some v =>
      rw [hc] at hstart
      rw [stepTimes_succ_of_refused hstart, exec_eq_guarded, check_setPending, hc]
      rfl
    | none =>
      rw [hc] at hstart
      rw [stepTimes_succ_of_next hstart, stepTimes_one, step_complete_only, State.setInFlight_self (hidle' _)]

end Sys2Proof.Machine
end

section
/-! Two operations that do not conflict commute (spec/20_memory.md R71): each leaves the bytes and the phase the other looks at, and every
byte and phase an operation gives a value to is a function of those. -/

namespace Sys2Proof.Machine

variable {s t : State} {i j : Instr}

/-! ### Equal fields of a context are equal bytes -/

theorem readByte_of_readBytes {a n x : Nat} (h : t.readBytes a n = s.readBytes a n) (h1 : a ≤ x) (h2 : x < a + n) :
    t.readByte x = s.readByte x := by
  obtain ⟨k, rfl⟩ := Nat.exists_eq_add_of_le h1
  have hk : ∀ u : State, u.readByte (a + k) = (u.readBytes a n)[k]'(by simp; omega) := fun u => by simp
  simp only [hk, h]

theorem readByte_of_chain {c x : Nat} (h : t.chain c = s.chain c) (h1 : c ≤ x) (h2 : x < c + 16) : t.readByte x = s.readByte x :=
  readByte_of_readBytes (n := 16) (by rw [← State.quadBytes_chain, ← State.quadBytes_chain, h]) h1 h2

theorem readByte_of_count {c x : Nat} (h : t.count c = s.count c) (h1 : c + 16 ≤ x) (h2 : x < c + 24) : t.readByte x = s.readByte x :=
  readByte_of_readBytes (a := c + countOffset) (n := 8) (by rw [← State.le64_count, ← State.le64_count, h]) h1 h2

theorem readByte_of_buffer {c n x : Nat} (h : t.buffer c 0 n = s.buffer c 0 n) (h1 : c + 28 ≤ x) (h2 : x < c + 28 + n) :
    t.readByte x = s.readByte x :=
  readByte_of_readBytes h h1 h2

/-! ### Two states that agree on what an operation uses -/

/-- Every byte of the regions reads in `t` as in `s`. -/
def AgreeOn (rs : List Region) (s t : State) : Prop := ∀ r ∈ rs, ∀ x, r.holds x = true → t.readByte x = s.readByte x

theorem AgreeOn.readByte {rs : List Region} (h : AgreeOn rs s t) {a n x : Nat} (hr : ⟨a, n⟩ ∈ rs) (h1 : a ≤ x) (h2 : x < a + n) :
    t.readByte x = s.readByte x :=
  h _ hr x (Region.holds_iff.2 ⟨h1, h2⟩)

theorem AgreeOn.readBytes {rs : List Region} (h : AgreeOn rs s t) {a n b m : Nat} (hr : ⟨a, n⟩ ∈ rs) (h1 : a ≤ b) (h2 : b + m ≤ a + n) :
    t.readBytes b m = s.readBytes b m :=
  State.readBytes_congr fun k hk => h.readByte hr (by omega) (by omega)

/-- A context in the regions has one abstract value in both states (R26). -/
theorem AgreeOn.sameAbstractValue {rs : List Region} {ctx : Word} (h : AgreeOn rs s t) (hr : contextRegion ctx ∈ rs) :
    SameAbstractValue s ctx.toNat t ctx.toNat := by
  have hfill := fillOf_lt (s.count ctx.toNat)
  have hcount : t.count ctx.toNat = s.count ctx.toNat :=
    State.count_congr (h.readBytes hr (by simp only [countOffset]; omega) (by simp only [countOffset, Config.contextBytes]; omega))
  refine ⟨State.chain_congr (h.readBytes hr (by omega) (by simp only [Config.contextBytes]; omega)), hcount, ?_⟩
  rw [State.fillLevel, State.fillLevel, hcount]
  exact h.readBytes hr (by simp only [bufferOffset]; omega)
    (by simp only [bufferOffset, Config.headerBytes, Config.contextBytes]; omega)

/-- INIT reads nothing: the 88 bytes it gives a value to are the same from any two states (R151). -/
theorem initContext_byte {ctx : Word} (hs : ContextReady s ctx) (ht : ContextReady t ctx) {x : Nat}
    (hin : (contextRegion ctx).holds x = true) (hout : (baseField ctx.toNat).holds x = false) :
    (t.initContext ctx).readByte x = (s.initContext ctx).readByte x := by
  obtain ⟨hchain, hcount, hbuffer, -⟩ := s.initContext_spec hs
  obtain ⟨hchain', hcount', hbuffer', -⟩ := t.initContext_spec ht
  rw [Region.holds_iff] at hin
  rw [Region.holds_eq_false] at hout
  simp only [contextRegion, contextAt, Config.contextBytes] at hin
  simp only [baseField, baseOffset] at hout
  rcases show x < ctx.toNat + 16 ∨ (ctx.toNat + 16 ≤ x ∧ x < ctx.toNat + 24) ∨ ctx.toNat + 28 ≤ x by omega with h | h | h
  · exact readByte_of_chain (hchain'.trans hchain.symm) hin.1 h
  · exact readByte_of_count (hcount'.trans hcount.symm) h.1 h.2
  · exact readByte_of_buffer (hbuffer'.trans hbuffer.symm) h hin.2

/-- ABSORB gives every byte of its context below the new fill level a value that depends on its context and span alone (R152). -/
theorem absorbSpan_byte {ctx ptr len : Word} (hs : Ready s (.absorb ctx ptr len)) (ht : Ready t (.absorb ctx ptr len))
    (hused : AgreeOn (usedRegions (.absorb ctx ptr len)) s t) {x : Nat} (hin : (contextRegion ctx).holds x = true)
    (hout : (bufferFrom ctx.toNat ((s.fillLevel ctx.toNat + len.toNat) % 64)).holds x = false) :
    (t.absorbSpan ctx ptr len).readByte x = (s.absorbSpan ctx ptr len).readByte x := by
  have hspan : s.readBytes ptr.toNat len.toNat = t.readBytes ptr.toNat len.toNat :=
    (hused.readBytes (List.mem_cons_of_mem _ (List.mem_singleton.2 rfl)) le_rfl le_rfl).symm
  obtain ⟨hchain, hcount, hbuffer⟩ :=
    (hused.sameAbstractValue (List.mem_cons_self (a := contextRegion ctx))).absorbSpan hs ht hspan
  obtain ⟨hsc, -, hss⟩ := hs
  obtain ⟨htc, -, hts⟩ := ht
  obtain ⟨-, hcount', -, hframe, -⟩ := s.absorbSpan_spec hsc.fits hss.clear
  obtain ⟨-, -, -, hframe', -⟩ := t.absorbSpan_spec htc.fits hts.clear
  rw [State.fillLevel, State.fillLevel, hcount, hcount', fillOf_countAfter] at hbuffer
  obtain ⟨hfrom, hfits⟩ : ctx.toNat ≤ x ∧ x < ctx.toNat + 92 := Region.holds_iff.1 hin
  rw [Region.holds_eq_false] at hout
  simp only [bufferFrom, bufferOffset, Config.headerBytes, State.fillLevel] at hout
  rcases show x < ctx.toNat + 16 ∨ (ctx.toNat + 16 ≤ x ∧ x < ctx.toNat + 24) ∨ (ctx.toNat + 24 ≤ x ∧ x < ctx.toNat + 28) ∨
    ctx.toNat + 28 ≤ x by omega with h | h | h | h
  · exact readByte_of_chain hchain hfrom h
  · exact readByte_of_count hcount h.1 h.2
  · have hbase := not_absorbWrites_base h.1 h.2
    rw [hframe.byte x hbase, hframe'.byte x hbase]
    exact hused.readByte List.mem_cons_self hfrom hfits
  · exact readByte_of_buffer hbuffer h (by omega)

/-- FINAL gives S and the digest values that depend on its context alone, and keeps BASE (R161, R163). -/
theorem finalContext_byte {ctx out : Word} (hs : Ready s (.final ctx out)) (ht : Ready t (.final ctx out))
    (hused : AgreeOn (usedRegions (.final ctx out)) s t) {x : Nat}
    (hin : (contextRegion ctx).holds x = true ∨ (digestRegion out).holds x = true)
    (hout : ∀ r ∈ anyValueRegions s (.final ctx out), r.holds x = false) :
    (t.finalContext ctx out).readByte x = (s.finalContext ctx out).readByte x := by
  have hdigest := (hused.sameAbstractValue (List.mem_cons_self (a := contextRegion ctx))).finalContext hs ht
  obtain ⟨-, hcopy, -, hframe⟩ := s.finalContext_spec hs
  obtain ⟨-, hcopy', -, hframe'⟩ := t.finalContext_spec ht
  obtain ⟨-, -, hdigestReady⟩ := hs
  have hcount := hout (countField ctx.toNat) List.mem_cons_self
  have hbuffer := hout (bufferField ctx.toNat) (List.mem_cons_of_mem _ List.mem_cons_self)
  rw [Region.holds_eq_false] at hcount hbuffer
  simp only [countField, countOffset] at hcount
  simp only [bufferField, bufferOffset, Config.headerBytes] at hbuffer
  rcases hin with hin | hin
  · obtain ⟨hfrom, hfits⟩ : ctx.toNat ≤ x ∧ x < ctx.toNat + 92 := Region.holds_iff.1 hin
    rcases show x < ctx.toNat + 16 ∨ (ctx.toNat + 24 ≤ x ∧ x < ctx.toNat + 28) by omega with h | h
    · refine readByte_of_readBytes ?_ hfrom h
      rw [← State.quadBytes_chain, ← State.quadBytes_chain, ← hcopy, ← hcopy', hdigest]
    · have hbase := hdigestReady.not_finalWrites_base h.1 h.2
      rw [hframe.byte x hbase, hframe'.byte x hbase]
      exact hused.readByte List.mem_cons_self hfrom hfits
  · exact readByte_of_readBytes hdigest.symm (Region.holds_iff.1 hin).1 (Region.holds_iff.1 hin).2

/-- From two states that agree on what it uses, an operation gives every byte it writes the same value, but for those it leaves at any
value. -/
theorem effect_byte (hs : Ready s i) (ht : Ready t i) (hused : AgreeOn (usedRegions i) s t) {x : Nat} (hin : mayWrite i x)
    (hout : ∀ r ∈ anyValueRegions s i, r.holds x = false) : (t.effect i).readByte x = (s.effect i).readByte x := by
  obtain ⟨r, hr, hx⟩ := hin
  rcases command_or_step i with ⟨ctx, rfl⟩ | ⟨ctx, ptr, len, rfl⟩ | ⟨ctx, out, rfl⟩ | ⟨n, hn, rfl⟩
  · rw [List.mem_singleton.1 hr] at hx
    exact initContext_byte hs ht hx (hout _ List.mem_cons_self)
  · rw [List.mem_singleton.1 hr] at hx
    exact absorbSpan_byte hs ht hused hx (hout _ List.mem_cons_self)
  · refine finalContext_byte hs ht hused ?_ hout
    rcases List.mem_cons.1 hr with rfl | hr
    · exact .inl hx
    · rw [List.mem_singleton.1 hr] at hx
      exact .inr hx
  · rw [(stepInstr_used hn).2] at hr
    cases hr

/-! ### What an operation leaves to one it does not conflict with -/

theorem conflicts_eq_false : conflicts i j = false ↔
    (∀ r ∈ writtenRegions i, ∀ q ∈ usedRegions j, r.overlaps q = false) ∧
      ∀ r ∈ usedRegions i, ∀ q ∈ writtenRegions j, r.overlaps q = false := by
  rw [conflicts, Bool.or_eq_false_iff, anyOverlap_eq_false, anyOverlap_eq_false]

theorem conflicts_symm (h : conflicts i j = false) : conflicts j i = false := by
  rwa [conflicts_comm]

/-- An operation uses what it writes. -/
theorem writtenRegions_subset (i : Instr) : writtenRegions i ⊆ usedRegions i := by
  rcases command_or_step i with ⟨ctx, rfl⟩ | ⟨ctx, ptr, len, rfl⟩ | ⟨ctx, out, rfl⟩ | ⟨n, hn, rfl⟩
  · exact List.Subset.refl _
  · simp [usedRegions, writtenRegions]
  · exact List.Subset.refl _
  · rw [(stepInstr_used hn).2]
    exact List.nil_subset _

/-- A byte that one of the operations uses is none the other writes (R71). -/
theorem not_mayWrite_of_used (hc : conflicts i j = false) {r : Region} (hr : r ∈ usedRegions i) {x : Nat} (hx : r.holds x = true) :
    ¬ mayWrite j x := by
  rintro ⟨q, hq, hxq⟩
  have hapart := Region.overlaps_eq_false.1 ((conflicts_eq_false.1 hc).2 r hr q hq)
  rw [Region.holds_iff] at hx hxq
  omega

theorem agreeOn_effect (hj : Ready s j) (hc : conflicts i j = false) : AgreeOn (usedRegions i) s (s.effect j) :=
  fun _ hr x hx => (effect_commits hj).byte x (not_mayWrite_of_used hc hr hx)

/-- The preconditions of an operation held before one it does not conflict with, when they hold after it. -/
theorem Ready.before (hi : Ready s i) (hj : Ready (s.effect i) j) (hc : conflicts i j = false) : Ready s j := by
  refine hj.congr_own (effect_commits hi).platform.symm fun ctx hctx => (effect_phase_of_apart hi fun r hr => ?_).symm
  rw [Region.overlaps_comm]
  exact (conflicts_eq_false.1 hc).1 r hr _ hctx

/-- A byte that `i` writes is the same in both orders, unless `i` leaves it at any value. -/
theorem effect_comm_byte_of_mayWrite (hi : Ready s i) (hj : Ready s j) (hc : conflicts i j = false) {x : Nat} (hx : mayWrite i x)
    (hout : ∀ r ∈ anyValueRegions s i, r.holds x = false) :
    ((s.effect j).effect i).readByte x = ((s.effect i).effect j).readByte x := by
  have hc' := conflicts_symm hc
  have hkept : ¬ mayWrite j x := by
    obtain ⟨r, hr, hin⟩ := hx
    exact not_mayWrite_of_used hc (writtenRegions_subset i hr) hin
  calc ((s.effect j).effect i).readByte x = (s.effect i).readByte x :=
        effect_byte hi (hj.after hi hc') (agreeOn_effect hj hc) hx hout
    _ = ((s.effect i).effect j).readByte x := ((effect_commits (hi.after hj hc)).byte x hkept).symm

/-- The bytes after the two operations do not depend on their order, but for those they leave at any value. -/
theorem effect_comm_bytes (hi : Ready s i) (hj : Ready s j) (hc : conflicts i j = false) :
    SameBytesBut (anyValueRegions s i ++ anyValueRegions s j) ((s.effect i).effect j) ((s.effect j).effect i) := by
  have hc' := conflicts_symm hc
  intro x hout
  by_cases hxi : mayWrite i x
  · exact effect_comm_byte_of_mayWrite hi hj hc hxi fun r hr => hout r (List.mem_append_left _ hr)
  · by_cases hxj : mayWrite j x
    · exact (effect_comm_byte_of_mayWrite hj hi hc' hxj fun r hr => hout r (List.mem_append_right _ hr)).symm
    · rw [(effect_commits (hj.after hi hc')).byte x hxi, (effect_commits hj).byte x hxj,
        (effect_commits (hi.after hj hc)).byte x hxj, (effect_commits hi).byte x hxi]

/-! ### The phases -/

/-- What an operation does to the phase of the context at `c`, from whatever state: it gives the context one and the same phase, which is
Uninitialized unless the operation writes that context, or it leaves the phase. -/
def PhaseSetOrKept (i : Instr) (c : Nat) : Prop :=
  (∃ p, (contextAt c ∈ writtenRegions i ∨ p = .uninitialized) ∧ ∀ s, Ready s i → (s.effect i).phaseOf c = p) ∨
    ∀ s, Ready s i → (s.effect i).phaseOf c = s.phaseOf c

/-- INIT and FINAL set the phase of their own context and retire the others a region of theirs meets. -/
theorem phaseSetOrKept_of_retires {own : Nat} {r : Region} {p : Phase} (hown : contextAt own ∈ writtenRegions i) {c : Nat}
    (h : ∀ s, Ready s i → (s.effect i).phaseOf c =
      if c = own then p else if (contextAt c).overlaps r then .uninitialized else s.phaseOf c) : PhaseSetOrKept i c := by
  split_ifs at h with hself hmet
  · exact .inl ⟨p, .inl (hself ▸ hown), h⟩
  · exact .inl ⟨.uninitialized, .inr rfl, h⟩
  · exact .inr h

theorem phaseSetOrKept (i : Instr) (c : Nat) : PhaseSetOrKept i c := by
  rcases command_or_step i with ⟨ctx, rfl⟩ | ⟨ctx, ptr, len, rfl⟩ | ⟨ctx, out, rfl⟩ | ⟨n, hn, rfl⟩
  · refine phaseSetOrKept_of_retires (r := contextRegion ctx) (p := .active) List.mem_cons_self fun s hr => ?_
    obtain ⟨-, -, -, hphase, -⟩ := s.initContext_spec hr
    exact hphase c
  · refine .inr fun s hr => ?_
    rw [State.effect, State.phaseOf, absorbSpan_phases hr, ← State.phaseOf]
  · refine phaseSetOrKept_of_retires (r := digestRegion out) (p := .finalized) List.mem_cons_self fun s hr => ?_
    obtain ⟨-, -, hphase, -⟩ := s.finalContext_spec hr
    exact hphase c
  · exact .inr fun s _ => by rw [effect_stepInstr hn, phaseOf_stepWith]

/-- A context that `i` writes keeps through `j` the phase `i` gave it. -/
theorem effect_phase_of_written (hi : Ready s i) (hj : Ready s j) (hc : conflicts i j = false) {c : Nat}
    (hw : contextAt c ∈ writtenRegions i) : ((s.effect i).effect j).phaseOf c = (s.effect i).phaseOf c :=
  effect_phase_of_apart (hi.after hj hc) fun r hr => (conflicts_eq_false.1 hc).2 _ (writtenRegions_subset i hw) r hr

/-- The phases after the two operations do not depend on their order. -/
theorem effect_comm_phase (hi : Ready s i) (hj : Ready s j) (hc : conflicts i j = false) (c : Nat) :
    ((s.effect j).effect i).phaseOf c = ((s.effect i).effect j).phaseOf c := by
  have hc' := conflicts_symm hc
  have hij := hi.after hj hc
  have hji := hj.after hi hc'
  rcases phaseSetOrKept i c, phaseSetOrKept j c with ⟨⟨p, hp, hsi⟩ | hki, ⟨q, hq, hsj⟩ | hkj⟩
  · rw [hsi _ hji, hsj _ hij]
    rcases hp with hp | rfl
    · rw [← hsi s hi, ← hsj _ hij]
      exact (effect_phase_of_written hi hj hc hp).symm
    · rcases hq with hq | rfl
      · rw [← hsj s hj, ← hsi _ hji]
        exact effect_phase_of_written hj hi hc' hq
      · rfl
  · rw [hsi _ hji, hkj _ hij, hsi s hi]
  · rw [hki _ hji, hsj _ hij, hsj s hj]
  · rw [hki _ hji, hkj _ hij, hki s hi, hkj s hj]

/-- Settles O47: the other order completes as well, since neither operation touches a precondition of the other, and leaves the same phases and
bytes. -/
theorem nonConflictingCommandsCommute : Obligations.NonConflictingCommandsCommute := by
  unfold Obligations.NonConflictingCommandsCommute
  intro s t u i j hc ht hu
  obtain ⟨hi, rfl⟩ := exec_eq_next.1 ht
  obtain ⟨hj', rfl⟩ := exec_eq_next.1 hu
  have hj := hi.before hj' hc
  have hi' : Ready (s.effect j) i := hj.after hi (conflicts_symm hc)
  exact ⟨_, _, exec_of_ready hj, exec_of_ready hi', effect_comm_phase hi hj hc, effect_comm_bytes hi hj hc⟩

end Sys2Proof.Machine
end

section
/-! The decoder and the encoder as inverses, the decoder on stored bytes and on the words of the opcode table, and the reserved
descriptors (spec/30_encoding.md R81 to R85). -/

namespace Sys2Proof

variable {d : Descriptor} {i : Instr}

/-! ### Step indices (R85) -/

theorem encode_stepInstr {n : Nat} (h : n < 64) : encode (stepInstr n) = .stepIndex (BitVec.ofNat 6 n) := by
  interval_cases n <;> rfl

theorem encode_decodeStep (k : StepIndex) : encode (decodeStep k) = .stepIndex k := by
  rw [decodeStep, encode_stepInstr k.isLt, BitVec.ofNat_toNat, BitVec.setWidth_eq]

theorem decodeStep_ofNat {n : Nat} (h : n < 64) : decodeStep (BitVec.ofNat 6 n) = stepInstr n := by
  rw [decodeStep, BitVec.toNat_ofNat, Nat.mod_eq_of_lt h]

/-- No two indices select the same step. -/
theorem decodeStep_injective {k l : StepIndex} (h : decodeStep k = decodeStep l) : k = l := by
  have hcode := congrArg encode h
  rw [encode_decodeStep, encode_decodeStep] at hcode
  exact Code.stepIndex.inj hcode

/-- The index {r, j} as a number. -/
theorem stepIndex_append_toNat (r : BitVec 2) (j : BitVec 4) : (r ++ j).toNat = 16 * r.toNat + j.toNat := by
  rw [BitVec.toNat_append, ← Nat.shiftLeft_add_eq_or_of_lt j.isLt, Nat.shiftLeft_eq, Nat.mul_comm]

/-! ### Descriptors (R81, R82, R84) -/

theorem Descriptor.op_eq (d : Descriptor) (n : BitVec 2) : d.op = n ↔ d.w0.toNat % 4 = n.toNat := by
  rw [← d.op_toNat, BitVec.toNat_inj]

/-- Without reserved bits W0 is its OP. -/
theorem Descriptor.w0_eq (hrsv : d.rsv = 0) {n : BitVec 2} (hop : d.op = n) : d.w0 = n.setWidth 32 := by
  rw [d.rsv_eq_zero] at hrsv
  rw [d.op_eq] at hop
  apply BitVec.eq_of_toNat_eq
  rw [BitVec.toNat_setWidth_of_le (by decide)]
  omega

/-- A descriptor the decoder accepts has in W0 the OP of its command alone, and zeros in the words the command does not use. -/
theorem encode_of_decodeDescriptor (h : decodeDescriptor d = .ok i) : encode i = .command d := by
  obtain ⟨w0, w1, w2, w3⟩ := d
  unfold decodeDescriptor at h
  split_ifs at h with hrsv hinit harg habsorb hfinal harg <;> obtain rfl := Except.ok.inj h
  · have hw0 : w0 = 0 := Descriptor.w0_eq (not_not.1 hrsv) hinit
    obtain ⟨rfl, rfl⟩ : w2 = 0 ∧ w3 = 0 := by simpa using harg
    rw [hw0]; rfl
  · have hw0 : w0 = 1 := Descriptor.w0_eq (not_not.1 hrsv) habsorb
    rw [hw0]; rfl
  · have hw0 : w0 = 2 := Descriptor.w0_eq (not_not.1 hrsv) hfinal
    obtain rfl : w3 = 0 := not_not.1 harg
    rw [hw0]; rfl

theorem decodeDescriptor_eq_error_iff : (∃ e, decodeDescriptor d = .error e) ↔
    d.w0.toNat % 4 = 3 ∨ d.w0.toNat / 4 ≠ 0 ∨ (d.w0.toNat % 4 = 0 ∧ (d.w2 ≠ 0 ∨ d.w3 ≠ 0)) ∨ (d.w0.toNat % 4 = 2 ∧ d.w3 ≠ 0) := by
  simp only [decodeDescriptor, ne_eq, d.rsv_eq_zero, d.op_eq, BitVec.reduceToNat]
  split_ifs with hrsv hinit harg habsorb hfinal harg
  · exact iff_of_true ⟨_, rfl⟩ (.inr (.inr (.inl ⟨hinit, harg⟩)))
  · exact iff_of_false nofun (by grind)
  · exact iff_of_false nofun (by omega)
  · exact iff_of_false nofun (by grind)
  · exact iff_of_true ⟨_, rfl⟩ (.inr (.inr (.inr ⟨hfinal, harg⟩)))
  · exact iff_of_true ⟨_, rfl⟩ (.inl (by omega))
  · exact iff_of_true ⟨_, rfl⟩ (.inr (.inl hrsv))

/-! ### The decoder against the encoder -/

theorem decode_encode (i : Instr) : decode (encode i) = .ok i := by
  rcases Machine.command_or_step i with ⟨ctx, rfl⟩ | ⟨ctx, ptr, len, rfl⟩ | ⟨ctx, out, rfl⟩ | ⟨n, hn, rfl⟩
  · simp [encode, decode, decodeDescriptor, Descriptor.op, Descriptor.rsv]
  · simp [encode, decode, decodeDescriptor, Descriptor.op, Descriptor.rsv]
  · simp [encode, decode, decodeDescriptor, Descriptor.op, Descriptor.rsv]
  · rw [encode_stepInstr hn, decode, decodeStep_ofNat hn]

/-- A word decodes to an instruction when it is the encoding of that instruction, and only then. -/
theorem decode_eq_ok {c : Code} : decode c = .ok i ↔ encode i = c := by
  refine ⟨fun h => ?_, fun h => h ▸ decode_encode i⟩
  cases c with
  | command d => exact encode_of_decodeDescriptor h
  | stepIndex k =>
    obtain rfl := Except.ok.inj h
    exact encode_decodeStep k

theorem decodeDescriptor_eq_ok : decodeDescriptor d = .ok i ↔ encode i = .command d := decode_eq_ok (c := .command d)

/-- The decoder of bytes reads an instruction from the 16 bytes of its descriptor, and only from these. -/
theorem decodeBytes_eq_ok {bs rest : List Byte} :
    decodeBytes bs = .ok (i, rest) ↔ ∃ d, encode i = .command d ∧ bs = d.bytes ++ rest := by
  constructor
  · intro h
    unfold decodeBytes at h
    split at h
    · cases h
    · next d r htake =>
      split at h
      · cases h
      · next j hd =>
        obtain ⟨rfl, rfl⟩ := Prod.mk.inj (Except.ok.inj h)
        exact ⟨d, decodeDescriptor_eq_ok.1 hd, bytes_of_takeDescriptor htake⟩
  · rintro ⟨d, hd, rfl⟩
    simp only [decodeBytes, takeDescriptor_bytes, decodeDescriptor_eq_ok.2 hd]

/-! ### The words of the opcode table -/

/-- A narrow word is a step index, which must fit 6 bits (R85). -/
theorem decodeTableWord_eq_some_of_narrow {nbits : Nat} (h : nbits < 32) (w : Nat) :
    decodeTableWord nbits w = some i ↔ w < 64 ∧ decodeStep (BitVec.ofNat 6 w) = i := by
  rw [decodeTableWord, isStepWidth, if_pos (decide_eq_true h)]
  split_ifs with hw <;> simp [hw]

/-- A word of 32 bits and more is a descriptor (R81). -/
theorem decodeTableWord_eq_some_of_wide {nbits : Nat} (h : ¬ nbits < 32) (w : Nat) :
    decodeTableWord nbits w = some i ↔ decodeDescriptor (tableDescriptor w) = .ok i := by
  have htake := takeDescriptor_bytes (tableDescriptor w) []
  rw [List.append_nil] at htake
  rw [decodeTableWord, isStepWidth, decide_eq_false h, if_neg nofun, decodeBytes, htake]
  cases hd : decodeDescriptor (tableDescriptor w) with
  | error e => simp [hd]
  | ok j => simp [hd]

/-! ### The obligations on the decoder and the encoder -/

/-- Settles O2: the decoder inverts the encoder, and the stored bytes give the descriptor back. -/
theorem decodeOfEncodeIsTheInstruction : Obligations.DecodeOfEncodeIsTheInstruction := by
  unfold Obligations.DecodeOfEncodeIsTheInstruction
  exact fun i => ⟨decode_encode i, fun d hd rest => decodeBytes_eq_ok.2 ⟨d, hd, rfl⟩⟩

/-- Settles O3: the decoders accept encodings only. -/
theorem encodeOfDecodeIsTheWord : Obligations.EncodeOfDecodeIsTheWord := by
  unfold Obligations.EncodeOfDecodeIsTheWord
  exact ⟨fun c i => decode_eq_ok.1, fun bs i rest => decodeBytes_eq_ok.1⟩

/-- Settles O1: each word is the encoding of its instruction. -/
theorem writtenOutWordsDecode : Obligations.WrittenOutWordsDecode := by
  unfold Obligations.WrittenOutWordsDecode
  have hbytes : decodeBytes (Descriptor.bytes ⟨2, 0x1000, 0x2000, 0⟩ ++ []) = .ok (.final 0x1000 0x2000, []) :=
    decodeBytes_eq_ok.2 ⟨_, rfl, rfl⟩
  exact ⟨decode_encode (.init 0x1000), decode_encode (.absorb 0x1000 0x3000 3), decode_encode (.final 0x1000 0x2000), hbytes,
    decode_encode .step05, decode_encode .step22, decode_encode .step39, decode_encode .step56⟩

end Sys2Proof
end

section
/-! What the encodings mean to the machine: reserved descriptors are refused (R84), a step index selects the operation of its round (R85), and
a word of the opcode table runs as the next step (log entries 6 and 16). -/

namespace Sys2Proof.Machine

variable {s : State} {d : Descriptor} {i : Instr}

/-! ### Inputs -/

theorem step_of_pending {x : Input} {rest : List Input} (h : s.pending = x :: rest) : step s = (s.setPending rest).take x := by
  rw [step, h]

theorem issue_of_reserved {e : DecodeError} (h : decodeDescriptor d = .error e) : s.issue d = .refused .reservedDescriptor := by
  simp only [State.issue, h]

theorem start_of_reserved {e : DecodeError} (h : decodeDescriptor d = .error e) : s.start d = .refused .reservedDescriptor := by
  simp only [State.start, h]

/-- Settles O4: the decoder's branches are the list of R84, and the machine decodes a descriptor before all else. -/
theorem reservedDescriptorsAreRefused : Obligations.ReservedDescriptorsAreRefused := by
  unfold Obligations.ReservedDescriptorsAreRefused
  refine fun d => ⟨decodeDescriptor_eq_error_iff, ?_⟩
  rintro ⟨e, he⟩ s rest
  exact ⟨fun hp => (step_of_pending hp).trans (issue_of_reserved he), fun hp => (step_of_pending hp).trans (start_of_reserved he)⟩

/-! ### The step of an index -/

/-- The machine's rotation is that of bit vectors, by every amount below the width (R11, R131). -/
theorem rotl32_eq_rotateLeft (x : Word) {n : Nat} (h : n < 32) : rotl32 x n = x.rotateLeft n := by
  rw [BitVec.rotateLeft_eq_rotateLeftAux_of_lt h]
  rfl

theorem shiftRow_lt (r : Nat) : ∀ a ∈ shiftRow r, a < 32 := by
  match r with
  | 0 => decide
  | 1 => decide
  | 2 => decide
  | _ + 3 => exact (by decide : ∀ a ∈ shiftRow 3, a < 32)

theorem rotAmount_lt (k : Nat) : rotAmount k < 32 := by
  rw [rotAmount, List.getD_eq_getElem?_getD]
  cases h : (shiftRow (k / 16))[k % 4]? with
  | none => decide
  | some a => exact shiftRow_lt _ a (List.mem_of_getElem? h)

/-- The machine's step of index `k` is the step of the rule (R123). -/
theorem stepQuad_eq_afterStep (mix : Word → Word → Word → Word) (k : Nat) (msg : Vector Word 16) (q : Quad) :
    stepQuad mix k msg q = afterStep q (mix q.b q.c q.d) (msg.get (wordIndex k)) (constantT (k + 1)) (rotAmount k) := by
  rw [stepQuad, rotl32_eq_rotateLeft _ (rotAmount_lt k)]
  rfl

theorem State.stepWith_work (s : State) (mix : Word → Word → Word → Word) (k : Nat) :
    (s.stepWith mix k).work = stepQuad mix k s.msg s.work := by
  rw [State.stepWith, State.advanceIndex]
  split <;> rfl

/-- Settles O5: the index {r, j} is the number 16r + j, whose quotient by 16 is the round r and selects the mixing function. -/
theorem stepIndexSelectsRoundAndPosition : Obligations.StepIndexSelectsRoundAndPosition := by
  unfold Obligations.StepIndexSelectsRoundAndPosition
  refine ⟨fun k l => decodeStep_injective, fun r j => ⟨?_, fun s => ?_⟩⟩
  · rw [decode, decodeStep, stepIndex_append_toNat]
  · have hr := r.isLt
    have hj := j.isLt
    have hround : (16 * r.toNat + j.toNat) / 16 = r.toNat := by omega
    refine ⟨_, exec_stepInstr (by omega) s, ?_⟩
    rw [hround, State.stepWith_work, stepQuad_eq_afterStep]
    congr 1
    match r.toNat with
    | 0 => rfl
    | 1 => rfl
    | 2 => rfl
    | _ + 3 => rfl

/-! ### The words of the opcode table -/

theorem step_tick (s : State) (l : List Input) : step (s.setPending (.tick :: l)) = exec (decodeStep s.k) (s.setPending l) := rfl

/-- Settles O32: a step index is placed in k with a tick, a descriptor is issued to an idle engine. -/
theorem tableWordRunsAsTheNextStep : Obligations.TableWordRunsAsTheNextStep := by
  unfold Obligations.TableWordRunsAsTheNextStep
  intro s nbits w i hword hidle
  rw [State.withFetchWord, State.presentWord, isStepWidth]
  by_cases hwidth : nbits < 32
  · obtain ⟨hw, rfl⟩ := (decodeTableWord_eq_some_of_narrow hwidth w).1 hword
    rw [if_pos ⟨decide_eq_true hwidth, hw⟩, if_pos hwidth, step_tick]
    rfl
  · have hd := (decodeTableWord_eq_some_of_wide hwidth w).1 hword
    rw [if_neg (by simp [hwidth]), if_neg hwidth, step_issue]
    exact issue_of_idle hidle hd

end Sys2Proof.Machine
end

section
/-! The constants T[1..64] against the sine (spec/40_constant_table.md R101): sin n is the imaginary part of (e^i)^n, and a Gaussian rational
close to e^i, raised to the n-th power, is close enough to tell the integer part of abs(sin n) * 2^32. -/

namespace Sys2Proof.Machine

open Complex (I)

/-! ### Powers of close points of the unit disc -/

theorem norm_pow_sub_pow_le {z w : ℂ} (hz : ‖z‖ ≤ 1) (hw : ‖w‖ ≤ 1) (n : ℕ) : ‖z ^ n - w ^ n‖ ≤ n * ‖z - w‖ := by
  induction n with
  | zero => simp
  | succ n ih =>
    have hpow : ‖w ^ n‖ ≤ 1 := norm_pow w n ▸ pow_le_one₀ (norm_nonneg w) hw
    calc ‖z ^ (n + 1) - w ^ (n + 1)‖ = ‖(z ^ n - w ^ n) * z + w ^ n * (z - w)‖ := by ring_nf
      _ ≤ ‖z ^ n - w ^ n‖ * ‖z‖ + ‖w ^ n‖ * ‖z - w‖ := by
        rw [← norm_mul, ← norm_mul]
        exact norm_add_le _ _
      _ ≤ n * ‖z - w‖ * 1 + 1 * ‖z - w‖ := by gcongr
      _ = (n + 1 : ℕ) * ‖z - w‖ := by push_cast; ring

/-! ### A Gaussian rational close to e^i -/

/-- The sum of the first twenty terms of the series of e^i, times 19!. -/
def eulerNumerator : GaussianInt := ⟨65725128248453315, 102360822438075317⟩

/-- 19!, the common denominator of those terms. -/
def eulerDenominator : ℕ := 121645100408832000

theorem eulerDenominator_pos : (0 : ℝ) < eulerDenominator := by norm_num [eulerDenominator]

/-- A point of the unit disc that is e^i to 18 decimal places. -/
noncomputable def eulerPoint : ℂ := eulerNumerator / eulerDenominator

theorem eulerPoint_eq_sum : eulerPoint = ∑ m ∈ Finset.range 20, I ^ m / m.factorial := by
  apply Complex.ext <;>
    norm_num [eulerPoint, eulerNumerator, eulerDenominator, Finset.sum_range_succ, Nat.factorial, pow_succ, GaussianInt.toComplex_def₂,
      Complex.div_re, Complex.div_im, Complex.normSq]

theorem norm_exp_I_sub_eulerPoint_le : ‖Complex.exp I - eulerPoint‖ ≤ 1 / (16 * eulerDenominator) := by
  have h := Complex.exp_bound (show ‖I‖ ≤ 1 by simp) (show 0 < 20 by decide)
  rw [← eulerPoint_eq_sum] at h
  refine h.trans ?_
  norm_num [eulerDenominator, Nat.factorial]

theorem norm_eulerPoint_le_one : ‖eulerPoint‖ ≤ 1 := by
  have hsq : eulerNumerator.norm ≤ (eulerDenominator : ℤ) ^ 2 := by decide +kernel
  rw [eulerPoint, norm_div, Complex.norm_natCast, div_le_one eulerDenominator_pos, ← sq_le_sq₀ (norm_nonneg _) (Nat.cast_nonneg _),
    ← Complex.normSq_eq_norm_sq, ← GaussianInt.intCast_real_norm]
  exact_mod_cast hsq

/-- sin n by the n-th power of the point. -/
noncomputable def sinPoint (n : ℕ) : ℝ := (eulerNumerator ^ n).im / (eulerDenominator : ℝ) ^ n

theorem sinPoint_eq_im (n : ℕ) : sinPoint n = (eulerPoint ^ n).im := by
  have hcast : eulerPoint ^ n = ((eulerNumerator ^ n : GaussianInt) : ℂ) / ((eulerDenominator ^ n : ℕ) : ℂ) := by
    rw [eulerPoint, div_pow, map_pow, Nat.cast_pow]
  rw [hcast, Complex.div_natCast_im, sinPoint, GaussianInt.intCast_im, Nat.cast_pow]

theorem abs_sin_sub_sinPoint_le {n : ℕ} (hn : n ≤ 64) : |Real.sin n - sinPoint n| ≤ 4 / eulerDenominator := by
  have hsin : Real.sin n = (Complex.exp I ^ n).im := by
    rw [← Complex.exp_nat_mul, ← Complex.ofReal_natCast, Complex.exp_ofReal_mul_I_im]
  have hn' : (n : ℝ) ≤ 64 := by exact_mod_cast hn
  calc |Real.sin n - sinPoint n| = |(Complex.exp I ^ n - eulerPoint ^ n).im| := by rw [hsin, sinPoint_eq_im, Complex.sub_im]
    _ ≤ ‖Complex.exp I ^ n - eulerPoint ^ n‖ := Complex.abs_im_le_norm _
    _ ≤ n * ‖Complex.exp I - eulerPoint‖ := norm_pow_sub_pow_le (by simp [Complex.norm_exp]) norm_eulerPoint_le_one n
    _ ≤ 64 * (1 / (16 * eulerDenominator)) := by gcongr; exact norm_exp_I_sub_eulerPoint_le
    _ = 4 / eulerDenominator := by ring

/-! ### The integer parts -/

/-- A number known to within `δ` has integer part `t` when neither end of its interval leaves [t, t + 1). -/
theorem floor_eq_of_abs_sub_le {x y δ c : ℝ} {t : ℕ} (hc : 0 ≤ c) (hxy : |x - y| ≤ δ) (hlo : t ≤ (|y| - δ) * c)
    (hhi : (|y| + δ) * c < t + 1) : ⌊|x| * c⌋₊ = t := by
  have hnear : |(|x| - |y|)| ≤ δ := (abs_abs_sub_abs_le x y).trans hxy
  obtain ⟨hle, hge⟩ := abs_le.1 hnear
  rw [Nat.floor_eq_iff (by positivity)]
  exact ⟨hlo.trans (by gcongr; linarith), lt_of_le_of_lt (by gcongr; linarith) hhi⟩

/-- T[n] and T[n] + 1 bracket abs(sinPoint n) * 2^32 with 2^34 / 19! to spare, both sides multiplied by 19!^(n + 1). -/
def Brackets (n : ℕ) : Prop :=
  ((constantT n).toNat * eulerDenominator + 2 ^ 34) * eulerDenominator ^ n ≤ (eulerNumerator ^ n).im.natAbs * 2 ^ 32 * eulerDenominator ∧
    (eulerNumerator ^ n).im.natAbs * 2 ^ 32 * eulerDenominator + 2 ^ 34 * eulerDenominator ^ n <
      ((constantT n).toNat + 1) * eulerDenominator * eulerDenominator ^ n

theorem brackets_of_le : ∀ n, 1 ≤ n → n ≤ 64 → Brackets n := by
  have h : ∀ n < 64, Brackets (n + 1) := by unfold Brackets; decide +kernel
  intro n hpos hle
  obtain ⟨n, rfl⟩ := Nat.exists_eq_add_of_le' hpos
  exact h n hle

theorem abs_sinPoint (n : ℕ) : |sinPoint n| = (eulerNumerator ^ n).im.natAbs / (eulerDenominator : ℝ) ^ n := by
  rw [sinPoint, abs_div, abs_of_pos (pow_pos eulerDenominator_pos n), Nat.cast_natAbs, Int.cast_abs]

theorem le_of_brackets {n : ℕ} (h : Brackets n) : ((constantT n).toNat : ℝ) ≤ (|sinPoint n| - 4 / eulerDenominator) * 2 ^ 32 := by
  have hN := eulerDenominator_pos
  have hle : (((constantT n).toNat : ℝ) * eulerDenominator + 2 ^ 34) * eulerDenominator ^ n ≤
      (eulerNumerator ^ n).im.natAbs * 2 ^ 32 * eulerDenominator := by exact_mod_cast h.1
  rw [abs_sinPoint]
  field_simp
  linarith

theorem lt_of_brackets {n : ℕ} (h : Brackets n) : (|sinPoint n| + 4 / eulerDenominator) * 2 ^ 32 < ((constantT n).toNat : ℝ) + 1 := by
  have hN := eulerDenominator_pos
  have hlt : ((eulerNumerator ^ n).im.natAbs : ℝ) * 2 ^ 32 * eulerDenominator + 2 ^ 34 * eulerDenominator ^ n <
      ((constantT n).toNat + 1) * eulerDenominator * eulerDenominator ^ n := by exact_mod_cast h.2
  rw [abs_sinPoint]
  field_simp
  linarith

/-- Settles O13: the n-th power of the Gaussian rational brackets abs(sin n) * 2^32 between T[n] and T[n] + 1. -/
theorem constantsAreTheIntegerPartsOfTheSines : Obligations.ConstantsAreTheIntegerPartsOfTheSines := by
  unfold Obligations.ConstantsAreTheIntegerPartsOfTheSines
  intro n hpos hle
  have h := brackets_of_le n hpos hle
  exact (floor_eq_of_abs_sub_le (by positivity) (abs_sin_sub_sinPoint_le hle) (le_of_brackets h) (lt_of_brackets h)).symm

end Sys2Proof.Machine
end

section
/-! The schedule of the steps (spec/40_constant_table.md R105 to R107). -/

namespace Sys2Proof.Machine

/-! ### The rows of R107 -/

/-- The row of step `k` by the model's own lookups. -/
def scheduleRow (k : Nat) : StepIndex × Nat × Nat × Nat × Nat × Nat × Word :=
  (BitVec.ofNat 6 k, k / 16 + 1, k % 16, (wordIndex k).val, rotAmount k, k + 1, constantT (k + 1))

theorem scheduleRows_eq_map : scheduleRows = (List.range 64).map scheduleRow := rfl

/-- Settles O11: the printed table is the list of the model's rows, so its entry k is the row of step k. -/
theorem scheduleOfEveryStep : Obligations.ScheduleOfEveryStep := by
  unfold Obligations.ScheduleOfEveryStep
  refine ⟨⟨rfl, rfl, rfl, rfl⟩, ?_, fun k hk => ⟨?_, rfl⟩⟩
  · rw [scheduleRows_eq_map, List.length_map, List.length_range]
  · rw [scheduleRows_eq_map, List.getElem?_map, List.getElem?_range hk]
    rfl

/-! ### The message words (R105) -/

/-- The formula of a round at the step index `k`; at the position in the round it gives the same word. -/
theorem wordIndex_val (k : Nat) : (wordIndex k).val =
    (if k < 16 then k else if k < 32 then 5 * k + 1 else if k < 48 then 3 * k + 5 else 7 * k) % 16 := by
  rw [wordIndex]
  split
  case h_1 h => rw [if_pos (by omega), Fin.val_ofNat]; omega
  case h_2 h => rw [if_neg (by omega), if_pos (by omega), Fin.val_ofNat]; omega
  case h_3 h => rw [if_neg (by omega), if_neg (by omega), if_pos (by omega), Fin.val_ofNat]; omega
  case h_4 h0 h1 h2 =>
    have h : 48 ≤ k := by
      simp only [imp_false] at h0 h1 h2
      omega
    rw [if_neg (by omega), if_neg (by omega), if_neg (by omega), Fin.val_ofNat]; omega

section
variable {j : Nat} (hj : j < 16)
include hj

theorem wordIndex_round1 : (wordIndex j).val = j := by
  rw [wordIndex_val, if_pos hj, Nat.mod_eq_of_lt hj]

theorem wordIndex_round2 : (wordIndex (16 + j)).val = (5 * j + 1) % 16 := by
  rw [wordIndex_val, if_neg (by omega), if_pos (by omega)]
  omega

theorem wordIndex_round3 : (wordIndex (32 + j)).val = (3 * j + 5) % 16 := by
  rw [wordIndex_val, if_neg (by omega), if_neg (by omega), if_pos (by omega)]
  omega

theorem wordIndex_round4 : (wordIndex (48 + j)).val = (7 * j) % 16 := by
  rw [wordIndex_val, if_neg (by omega), if_neg (by omega), if_neg (by omega)]
  omega

end

/-- The position of word `m` in a round: 5, 3 and 7 have the inverses 13, 11 and 7 mod 16. -/
def wordPosition : Nat → Nat → Nat
  | 0, m => m
  | 1, m => (13 * m + 3) % 16
  | 2, m => (11 * m + 9) % 16
  | _ + 3, m => (7 * m) % 16

theorem wordPosition_lt {m : Nat} (hm : m < 16) (r : Nat) : wordPosition r m < 16 := by
  match r with
  | 0 => exact hm
  | 1 => exact Nat.mod_lt _ (by decide)
  | 2 => exact Nat.mod_lt _ (by decide)
  | _ + 3 => exact Nat.mod_lt _ (by decide)

theorem wordIndex_eq_iff {r m j : Nat} (hr : r < 4) (hm : m < 16) (hj : j < 16) :
    (wordIndex (16 * r + j)).val = m ↔ j = wordPosition r m := by
  match r with
  | 0 => rw [Nat.mul_zero, Nat.zero_add, wordIndex_round1 hj, wordPosition]
  | 1 => rw [wordIndex_round2 hj, wordPosition]; omega
  | 2 => rw [wordIndex_round3 hj, wordPosition]; omega
  | 3 => rw [wordIndex_round4 hj, wordPosition]; omega

/-- Settles O12: the formulas of R105 are affine maps mod 16 with odd factors, and `wordPosition` inverts them. -/
theorem wordScheduleIsFourPermutations : Obligations.WordScheduleIsFourPermutations := by
  unfold Obligations.WordScheduleIsFourPermutations
  refine ⟨fun j hj => ⟨wordIndex_round1 hj, wordIndex_round2 hj, wordIndex_round3 hj, wordIndex_round4 hj⟩,
    fun k _ => wordIndex_val k, fun r hr m hm => ⟨wordPosition r m, wordPosition_lt hm r, ?_, fun i hi => ?_⟩⟩
  · exact (wordIndex_eq_iff hr hm (wordPosition_lt hm r)).2 rfl
  · exact (wordIndex_eq_iff hr hm hi).1

end Sys2Proof.Machine
end

section
/-! The mixing functions bit by bit (spec/41_compression.md R124 to R128). -/

namespace Sys2Proof.Machine

variable (b c d : Word)

/-! ### One bit of each function -/

theorem decide_lt_and_getLsbD (x : Word) (i : Nat) : (decide (i < 32) && x.getLsbD i) = x.getLsbD i := by
  simpa using x.lt_of_getLsbD

theorem getLsbD_mixF (i : Nat) : (mixF b c d).getLsbD i = if b.getLsbD i then c.getLsbD i else d.getLsbD i := by
  rw [mixF, BitVec.getLsbD_or, BitVec.getLsbD_and, BitVec.getLsbD_and, BitVec.getLsbD_not]
  cases b.getLsbD i
  case false => simp [decide_lt_and_getLsbD]
  case true => simp

/-- G is F with the roles of its arguments exchanged (R125). -/
theorem mixG_eq_mixF : mixG b c d = mixF d b c := by
  rw [mixG, mixF, BitVec.and_comm b d, BitVec.and_comm c]

theorem getLsbD_mixG (i : Nat) : (mixG b c d).getLsbD i = if d.getLsbD i then b.getLsbD i else c.getLsbD i := by
  rw [mixG_eq_mixF, getLsbD_mixF]

theorem getLsbD_mixH (i : Nat) : (mixH b c d).getLsbD i = (b.getLsbD i ^^ c.getLsbD i ^^ d.getLsbD i) := by
  rw [mixH, BitVec.getLsbD_xor, BitVec.getLsbD_xor]

/-- Above bit 31 the complement of `d` has no bits, so I is known by the bits below only. -/
theorem getLsbD_mixI {i : Nat} (hi : i < 32) : (mixI b c d).getLsbD i = (c.getLsbD i ^^ (b.getLsbD i || !d.getLsbD i)) := by
  rw [mixI, BitVec.getLsbD_xor, BitVec.getLsbD_or, BitVec.getLsbD_not, decide_eq_true hi, Bool.true_and]

/-- Settles O14: the four functions at one bit position are functions of the three bits there. -/
theorem mixingTruthTable : Obligations.MixingTruthTable := by
  unfold Obligations.MixingTruthTable
  intro b c d i hi
  rw [getLsbD_mixF, getLsbD_mixG, getLsbD_mixH, getLsbD_mixI b c d hi]
  generalize b.getLsbD i = x, c.getLsbD i = y, d.getLsbD i = z
  revert x y z
  decide

/-! ### Corner cases -/

/-- A word and its complement select disjoint bits. -/
theorem and_and_not_and (p q r : Word) : (p &&& q) &&& (~~~p &&& r) = 0#32 := by
  rw [show (p &&& q) &&& (~~~p &&& r) = (p &&& ~~~p) &&& (q &&& r) by ac_rfl, BitVec.and_not_self]
  exact BitVec.zero_and

/-- Terms with no bit in common may be joined by XOR as well. -/
theorem or_eq_xor_of_and_eq_zero {p q : Word} (h : p &&& q = 0#32) : p ||| q = p ^^^ q := by
  refine BitVec.eq_of_getLsbD_eq fun i _ => ?_
  have hi : (p.getLsbD i && q.getLsbD i) = false := by
    rw [← BitVec.getLsbD_and, h, BitVec.getLsbD_zero]
  rw [BitVec.getLsbD_or, BitVec.getLsbD_xor]
  generalize p.getLsbD i = x, q.getLsbD i = y at hi ⊢
  revert x y
  decide

theorem mixF_zero : mixF 0 c d = d :=
  BitVec.eq_of_getLsbD_eq fun i _ => by rw [getLsbD_mixF, BitVec.ofNat_eq_ofNat, BitVec.getLsbD_zero, if_neg Bool.false_ne_true]

theorem mixF_ones : mixF 0xFFFFFFFF c d = c :=
  BitVec.eq_of_getLsbD_eq fun i hi => by
    rw [getLsbD_mixF, show (0xFFFFFFFF : Word) = BitVec.allOnes 32 from rfl, BitVec.getLsbD_allOnes, decide_eq_true hi, if_pos rfl]

theorem mixF_self : mixF b c c = c :=
  BitVec.eq_of_getLsbD_eq fun i _ => by rw [getLsbD_mixF, ite_self]

theorem mixF_eq_xor : mixF b c d = (b &&& c) ^^^ (~~~b &&& d) := or_eq_xor_of_and_eq_zero (and_and_not_and b c d)

theorem mixF_eq_add : mixF b c d = (b &&& c) + (~~~b &&& d) :=
  (BitVec.add_eq_or_of_and_eq_zero _ _ (and_and_not_and b c d)).symm

theorem mixH_assoc : mixH b c d = b ^^^ (c ^^^ d) := BitVec.xor_assoc b c d

theorem mixH_reverse : mixH b c d = mixH d c b := by
  rw [mixH, mixH]
  ac_rfl

theorem mixH_self : mixH b b d = d := by
  rw [mixH, BitVec.xor_self, BitVec.zero_xor]

end Sys2Proof.Machine
end

section
/-! The 64 step instructions (spec/41_compression.md R123 to R127): what each does to the working registers and k, and what it leaves alone. -/

namespace Sys2Proof.Machine

variable (s : State)

/-! ### What a step does -/

/-- A step with a next index counts to it and draws nothing (R123). -/
theorem State.stepWith_of_lt (mix : Word → Word → Word → Word) {n : Nat} (h : n < 63) :
    s.stepWith mix n = (s.setWork (stepQuad mix n s.msg s.work)).setK (BitVec.ofNat 6 (n + 1)) := by
  rw [State.stepWith, State.advanceIndex, if_pos h]

/-- The last step leaves a free value in the index (R32, log entry 5). -/
theorem State.stepWith_last (mix : Word → Word → Word → Word) :
    s.stepWith mix 63 = ((s.setWork (stepQuad mix 63 s.msg s.work)).setK (Config.freeIndex s.drawn)).setDrawn (s.drawn + 1) := by
  rw [State.stepWith, State.advanceIndex, if_neg (by decide)]
  rfl

/-- The registers and the mixing result of the rule for step `n` (R123), in the terms of the statements. -/
theorem stepQuad_round (n : Nat) : stepQuad (mixOf (n / 16)) n s.msg s.work =
    afterStep s.work (mixOf (n / 16) s.work.b s.work.c s.work.d) (s.msg.get (wordIndex n)) (stepConstant n) (rotAmount n) :=
  stepQuad_eq_afterStep _ n s.msg s.work

/-- Every step but the last completes with the registers of the rule and the next index. -/
theorem exec_step_of_lt {n : Nat} (h : n < 63) : exec (stepInstr n) s = .next { s with
    work := afterStep s.work (mixOf (n / 16) s.work.b s.work.c s.work.d) (s.msg.get (wordIndex n)) (stepConstant n) (rotAmount n)
    k := BitVec.ofNat 6 (n + 1) } := by
  rw [exec_stepInstr (by omega), s.stepWith_of_lt _ h, stepQuad_round]
  rfl

/-- The last step leaves some value in the index (log entry 5). -/
theorem exec_step_last : ∃ v, exec (stepInstr 63) s = .next { s with
    work := afterStep s.work (mixOf (63 / 16) s.work.b s.work.c s.work.d) (s.msg.get (wordIndex 63)) (stepConstant 63) (rotAmount 63)
    k := v
    drawn := s.drawn + 1 } := by
  refine ⟨Config.freeIndex s.drawn, ?_⟩
  rw [exec_stepInstr (by decide), s.stepWith_last, stepQuad_round]
  rfl

/-- A step from registers and a message word that are known. -/
theorem exec_step_work {n : Nat} (h : n < 64) {q q' : Quad} {m : Word} (hwork : s.work = q) (hmsg : s.msg.get (wordIndex n) = m)
    (hq : afterStep q (mixOf (n / 16) q.b q.c q.d) m (stepConstant n) (rotAmount n) = q') :
    ∃ t, exec (stepInstr n) s = .next t ∧ t.work = q' :=
  ⟨_, exec_stepInstr h s, by rw [State.stepWith_work, stepQuad_round, hwork, hmsg, hq]⟩

/-- The index {r, j} selects step 16r + j (R85). -/
theorem decode_stepIndex (r : BitVec 2) (j : BitVec 4) : decode (.stepIndex (r ++ j)) = .ok (stepInstr (16 * r.toNat + j.toNat)) := by
  rw [decode, decodeStep, stepIndex_append_toNat]

/-! ### The four operations -/

/-- Settles O6: F selects by the bits of b; the sixteen results are those of the general step with the schedule's row put in. -/
theorem roundOneStepsFollowFF : Obligations.RoundOneStepsFollowFF := by
  unfold Obligations.RoundOneStepsFollowFF
  refine ⟨getLsbD_mixF, fun b c d => ?_, fun j => ?_, fun s => ?_, fun s hwork hmsg => ?_⟩
  · exact ⟨mixF_zero c d, mixF_ones c d, mixF_self b c, and_and_not_and b c d, mixF_eq_xor b c d, mixF_eq_add b c d⟩
  · exact (decode_stepIndex 0b00 j).trans (by rw [show (0b00 : BitVec 2).toNat = 0 from rfl, Nat.mul_zero, Nat.zero_add])
  · have result (n : Nat) (h : n < 63 := by decide) := exec_step_of_lt s h
    exact ⟨result 0, result 1, result 2, result 3, result 4, result 5, result 6, result 7, result 8, result 9, result 10, result 11,
      result 12, result 13, result 14, result 15⟩
  · exact exec_step_work s (n := 0) (by decide) hwork hmsg (by decide)

/-- Settles O7: G is F with d in the selecting place; the sixteen results are those of the general step. -/
theorem roundTwoStepsFollowGG : Obligations.RoundTwoStepsFollowGG := by
  unfold Obligations.RoundTwoStepsFollowGG
  refine ⟨getLsbD_mixG, fun b c d => ?_, decode_stepIndex 0b01, fun s => ?_, fun s hwork hmsg => ?_⟩
  · refine ⟨mixG_eq_mixF b c d, ?_, ?_, ?_⟩
    · rw [mixG_eq_mixF, mixF_zero]
    · rw [mixG_eq_mixF, mixF_ones]
    · rw [BitVec.and_comm b d, BitVec.and_comm c]
      exact and_and_not_and d b c
  · have result (n : Nat) (h : n < 63 := by decide) := exec_step_of_lt s h
    exact ⟨result 16, result 17, result 18, result 19, result 20, result 21, result 22, result 23, result 24, result 25, result 26,
      result 27, result 28, result 29, result 30, result 31⟩
  · exact exec_step_work s (n := 16) (by decide) hwork hmsg (by decide)

/-- Settles O8: H is the XOR of three words; the sixteen results are those of the general step. -/
theorem roundThreeStepsFollowHH : Obligations.RoundThreeStepsFollowHH := by
  unfold Obligations.RoundThreeStepsFollowHH
  refine ⟨fun b c d => ⟨mixH_assoc b c d, mixH_reverse b c d, mixH_self b d, mixH_self b b⟩, decode_stepIndex 0b10, fun s => ?_,
    fun s hwork hmsg => ?_⟩
  · have result (n : Nat) (h : n < 63 := by decide) := exec_step_of_lt s h
    exact ⟨result 32, result 33, result 34, result 35, result 36, result 37, result 38, result 39, result 40, result 41, result 42,
      result 43, result 44, result 45, result 46, result 47⟩
  · exact exec_step_work s (n := 32) (by decide) hwork hmsg (by decide)

/-- Settles O9: fifteen results are those of the general step, the sixteenth is the last step's, which has no next index. -/
theorem roundFourStepsFollowII : Obligations.RoundFourStepsFollowII := by
  unfold Obligations.RoundFourStepsFollowII
  refine ⟨by decide, decode_stepIndex 0b11, fun s => ?_, fun s hwork hmsg => ?_⟩
  · have result (n : Nat) (h : n < 63 := by decide) := exec_step_of_lt s h
    exact ⟨result 48, result 49, result 50, result 51, result 52, result 53, result 54, result 55, result 56, result 57, result 58,
      result 59, result 60, result 61, result 62, exec_step_last s⟩
  · exact exec_step_work s (n := 48) (by decide) hwork hmsg (by decide)

/-! ### The frame -/

/-- Only the commands have a descriptor: what a step index encodes is a step. -/
theorem eq_stepInstr_of_encode {i : Instr} {k : StepIndex} (h : encode i = .stepIndex k) : i = stepInstr k.toNat :=
  (Except.ok.inj (decode_eq_ok.2 h)).symm

/-- No step writes memory, so S still holds the state from before the block (R122, R137). -/
theorem State.readByte_stepWith (mix : Word → Word → Word → Word) (n a : Nat) : (s.stepWith mix n).readByte a = s.readByte a :=
  (commits_stepWith (fun _ => False) s mix n).byte a id

theorem State.stepWith_phases (mix : Word → Word → Word → Word) (n : Nat) : (s.stepWith mix n).phases = s.phases := by
  obtain ⟨q, k, d, heq⟩ := s.stepWith_eq mix n
  rw [heq]
  rfl

/-- Of the internal registers a step leaves M, pos, fill and L alone. -/
theorem State.stepWith_internal (mix : Word → Word → Word → Word) (n : Nat) : (s.stepWith mix n).msg = s.msg ∧
    (s.stepWith mix n).pos = s.pos ∧ (s.stepWith mix n).fill = s.fill ∧ (s.stepWith mix n).total = s.total := by
  obtain ⟨q, k, d, heq⟩ := s.stepWith_eq mix n
  rw [heq]
  exact ⟨rfl, rfl, rfl, rfl⟩

/-- Settles O10: the operations a step is made of set the working registers, k and the draws, and nothing else. -/
theorem stepsChangeOnlyTheWorkingRegisters : Obligations.StepsChangeOnlyTheWorkingRegisters := by
  unfold Obligations.StepsChangeOnlyTheWorkingRegisters
  intro i k hcode s
  obtain rfl := eq_stepInstr_of_encode hcode
  obtain ⟨hmsg, hpos, hfill, htotal⟩ := s.stepWith_internal (mixOf (k.toNat / 16)) k.toNat
  refine ⟨_, exec_stepInstr k.isLt s, s.readByte_stepWith _ _, hmsg, hpos, hfill, htotal, s.stepWith_phases _ _,
    (commits_stepWith (fun _ => False) s _ _).surroundings, fun hk => ?_⟩
  rw [s.stepWith_of_lt _ (show k.toNat < 63 by bv_omega)]
  refine ⟨?_, rfl⟩
  rw [State.setK_k, BitVec.ofNat_add, BitVec.ofNat_toNat, BitVec.setWidth_eq]
  rfl

end Sys2Proof.Machine
end

section
/-! The rotation of a word (spec/41_compression.md R131). -/

namespace Sys2Proof.Machine

variable (x : Word) {n : Nat}

theorem getLsbD_rotl32 (hn : n < 32) {i : Nat} (hi : i < 32) : (rotl32 x n).getLsbD i = x.getLsbD ((i + 32 - n) % 32) := by
  rw [rotl32_eq_rotateLeft x hn, BitVec.getLsbD_rotateLeft_of_le hn]
  rcases Nat.lt_or_ge i n with h | h
  · rw [decide_eq_true h, cond_true]
    congr 1
    omega
  · rw [decide_eq_false (by omega), cond_false, decide_eq_true hi, Bool.true_and]
    congr 1
    omega

theorem getLsbD_rotl32_add (hn : n < 32) {i : Nat} (hi : i < 32) : (rotl32 x n).getLsbD ((i + n) % 32) = x.getLsbD i := by
  rw [getLsbD_rotl32 x hn (by omega)]
  congr 1
  omega

/-- The bit positions, each moved `n` places round. -/
theorem range_rotate (n : Nat) : (List.range 32).rotate n = (List.range 32).map fun i => (i + n) % 32 :=
  List.ext_getElem (by simp) fun i _ _ => by simp [List.getElem_rotate]

/-- No bit is lost: rotating moves the 1 bits, so their number stays. -/
theorem countP_rotl32 (hn : n < 32) :
    ((List.range 32).countP fun i => (rotl32 x n).getLsbD i) = ((List.range 32).countP fun i => x.getLsbD i) := by
  rw [← (List.rotate_perm (List.range 32) n).countP_eq, range_rotate, List.countP_map]
  refine List.countP_congr fun i hi => ?_
  rw [Function.comp_apply, getLsbD_rotl32_add x hn (List.mem_range.1 hi)]

theorem rotl32_zero (n : Nat) : rotl32 0 n = 0 := by simp [rotl32]

theorem rotl32_ones (hn : n < 32) : rotl32 0xFFFFFFFF n = 0xFFFFFFFF := by
  rw [show (0xFFFFFFFF : Word) = BitVec.allOnes 32 from rfl]
  refine BitVec.eq_of_getLsbD_eq fun i hi => ?_
  rw [getLsbD_rotl32 _ hn hi, BitVec.getLsbD_allOnes, BitVec.getLsbD_allOnes, decide_eq_true hi, decide_eq_true (Nat.mod_lt _ (by decide))]

/-- The high `n` bits become the low ones. -/
theorem rotl32_toNat (hn : n < 32) : (rotl32 x n).toNat = x.toNat % 2 ^ (32 - n) * 2 ^ n + x.toNat / 2 ^ (32 - n) := by
  have hsplit : 2 ^ 32 = 2 ^ (32 - n) * 2 ^ n := by rw [← Nat.pow_add, Nat.sub_add_cancel hn.le]
  have hhigh : x.toNat / 2 ^ (32 - n) < 2 ^ n := by
    rw [Nat.div_lt_iff_lt_mul (Nat.two_pow_pos _), Nat.mul_comm, ← hsplit]
    exact x.isLt
  rw [rotl32, BitVec.toNat_or, BitVec.toNat_shiftLeft, BitVec.toNat_ushiftRight, Nat.shiftLeft_eq, hsplit, Nat.mul_mod_mul_right,
    Nat.shiftRight_eq_div_pow, ← Nat.shiftLeft_eq, Nat.shiftLeft_add_eq_or_of_lt hhigh]

/-- The bits that leave at the top, worth 2^32 each, come back worth 1: nothing changes mod 2^32 - 1. -/
theorem mul_two_pow_eq_rotl32 (hn : n < 32) :
    x.toNat * 2 ^ n = (rotl32 x n).toNat + x.toNat / 2 ^ (32 - n) * (2 ^ 32 - 1) := by
  have hsplit : 2 ^ (32 - n) * 2 ^ n = 2 ^ 32 := by rw [← Nat.pow_add, Nat.sub_add_cancel hn.le]
  rw [rotl32_toNat x hn]
  generalize hhigh : x.toNat / 2 ^ (32 - n) = high, hlow : x.toNat % 2 ^ (32 - n) = low
  calc x.toNat * 2 ^ n
      = (2 ^ (32 - n) * high + low) * 2 ^ n := by rw [← hhigh, ← hlow, Nat.div_add_mod]
    _ = low * 2 ^ n + 2 ^ (32 - n) * 2 ^ n * high := by ring
    _ = low * 2 ^ n + high + high * (2 ^ 32 - 1) := by rw [hsplit]; omega

/-- Only the word of ones rotates to the word of ones. -/
theorem rotl32_toNat_lt (hn : n < 32) (hx : x.toNat < 2 ^ 32 - 1) : (rotl32 x n).toNat < 2 ^ 32 - 1 := by
  refine Nat.lt_of_le_of_ne (Nat.le_pred_of_lt (rotl32 x n).isLt) fun hones => ?_
  have hbits : rotl32 x n = BitVec.allOnes 32 := BitVec.eq_of_toNat_eq hones
  have hxones : x = BitVec.allOnes 32 := BitVec.eq_of_getLsbD_eq fun i hi => by
    rw [← getLsbD_rotl32_add x hn hi, hbits, BitVec.getLsbD_allOnes, BitVec.getLsbD_allOnes, decide_eq_true hi,
      decide_eq_true (Nat.mod_lt _ (by decide))]
  rw [hxones] at hx
  exact absurd hx (by decide)

theorem rotl32_eq_mul_mod (hn : n < 32) (hx : x.toNat < 2 ^ 32 - 1) : (rotl32 x n).toNat = x.toNat * 2 ^ n % (2 ^ 32 - 1) := by
  rw [mul_two_pow_eq_rotl32 x hn, Nat.add_mul_mod_self_right, Nat.mod_eq_of_lt (rotl32_toNat_lt x hn hx)]

/-- Settles O15: the laws of one rotation by any amount, the sixteen amounts of the steps, and a sum whose carry the rotation keeps apart. -/
theorem rotationLaws : Obligations.RotationLaws := by
  unfold Obligations.RotationLaws
  refine ⟨fun x n _ hle => ?_, by decide, ⟨0x80000000, 0x80000000, 4, by decide⟩, by decide, by decide, by decide, by decide⟩
  have hn : n < 32 := by omega
  exact ⟨fun i hi => getLsbD_rotl32_add x hn hi, countP_rotl32 x hn, rotl32_zero n, rotl32_ones hn, rotl32_eq_mul_mod x hn⟩

end Sys2Proof.Machine
end

section
/-! The steps on four fixed registers with rotating roles (spec/41_compression.md R129). -/

namespace Sys2Proof.Machine

variable (msg : Vector Word 16) (k : Nat) (r : Vector Word 4)

/-! ### Which register plays which role -/

/-- The register in the D role is the next one in the A role. -/
theorem roleHolder_succ_zero : roleHolder (k + 1) 0 = roleHolder k 3 := Fin.ext <| by
  simp only [roleHolder]
  omega

/-- Every other register takes the next role. -/
theorem roleHolder_succ_succ (x : Nat) : roleHolder (k + 1) (x + 1) = roleHolder k x := Fin.ext <| by
  simp only [roleHolder]
  omega

theorem roleHolder_ne_zero {x : Nat} (h0 : 0 < x) (h4 : x < 4) : roleHolder k x ≠ roleHolder k 0 := by
  intro h
  have hval := congrArg Fin.val h
  simp only [roleHolder] at hval
  omega

/-- After whole turns of the roles each is at its starting register. -/
theorem byRole_of_dvd (h : k % 4 = 0) : byRole k r = ⟨r[0], r[1], r[2], r[3]⟩ := by
  simp only [byRole, roleHolder, h]
  rfl

/-! ### One step -/

theorem inPlaceStep_roleA : (inPlaceStep msg k r)[roleHolder k 0] = (stepAt msg k (byRole k r)).b :=
  Vector.getElem_set_self _

theorem inPlaceStep_of_ne {x : Fin 4} (h : x ≠ roleHolder k 0) : (inPlaceStep msg k r)[x] = r[x] :=
  Vector.getElem_set_ne _ _ fun heq => h (Fin.ext heq.symm)

/-- Read by role, the step in place is the step of the shifting registers: D, B and C move to A, C and D because the roles do. -/
theorem byRole_inPlaceStep : byRole (k + 1) (inPlaceStep msg k r) = stepAt msg k (byRole k r) := by
  rw [byRole]
  simp only [roleHolder_succ_zero, roleHolder_succ_succ, inPlaceStep_roleA,
    inPlaceStep_of_ne msg k r (roleHolder_ne_zero k (x := 1) (by decide) (by decide)),
    inPlaceStep_of_ne msg k r (roleHolder_ne_zero k (x := 2) (by decide) (by decide)),
    inPlaceStep_of_ne msg k r (roleHolder_ne_zero k (x := 3) (by decide) (by decide))]
  rfl

theorem byRole_inPlaceSteps (n : Nat) : byRole (k + n) (inPlaceSteps msg k n r) = stepsFrom msg k n (byRole k r) := by
  induction n generalizing k r with
  | zero => rfl
  | succ n ih => rw [inPlaceSteps, stepsFrom, ← byRole_inPlaceStep, ← ih, Nat.add_right_comm, Nat.add_assoc]

/-- Settles O16: each step in place is a step of the shifting registers read by role; after 64 steps, sixteen turns, the roles are back. -/
theorem roleRotationViewAgrees : Obligations.RoleRotationViewAgrees := by
  unfold Obligations.RoleRotationViewAgrees
  refine ⟨fun msg k r => ⟨?_, inPlaceStep_roleA msg k r, fun x => inPlaceStep_of_ne msg k r⟩, fun msg r => ?_⟩
  · simp only [roleHolder, Nat.zero_add]
  · have hrun (n : Nat) : byRole n (inPlaceSteps msg 0 n r) = stepsFrom msg 0 n ⟨r[0], r[1], r[2], r[3]⟩ := by
      rw [← byRole_of_dvd 0 r rfl, ← byRole_inPlaceSteps, Nat.zero_add]
    exact ⟨hrun, by rw [← hrun 64, byRole_of_dvd 64 _ rfl]⟩

end Sys2Proof.Machine
end

section
/-! COMPRESS as a run of the step instructions (spec/41_compression.md R133 to R137). -/

namespace Sys2Proof.Machine

variable {s : State}

/-! ### Steps selected by the index -/

theorem State.readByte_runSteps (n a : Nat) : (s.runSteps n).readByte a = s.readByte a := by
  induction n generalizing s with
  | zero => rfl
  | succ n ih => rw [State.runSteps, ih, State.stepSelected, State.readByte_stepWith]

theorem State.stepSelected_k (h : s.k.toNat < 63) : s.stepSelected.k.toNat = s.k.toNat + 1 := by
  rw [State.stepSelected_of_lt s h, State.setK_k, BitVec.toNat_ofNat]
  omega

/-- The instruction of the index the register holds is the step that register selects. -/
theorem exec_stepInstr_selected {k : Nat} (hk : s.k.toNat = k) : exec (stepInstr k) s = .next s.stepSelected := by
  subst hk
  exact exec_stepInstr s.k.isLt s

theorem execAll_cons {i : Instr} {l : List Instr} {t : State} (h : exec i s = .next t) : execAll (i :: l) s = execAll l t := by
  rw [execAll, h]

/-- The step instructions in index order, from the one the register selects on, run as its own steps. -/
theorem execAll_stepInstr {k n : Nat} (hk : s.k.toNat = k) (hn : k + n ≤ 64) :
    execAll ((List.range' k n).map stepInstr) s = .next (s.runSteps n) := by
  induction n generalizing k s with
  | zero => rfl
  | succ n ih =>
    rw [List.range'_succ, List.map_cons, execAll_cons (exec_stepInstr_selected hk), State.runSteps]
    rcases Nat.eq_zero_or_pos n with rfl | hpos
    · rfl
    · exact ih (by rw [State.stepSelected_k (by omega), hk]) (by omega)

/-! ### The load and the feed-forward -/

theorem State.readByte_loadCompress (q : Quad) (block : List Byte) (a : Nat) : (s.loadCompress q block).readByte a = s.readByte a := by
  rw [State.loadCompress, State.readByte_setK, State.readByte_setWork, State.readByte_setMsg]

theorem State.loadCompress_msg (q : Quad) (block : List Byte) (i : Fin 16) : (s.loadCompress q block).msg[i] = blockWord block i :=
  Vector.getElem_ofFn _

theorem State.compress_eq_feedForward (c : Nat) (block : List Byte) :
    s.compress c block = ((s.loadCompress (s.chain c) block).runSteps 64).feedForward c := by
  rw [State.compress]

/-- Settles O17: the 64 instructions run as the steps of COMPRESS, which leave S as it was for the feed-forward. -/
theorem compressIsLoadSixtyFourStepsAndFeedForward : Obligations.CompressIsLoadSixtyFourStepsAndFeedForward := by
  unfold Obligations.CompressIsLoadSixtyFourStepsAndFeedForward
  intro s c block _
  have hrun := execAll_stepInstr (s := s.loadCompress (s.chain c) block) (k := 0) (n := 64) rfl le_rfl
  have hfeed := s.compress_eq_feedForward c block
  generalize hu : (s.loadCompress (s.chain c) block).runSteps 64 = u at hrun hfeed
  have hbyte (a : Nat) : u.readByte a = s.readByte a := by
    rw [← hu, State.readByte_runSteps, State.readByte_loadCompress]
  have hchain : u.chain c = s.chain c := State.chain_congr (State.readBytes_congr fun i _ => hbyte _)
  rw [State.feedForward, hchain] at hfeed
  refine ⟨State.loadCompress_msg _ block, rfl, rfl, u, ?_, hbyte, hfeed, ?_, fun a ha => s.readByte_compress_of_outside block ha⟩
  · rw [List.range_eq_range', hrun]
  · rw [hfeed, State.chain_setChain]
    rfl

end Sys2Proof.Machine
end

section
/-! What a context holds, byte by byte (spec/20_memory.md R51, R53, R55), and the padding (spec/42_context_engine.md R160, R162). -/

namespace Sys2Proof

/-! ### The bytes of a double (R53) -/

theorem wordByte_extractLsb' (v : Double) (a : Nat) {i : Nat} (h : i < 4) :
    wordByte (v.extractLsb' a 32) i = v.extractLsb' (a + 8 * i) 8 := by
  ext j hj
  simp [wordByte, show 8 * i + j < 32 by omega, Nat.add_assoc]

/-- The eight bytes of a value, lowest first. -/
theorem le64_eq_extracts (v : Double) : le64 v = [v.extractLsb' 0 8, v.extractLsb' 8 8, v.extractLsb' 16 8, v.extractLsb' 24 8,
    v.extractLsb' 32 8, v.extractLsb' 40 8, v.extractLsb' 48 8, v.extractLsb' 56 8] := by
  simp [le64, le32, lowWord, highWord, wordByte_extractLsb']

/-- LE64 as a formula: byte i is v div 256^i mod 256 (R12). -/
theorem le64_eq_map (v : Double) : le64 v = (List.range 8).map fun i => BitVec.ofNat 8 (v.toNat / 256 ^ i) := by
  have hbyte (i : Nat) : v.extractLsb' (8 * i) 8 = BitVec.ofNat 8 (v.toNat / 256 ^ i) := by
    rw [BitVec.extractLsb', Nat.shiftRight_eq_div_pow, Nat.pow_mul]
  rw [le64_eq_extracts]
  change (List.range 8).map (fun i => v.extractLsb' (8 * i) 8) = _
  exact List.map_congr_left fun i _ => hbyte i

end Sys2Proof

namespace Sys2Proof.Machine

variable {s t : State}

theorem State.readByte_of_readBytes_eq {a n i : Nat} {bs : List Byte} (h : s.readBytes a n = bs) (hi : i < bs.length) :
    s.readByte (a + i) = bs[i] := by
  subst h
  exact (s.readBytes_getElem a n i hi).symm

/-- Byte m of a word in memory is the byte at its address plus m (R51). -/
theorem State.wordByte_readWord {a m : Nat} (hm : m < 4) : wordByte (s.readWord a) m = s.readByte (a + m) := by
  rw [State.readByte_of_readBytes_eq (s.le32_readWord a).symm (by simpa using hm)]
  interval_cases m <;> rfl

theorem State.readWord_countLow (c : Nat) : s.readWord (c + 0x10) = lowWord (s.count c) := (lowWord_doubleOf _ _).symm

theorem State.readWord_countHigh (c : Nat) : s.readWord (c + 0x14) = highWord (s.count c) := (highWord_doubleOf _ _).symm

/-! ### The padding (R160) -/

theorem padZeros_eq_emod (n : Nat) : padZeros n = ((55 - (n : Int)) % 64).toNat := by
  unfold padZeros
  omega

theorem finalBlocks_eq (f : Nat) : finalBlocks f = if f ≤ 55 then 1 else 2 := by
  unfold finalBlocks
  split <;> split <;> omega

/-- Settles O24: a padding has z + 9 bytes, and its length field is LE64 of the bit count. -/
theorem paddingOfEveryLength : Obligations.PaddingOfEveryLength := by
  unfold Obligations.PaddingOfEveryLength
  intro msg
  refine ⟨?_, ?_, padded_length msg, by omega⟩
  · rw [padding, padZeros_eq_emod, le64_eq_map, bitLength, BitVec.toNat_ofNat]
  · rw [List.length_append, tailOf_length, padding_length, padZeros]
    split <;> omega

end Sys2Proof.Machine
end

section
/-! INIT and ABSORB (spec/42_context_engine.md R151 to R158): the fresh context, the whole blocks hashed, the counter and the tail kept. -/

namespace Sys2Proof.Machine

variable {s t : State}

/-! ### INIT (R151) -/

/-- Settles O18: the specification of INIT gives S, CNT and BUF values that no state enters. -/
theorem initMakesAFreshContext : Obligations.InitMakesAFreshContext := by
  unfold Obligations.InitMakesAFreshContext
  intro s ctx hr
  obtain ⟨hchain, hcount, hbuffer, hphase, -⟩ := s.initContext_spec hr
  refine ⟨rfl, _, exec_init s hr, hchain, ?_, ?_, fun n hn => ?_, ?_, (hphase _).trans (if_pos rfl), s.initContext_internal ctx,
    fun s' t' h i hi hout => ?_⟩
  · rw [State.readWord_countLow, hcount]
    rfl
  · rw [State.readWord_countHigh, hcount]
    rfl
  · exact (State.readByte_of_readBytes_eq hbuffer (by simpa using hn)).trans (List.getElem_replicate _)
  · rw [State.readBytes_add _ _ 16 8, ← State.quadBytes_chain, hchain]
    rw [show (16 : Nat) = countOffset from rfl, ← State.le64_count, hcount]
    decide
  · obtain ⟨hr', rfl⟩ := exec_eq_next.1 h
    refine initContext_byte hr hr' (Region.holds_iff.2 ⟨Nat.le_add_right _ _, Nat.add_lt_add_left hi _⟩) (Region.holds_eq_false.2 ?_)
    simp only [baseField, baseOffset]
    omega

/-! ### ABSORB -/

theorem countAfter_eq_add (v : Double) (len : Word) : countAfter v len = v + BitVec.ofNat 64 (8 * len.toNat) := by
  rw [countAfter, add64, ← bitsOf_toNat, BitVec.ofNat_toNat, BitVec.setWidth_eq]

theorem countAfter_toNat (v : Double) (len : Word) : (countAfter v len).toNat = (v.toNat + 8 * len.toNat) % 2 ^ 64 := by
  rw [countAfter, add64, BitVec.toNat_add, bitsOf_toNat]

theorem countAfter_zero (v : Double) : countAfter v 0 = v := by
  simp [countAfter_eq_add]

theorem phaseOf_absorbSpan {ctx ptr len : Word} (hr : Ready s (.absorb ctx ptr len)) (c : Nat) :
    (s.absorbSpan ctx ptr len).phaseOf c = s.phaseOf c := by
  rw [State.phaseOf, absorbSpan_phases hr, ← State.phaseOf]

/-- ABSORB moves the fill level by the length of the span (R24, R154). -/
theorem absorbSpan_fillLevel {ctx ptr len : Word} (hr : Ready s (.absorb ctx ptr len)) :
    (s.absorbSpan ctx ptr len).fillLevel ctx.toNat = (s.fillLevel ctx.toNat + len.toNat) % 64 := by
  obtain ⟨hc, -, hspan⟩ := hr
  obtain ⟨-, hcount, -⟩ := s.absorbSpan_spec hc.fits hspan.clear
  rw [State.fillLevel, hcount, fillOf_countAfter, State.fillLevel]

/-- Settles O19: the specification of ABSORB, its counter as a sum. -/
theorem absorbHashesWholeBlocksAndKeepsTheTail : Obligations.AbsorbHashesWholeBlocksAndKeepsTheTail := by
  unfold Obligations.AbsorbHashesWholeBlocksAndKeepsTheTail
  intro s ctx ptr len hr
  have hfill := absorbSpan_fillLevel hr
  have hphase := phaseOf_absorbSpan hr ctx.toNat
  have hexec := exec_absorb s hr
  obtain ⟨hc, hactive, hspan⟩ := hr
  obtain ⟨hchain, hcount, hbuffer, -⟩ := s.absorbSpan_spec hc.fits hspan.clear
  exact ⟨_, hexec, hchain, hbuffer, hcount.trans (countAfter_eq_add _ _), hfill, hphase.trans hactive⟩

/-- Settles O20: the 64-bit sum of the specification of ABSORB, cut into its halves. -/
theorem counterAddsEightTimesTheLength : Obligations.CounterAddsEightTimesTheLength := by
  unfold Obligations.CounterAddsEightTimesTheLength
  intro s t ctx ptr len h
  obtain ⟨⟨hc, -, hspan⟩, rfl⟩ := exec_eq_next.1 h
  obtain ⟨hchain, hcount, -⟩ := s.absorbSpan_spec hc.fits hspan.clear
  have hsum := countAfter_toNat (s.count ctx.toNat) len
  have hlen := len.isLt
  rw [fillOf_toNat] at hchain
  rw [← hcount] at hsum
  have hlow (u : State) := congrArg BitVec.toNat (u.readWord_countLow ctx.toNat)
  have hhigh (u : State) := congrArg BitVec.toNat (u.readWord_countHigh ctx.toNat)
  simp only [lowWord_toNat] at hlow
  simp only [highWord_toNat] at hhigh
  refine ⟨by omega, hsum, ?_, ?_, hchain, fun hold hone => ?_⟩
  · rw [hlow, hlow, State.effect, hsum]
    omega
  · rw [hhigh, hhigh, hlow, State.effect, hsum]
    omega
  · rw [State.effect, hcount, hold, hone]
    decide

/-- ABSORB of an empty span writes the counter it read, and nothing else (R158 a). -/
theorem readByte_absorbSpan_empty {ctx ptr : Word} (hc : ContextReady s ctx) (a : Nat) :
    (s.absorbSpan ctx ptr 0).readByte a = s.readByte a := by
  obtain ⟨-, hcount, -, -, hframe⟩ := s.absorbSpan_spec (ptr := ptr) (len := 0) hc.fits (.inl rfl)
  rw [countAfter_zero] at hcount
  by_cases ha : ctx.toNat + 16 ≤ a ∧ a < ctx.toNat + 24
  · exact readByte_of_count hcount ha.1 ha.2
  · exact (hframe rfl).byte a ha

theorem absorbWrites_fields {c a : Nat} (h : absorbWrites c a) :
    ∃ r ∈ [chainField c, countField c, bufferField c], r.holds a = true := by
  unfold absorbWrites at h
  rcases show (c ≤ a ∧ a < c + 16) ∨ (c + 16 ≤ a ∧ a < c + 16 + 8) ∨ (c + 28 ≤ a ∧ a < c + 28 + 64) by omega with h | h | h
  · exact ⟨chainField c, by simp, Region.holds_iff.2 h⟩
  · exact ⟨countField c, by simp, Region.holds_iff.2 h⟩
  · exact ⟨bufferField c, by simp, Region.holds_iff.2 h⟩

/-- Settles O21: an empty span leaves every byte; with an empty buffer the blocks of the span are the only ones. -/
theorem emptyAndWholeBlockSpansBufferNothing : Obligations.EmptyAndWholeBlockSpansBufferNothing := by
  unfold Obligations.EmptyAndWholeBlockSpansBufferNothing
  intro s ctx ptr len hc hactive
  refine ⟨⟨_, exec_absorb s ⟨hc, hactive, .inl rfl⟩, readByte_absorbSpan_empty hc⟩, fun hspan hempty hwhole => ?_⟩
  have hr : Ready s (.absorb ctx ptr len) := ⟨hc, hactive, hspan⟩
  have hfill := absorbSpan_fillLevel hr
  obtain ⟨hchain, hcount, -, hframe, -⟩ := s.absorbSpan_spec hc.fits hspan.clear
  rw [← State.fillLevel, hempty, Nat.zero_add] at hchain
  rw [hempty, Nat.zero_add, hwhole] at hfill
  exact ⟨_, exec_absorb s hr, hchain, hfill, hcount.trans (countAfter_eq_add _ _),
    hframe.commits.sameBytesBut fun a ha => absorbWrites_fields ha⟩

/-- Settles O42: what ABSORB represents is the message grown by the span. -/
theorem absorbAppendsToTheMessage : Obligations.AbsorbAppendsToTheMessage := by
  unfold Obligations.AbsorbAppendsToTheMessage
  intro s ctx ptr len msg hr hmsg
  have hexec := exec_absorb s hr
  obtain ⟨hc, -, hspan⟩ := hr
  exact ⟨_, hexec, s.absorbSpan_represents hc hspan hmsg⟩

end Sys2Proof.Machine
end

section
/-! FINAL and the lifecycle of a context (spec/42_context_engine.md R150, R160 to R163). -/

namespace Sys2Proof.Machine

variable {s t : State}

/-- Settles O22: the padding FINAL forms is the bytes of the counter after the mark and the zeros. -/
theorem finalPadsAndCompressesTheTail : Obligations.FinalPadsAndCompressesTheTail := by
  unfold Obligations.FinalPadsAndCompressesTheTail
  intro s ctx out hr
  obtain ⟨hchain, hdigest, hphase, -⟩ := s.finalContext_spec hr
  have hlength := padOf_fills (s.count ctx.toNat) (fillOf_lt (s.count ctx.toNat))
  rw [finalBlocks_eq] at hchain hlength
  simp only [padOf, le64_eq_extracts] at hchain hlength
  refine ⟨?_, _, exec_final s hr, hchain, hdigest, (hphase _).trans (if_pos rfl), fun msg hmsg => s.finalContext_digest hr hmsg⟩
  rw [List.length_append, State.buffer, State.readBytes_length, State.fillLevel, hlength]
  split <;> rfl

theorem absorbWrites_inside {c a : Nat} (h : absorbWrites c a) : c ≤ a ∧ a < c + 92 := by
  unfold absorbWrites at h
  omega

/-- Settles O23: the digest bytes are the bytes of S in the context. -/
theorem digestBytesAreTheStateLittleEndian : Obligations.DigestBytesAreTheStateLittleEndian := by
  unfold Obligations.DigestBytesAreTheStateLittleEndian
  intro s t ctx out h
  obtain ⟨hr, rfl⟩ := exec_eq_next.1 h
  obtain ⟨-, hdigest, -, hframe⟩ := s.finalContext_spec hr
  rw [State.quadBytes_chain] at hdigest
  rw [State.effect]
  generalize s.finalContext ctx out = t at hdigest hframe
  have hbyte (n : Nat) (hn : n < 16) : t.readByte (out.toNat + n) = t.readByte (ctx.toNat + n) := by
    have hget := t.readBytes_getElem ctx.toNat 16 n (by simpa using hn)
    rw [State.readByte_of_readBytes_eq hdigest (by simpa using hn), hget]
  refine ⟨fun i m hi hm => ?_, fun i hi => State.readWord_congr (State.readBytes_congr fun m hm => ?_), ?_⟩
  · rw [Nat.add_assoc, hbyte _ (by omega), ← Nat.add_assoc]
    exact (State.wordByte_readWord hm).symm
  · rw [Nat.add_assoc, Nat.add_assoc, hbyte _ (by omega)]
  · refine hframe.sameBytesBut fun a ha => ?_
    rcases ha with ha | ha
    · exact ⟨⟨ctx.toNat, 92⟩, by simp, Region.holds_iff.2 (absorbWrites_inside ha)⟩
    · exact ⟨⟨out.toNat, 16⟩, by simp, Region.holds_iff.2 ha⟩

/-- ABSORB and FINAL of a context that is in order are refused by its phase alone (R150). -/
theorem exec_refused_of_phase {ctx : Word} {v : Refusal} (hc : ContextReady s ctx) (hv : s.checkPhase ctx = some v)
    (ptr len out : Word) : exec (.absorb ctx ptr len) s = .refused v ∧ exec (.final ctx out) s = .refused v := by
  rw [exec_eq_guarded, exec_eq_guarded, State.check, State.check, State.checkAbsorb, State.checkFinal, (contextReady_iff s ctx).1 hc, hv]
  exact ⟨rfl, rfl⟩

/-- Settles O27: each phase in turn; what is in order otherwise leaves the phase to decide. -/
theorem lifecycleOfAContext : Obligations.LifecycleOfAContext := by
  unfold Obligations.LifecycleOfAContext
  intro s ctx ptr len out hc hspan hdigest
  refine ⟨?_, fun hactive => ⟨?_, ?_⟩, fun hnone => ?_, fun hfinal => ?_⟩
  · obtain ⟨hchain, hcount, -, hphase, -⟩ := s.initContext_spec hc
    exact ⟨_, exec_init s hc, (hphase _).trans (if_pos rfl), represents_nil hchain hcount⟩
  · have hr : Ready s (.absorb ctx ptr len) := ⟨hc, hactive, hspan⟩
    exact ⟨_, exec_absorb s hr, (phaseOf_absorbSpan hr _).trans hactive⟩
  · have hr : Ready s (.final ctx out) := ⟨hc, hactive, hdigest⟩
    obtain ⟨-, -, hphase, -⟩ := s.finalContext_spec hr
    exact ⟨_, exec_final s hr, (hphase _).trans (if_pos rfl)⟩
  · exact exec_refused_of_phase hc (by rw [State.checkPhase, hnone]) ptr len out
  · exact exec_refused_of_phase hc (by rw [State.checkPhase, hfinal]) ptr len out

end Sys2Proof.Machine
end

section
/-! Streaming (spec/42_context_engine.md R159): ABSORB as a function of the abstract value and the bytes of the span, which takes a span in
one piece or in two alike. -/

namespace Sys2Proof.Machine

variable {s t : State} {ctx ptr len : Word}

/-- What ABSORB makes of an abstract value and the bytes of a span (R152, R154 to R157). -/
def AbstractValue.absorb (v : AbstractValue) (data : List Byte) : AbstractValue where
  chain := chainBlocks ((v.tail ++ data).length / 64) v.chain (v.tail ++ data)
  count := v.count + BitVec.ofNat 64 (8 * data.length)
  tail := tailOf (v.tail ++ data)

/-- Two contexts have one abstract value (R26) when their abstract values are equal. -/
theorem sameAbstractValue_iff {c e : Nat} : SameAbstractValue s c t e ↔ t.abstractValue e = s.abstractValue c := by
  simp only [SameAbstractValue, State.abstractValue, AbstractValue.mk.injEq]

/-- ABSORB on the state is that function. -/
theorem abstractValue_absorbSpan (hr : Ready s (.absorb ctx ptr len)) :
    (s.absorbSpan ctx ptr len).abstractValue ctx.toNat =
      (s.abstractValue ctx.toNat).absorb (s.readBytes ptr.toNat len.toNat) := by
  have hfill := absorbSpan_fillLevel hr
  obtain ⟨hc, -, hspan⟩ := hr
  obtain ⟨hchain, hcount, hbuffer, -⟩ := s.absorbSpan_spec hc.fits hspan.clear
  have hlength : (s.buffer ctx.toNat 0 (s.fillLevel ctx.toNat) ++ s.readBytes ptr.toNat len.toNat).length =
      s.fillLevel ctx.toNat + len.toNat := by
    rw [List.length_append, State.buffer, State.readBytes_length, State.readBytes_length]
  simp only [State.abstractValue, AbstractValue.absorb, AbstractValue.mk.injEq, tailOf, hlength, State.readBytes_length]
  exact ⟨hchain, hcount.trans (countAfter_eq_add _ _), by rw [hfill]; exact hbuffer⟩

/-- The whole blocks of `xs` and what follows them: chaining `xs ++ ys` passes through the chaining of `xs` (R136, R159). -/
theorem chainBlocks_append_tailOf (q : Quad) (xs ys : List Byte) :
    chainBlocks ((xs ++ ys).length / 64) q (xs ++ ys) =
      chainBlocks ((tailOf xs ++ ys).length / 64) (chainBlocks (xs.length / 64) q xs) (tailOf xs ++ ys) := by
  have hblocks : (xs ++ ys).length / 64 = xs.length / 64 + (tailOf xs ++ ys).length / 64 := by
    rw [List.length_append, List.length_append, tailOf_length]
    omega
  rw [hblocks, chainBlocks_add, chainBlocks_append (by omega), List.drop_append_of_le_length (by omega), ← tailOf]

theorem tailOf_append_tailOf (xs ys : List Byte) : tailOf (xs ++ ys) = tailOf (tailOf xs ++ ys) := by
  rw [tailOf_append, ← tailOf_length, ← List.length_append, ← tailOf]

/-- Absorbing two spans is absorbing their bytes at once (R159). -/
theorem AbstractValue.absorb_append (v : AbstractValue) (xs ys : List Byte) : v.absorb (xs ++ ys) = (v.absorb xs).absorb ys := by
  have hbits : BitVec.ofNat 64 (8 * (xs ++ ys).length) = BitVec.ofNat 64 (8 * xs.length) + BitVec.ofNat 64 (8 * ys.length) := by
    rw [List.length_append, Nat.mul_add, BitVec.ofNat_add]
  simp only [AbstractValue.absorb, ← List.append_assoc, AbstractValue.mk.injEq]
  exact ⟨chainBlocks_append_tailOf _ _ _, by rw [hbits, BitVec.add_assoc], tailOf_append_tailOf _ _⟩

/-- ABSORB keeps the preconditions of every operation: it changes neither the platform's parameters nor a phase. -/
theorem Ready.absorbSpan {i : Instr} (hi : Ready s i) (hr : Ready s (.absorb ctx ptr len)) : Ready (s.absorbSpan ctx ptr len) i :=
  hi.congr (effect_commits hr).platform (phaseOf_absorbSpan hr)

/-- ABSORB leaves every span that is clear of the context. -/
theorem readBytes_absorbSpan (hr : Ready s (.absorb ctx ptr len)) {p n : Word} (hspan : SpanReady s ctx p n) :
    (s.absorbSpan ctx ptr len).readBytes p.toNat n.toNat = s.readBytes p.toNat n.toNat := by
  obtain ⟨hc, -, hown⟩ := hr
  obtain ⟨-, -, -, hframe, -⟩ := s.absorbSpan_spec hc.fits hown.clear
  exact readBytes_span hframe hspan.clear fun a => absorbWrites_inside

/-- Where one span may be absorbed, so may any other that is in order. -/
theorem Ready.absorb_span (hr : Ready s (.absorb ctx ptr len)) {p n : Word} (hspan : SpanReady s ctx p n) :
    Ready s (.absorb ctx p n) := by
  obtain ⟨hc, hactive, -⟩ := hr
  exact ⟨hc, hactive, hspan⟩

/-- A context that takes a span can be finalized. -/
theorem Ready.final (hr : Ready s (.absorb ctx ptr len)) {out : Word} (hdigest : DigestReady s ctx out) :
    Ready s (.final ctx out) := by
  obtain ⟨hc, hactive, -⟩ := hr
  exact ⟨hc, hactive, hdigest⟩

/-- Settles O44: two ABSORBs and the one compute the same function of the abstract value, which decides the digest. -/
theorem splittingASpanChangesNothing : Obligations.SplittingASpanChangesNothing := by
  unfold Obligations.SplittingASpanChangesNothing
  intro s s' ctx ctx' p1 l1 p2 l2 p l hr1 hspan2 hr' hsame hlen hbytes
  have hr2 := (hr1.absorb_span hspan2).absorbSpan hr1
  have hready := hr2.absorbSpan hr2
  have hready' := hr'.absorbSpan hr'
  have hvalue : SameAbstractValue ((s.absorbSpan ctx p1 l1).absorbSpan ctx p2 l2) ctx.toNat (s'.absorbSpan ctx' p l) ctx'.toNat := by
    rw [sameAbstractValue_iff] at hsame ⊢
    rw [abstractValue_absorbSpan hr2, abstractValue_absorbSpan hr1, readBytes_absorbSpan hr1 hspan2,
      ← AbstractValue.absorb_append, ← hbytes, ← hsame, abstractValue_absorbSpan hr']
  refine ⟨_, _, ?_, exec_absorb s' hr', hvalue, fun out out' hout hout' => ?_⟩
  · rw [execAll_cons (exec_absorb s hr1), execAll_cons (exec_absorb _ hr2), execAll]
  · have hf := hready.final hout
    have hf' := hready'.final hout'
    exact ⟨_, _, exec_final _ hf, exec_final _ hf', hvalue.finalContext hf hf'⟩

end Sys2Proof.Machine
end

section
/-! The digest of a message (spec/42_context_engine.md R164, R165): INIT, one ABSORB for each span and FINAL, run one after the other. -/

namespace Sys2Proof.Machine

variable {s t : State} {ctx out : Word} {spans : List (Word × Word)}

theorem execAll_append {l m : List Instr} (h : execAll l s = .next t) : execAll (l ++ m) s = execAll m t := by
  induction l generalizing s with
  | nil =>
    cases h
    rfl
  | cons i l ih =>
    cases hi : exec i s with
    | next u =>
      rw [execAll_cons hi] at h
      rw [List.cons_append, execAll_cons hi, ih h]
    | fault v => simp [execAll, hi] at h
    | refused v => simp [execAll, hi] at h

/-- What a digest run needs: the context, the digest region and every span in order, whatever the phase (R151, R153, R161). -/
structure RunReady (s : State) (ctx out : Word) (spans : List (Word × Word)) : Prop where
  context : ContextReady s ctx
  digest : DigestReady s ctx out
  span : ∀ x ∈ spans, SpanReady s ctx x.1 x.2

/-- It depends on the platform's parameters alone. -/
theorem RunReady.congr (h : RunReady s ctx out spans) (hp : t.platform = s.platform) : RunReady t ctx out spans := by
  obtain ⟨hc, hd, hs⟩ := h
  constructor <;> simpa only [ContextReady, DigestReady, SpanReady, RegionValid, Backed, hp]

/-- Spans clear of the context hold the same bytes after a change inside the context. -/
theorem spansBytes_of_commits {A : Nat → Prop} (h : Commits A s t) (hA : ∀ a, A a → ctx.toNat ≤ a ∧ a < ctx.toNat + 92)
    (hspans : ∀ x ∈ spans, SpanReady s ctx x.1 x.2) : spansBytes t spans = spansBytes s spans := by
  induction spans with
  | nil => rfl
  | cons x rest ih =>
    obtain ⟨hx, hrest⟩ := List.forall_mem_cons.1 hspans
    have hclear := hx.clear
    have hbytes : t.readBytes x.1.toNat x.2.toNat = s.readBytes x.1.toNat x.2.toNat := h.readBytes fun a h1 h2 ha => by
      have hin := hA a ha
      unfold ClearOf at hclear
      omega
    rw [spansBytes, spansBytes, hbytes, ih hrest]

/-- One ABSORB for each span: all complete, and the message grows by their bytes in call order (R152). -/
theorem execAll_absorbs {msg : List Byte} (hr : RunReady s ctx out spans) (hactive : s.phaseOf ctx.toNat = .active)
    (hmsg : Represents s ctx.toNat msg) :
    ∃ t, execAll (absorbs ctx spans) s = .next t ∧ t.platform = s.platform ∧ t.phaseOf ctx.toNat = .active ∧
      Represents t ctx.toNat (msg ++ spansBytes s spans) := by
  induction spans generalizing s msg with
  | nil => exact ⟨s, rfl, rfl, hactive, by rwa [spansBytes, List.append_nil]⟩
  | cons x rest ih =>
    obtain ⟨hc, hd, hspans⟩ := hr
    obtain ⟨hx, hrest⟩ := List.forall_mem_cons.1 hspans
    have hready : Ready s (.absorb ctx x.1 x.2) := ⟨hc, hactive, hx⟩
    obtain ⟨-, -, -, hframe, -⟩ := s.absorbSpan_spec hc.fits hx.clear
    have hgrown := s.absorbSpan_represents hc hx hmsg
    obtain ⟨t, hrun, hplatform, hphase, ht⟩ :=
      ih (RunReady.congr ⟨hc, hd, hrest⟩ hframe.platform) ((phaseOf_absorbSpan hready _).trans hactive) hgrown
    refine ⟨t, (execAll_cons (exec_absorb s hready)).trans hrun, hplatform.trans hframe.platform, hphase, ?_⟩
    rwa [spansBytes_of_commits hframe.commits (fun a => absorbWrites_inside) hrest, List.append_assoc] at ht

/-- A digest run completes and leaves the MD5 digest of the spans' bytes (R164). -/
theorem execAll_digestRun (hr : RunReady s ctx out spans) :
    ∃ t, execAll (.init ctx :: (absorbs ctx spans ++ [.final ctx out])) s = .next t ∧ t.platform = s.platform ∧
      t.phaseOf ctx.toNat = .finalized ∧ t.readBytes out.toNat 16 = md5 (spansBytes s spans) := by
  obtain ⟨hchain, hcount, -, hphase, hframe⟩ := s.initContext_spec hr.context
  obtain ⟨u, hrun, hplatform, hactive, hmsg⟩ :=
    execAll_absorbs (hr.congr hframe.platform) ((hphase _).trans (if_pos rfl)) (represents_nil hchain hcount)
  rw [List.nil_append, spansBytes_of_commits hframe (fun _ => id) hr.span] at hmsg
  have hu := hr.congr (hplatform.trans hframe.platform)
  have hfinal : Ready u (.final ctx out) := ⟨hu.context, hactive, hu.digest⟩
  obtain ⟨-, -, hdone, hlast⟩ := u.finalContext_spec hfinal
  refine ⟨u.finalContext ctx out, ?_, hlast.platform.trans (hplatform.trans hframe.platform), (hdone _).trans (if_pos rfl),
    (u.finalContext_digest hfinal hmsg).2⟩
  rw [execAll_cons (exec_init s hr.context), execAll_append hrun, execAll_cons (exec_final u hfinal), execAll]

/-- Settles O45: the digest run, with the digest written out as the fold over the blocks of the padded message. -/
theorem digestIsMD5OfTheConcatenatedSpans : Obligations.DigestIsMD5OfTheConcatenatedSpans := by
  unfold Obligations.DigestIsMD5OfTheConcatenatedSpans
  intro s ctx out spans hc hd hs
  obtain ⟨t, hrun, -, hphase, hdigest⟩ := execAll_digestRun ⟨hc, hd, hs⟩
  have hfold (msg : List Byte) : md5 msg = quadBytes (chainBlocks ((msg.length + 8) / 64 + 1) magicWords (padded msg)) := by
    rw [md5, chainOf, padded_length, Nat.mul_div_cancel_left _ (by omega)]
  exact ⟨t, hrun, hphase, hdigest.trans (hfold _), hdigest⟩

/-- Settles O46: each digest run, the one on the finalized context too, gives the MD5 digest of its message. -/
theorem digestDependsOnTheMessageAlone : Obligations.DigestDependsOnTheMessageAlone := by
  unfold Obligations.DigestDependsOnTheMessageAlone
  intro s s' ctx ctx' out out' spans spans' hc hd hs hc' hd' hs'
  obtain ⟨t, hrun, hplatform, -, hdigest⟩ := execAll_digestRun ⟨hc, hd, hs⟩
  obtain ⟨t', hrun', -, -, hdigest'⟩ := execAll_digestRun ⟨hc', hd', hs'⟩
  refine ⟨t, t', hrun, hrun', fun hmsg => by rw [hdigest, hdigest', hmsg], fun again hagain hmsg => ?_⟩
  obtain ⟨hct, hdt, -⟩ := RunReady.congr ⟨hc, hd, hs⟩ hplatform
  obtain ⟨u, hrunAgain, -, -, hdigestAgain⟩ := execAll_digestRun ⟨hct, hdt, hagain⟩
  exact ⟨u, hrunAgain, by rw [hdigestAgain, hdigest', hmsg]⟩

end Sys2Proof.Machine
end

section
/-! Contract violations (spec/60_exceptions.md R190, R191): which of V1 to V5 an operation is refused as, when its preconditions do not hold.
R194 allows any order of the checks; the names below follow the model's (log entry 12). -/

namespace Sys2Proof.Machine

variable {s : State} {ctx ptr len out : Word} {v : Refusal}

/-! ### Every failed precondition is one of V1 to V5 -/

/-- V1 to V5: what the operands and the phase of a command can violate. -/
def operandViolations : List Refusal :=
  [.uninitializedContext, .finalizedContext, .invalidRegion, .misalignedReference, .overlappingRegions]

theorem mem_violations_of_checkContext (h : s.checkContext ctx = some v) : v ∈ operandViolations := by
  rw [State.checkContext] at h
  split_ifs at h <;> cases h <;> simp [operandViolations]

theorem mem_violations_of_checkPhase (h : s.checkPhase ctx = some v) : v ∈ operandViolations := by
  rw [State.checkPhase] at h
  split at h <;> cases h <;> simp [operandViolations]

theorem mem_violations_of_checkOther {align : Nat} {ref : Word} {r : Region} (h : s.checkOther ctx align ref r = some v) :
    v ∈ operandViolations := by
  rw [State.checkOther] at h
  split_ifs at h <;> cases h <;> simp [operandViolations]

theorem mem_violations_of_checkAbsorb (h : s.checkAbsorb ctx ptr len = some v) : v ∈ operandViolations := by
  rw [State.checkAbsorb, Option.or_eq_some_iff, Option.or_eq_some_iff] at h
  rcases h with hctx | ⟨-, hphase | ⟨-, hspan⟩⟩
  · exact mem_violations_of_checkContext hctx
  · exact mem_violations_of_checkPhase hphase
  · split_ifs at hspan
    exact mem_violations_of_checkOther hspan

theorem mem_violations_of_checkFinal (h : s.checkFinal ctx out = some v) : v ∈ operandViolations := by
  rw [State.checkFinal, Option.or_eq_some_iff, Option.or_eq_some_iff] at h
  rcases h with hctx | ⟨-, hphase | ⟨-, hdigest⟩⟩
  · exact mem_violations_of_checkContext hctx
  · exact mem_violations_of_checkPhase hphase
  · exact mem_violations_of_checkOther hdigest

theorem mem_violations_of_check {i : Instr} (h : s.check i = some v) : v ∈ operandViolations := by
  rcases command_or_step i with ⟨ctx, rfl⟩ | ⟨ctx, ptr, len, rfl⟩ | ⟨ctx, out, rfl⟩ | ⟨n, hn, rfl⟩
  · exact mem_violations_of_checkContext h
  · exact mem_violations_of_checkAbsorb h
  · exact mem_violations_of_checkFinal h
  · have hready : Ready s (stepInstr n) := (exec_eq_next.1 (exec_stepInstr hn s)).1
    rw [(ready_iff_check s _).1 hready] at h
    cases h

theorem exec_refused_of_check {i : Instr} (h : s.check i = some v) : exec i s = .refused v := by
  rw [exec_eq_guarded, h]
  rfl

/-- Settles O28: exec takes the effect when the check passes, and a check that fails names one of V1 to V5. -/
theorem execCompletesExactlyWhenReady : Obligations.ExecCompletesExactlyWhenReady := by
  unfold Obligations.ExecCompletesExactlyWhenReady
  refine fun i s => ⟨fun hready => ⟨_, exec_of_ready hready⟩, fun hnot => ?_⟩
  rw [ready_iff_check] at hnot
  obtain ⟨v, hv⟩ := Option.ne_none_iff_exists'.1 hnot
  exact ⟨v, exec_refused_of_check hv, mem_violations_of_check hv⟩

/-! ### The violation by its name -/

theorem checkContext_of_misaligned (h : ctx.toNat % 4 ≠ 0) : s.checkContext ctx = some .misalignedReference := by
  have hmisaligned : isAligned Config.ctxAlign ctx = false := beq_eq_false_iff_ne.2 h
  rw [State.checkContext, hmisaligned]
  rfl

theorem checkContext_of_invalid (haligned : ctx.toNat % 4 = 0) (h : ¬ RegionValid s ctx.toNat 92) :
    s.checkContext ctx = some .invalidRegion := by
  have halign : isAligned Config.ctxAlign ctx = true := beq_iff_eq.2 haligned
  have hinvalid : s.validRegion (contextRegion ctx) = false := Bool.eq_false_iff.2 (mt (regionValid_iff s _ _).2 h)
  rw [State.checkContext, halign, hinvalid]
  rfl

/-- A region that need not be aligned is V3 when it is not valid (R62). -/
theorem checkOther_of_invalid {ref : Word} {b n : Nat} (h : ¬ RegionValid s b n) :
    s.checkOther ctx 1 ref ⟨b, n⟩ = some .invalidRegion := by
  have hinvalid : s.validRegion ⟨b, n⟩ = false := Bool.eq_false_iff.2 (mt (regionValid_iff s b n).2 h)
  rw [State.checkOther, isAligned_one, hinvalid]
  rfl

/-- A valid region that need not be aligned is V5 when it meets the context (R64). -/
theorem checkOther_of_common {ref : Word} {b n : Nat} (hvalid : RegionValid s b n) (h : ¬ NoCommonByte ctx.toNat 92 b n) :
    s.checkOther ctx 1 ref ⟨b, n⟩ = some .overlappingRegions := by
  have hmeets : (contextRegion ctx).overlaps ⟨b, n⟩ = true := by
    by_contra hclear
    exact h ((noCommonByte_iff (by omega)).2 (Bool.eq_false_iff.2 hclear))
  rw [State.checkOther, isAligned_one, (regionValid_iff s b n).1 hvalid, hmeets]
  rfl

/-- A context that is not in order refuses all three commands, whatever else they commit. -/
theorem exec_refused_of_context (h : s.checkContext ctx = some v) (ptr len out : Word) :
    exec (.init ctx) s = .refused v ∧ exec (.absorb ctx ptr len) s = .refused v ∧ exec (.final ctx out) s = .refused v := by
  refine ⟨exec_refused_of_check h, exec_refused_of_check ?_, exec_refused_of_check ?_⟩
  · rw [State.check, State.checkAbsorb, h, Option.some_or]
  · rw [State.check, State.checkFinal, h, Option.some_or]

section
variable (hc : ContextReady s ctx) (hactive : s.phaseOf ctx.toNat = .active)
include hc hactive

/-- On an Active context in order, ABSORB of a span that is not empty is refused by the span alone. -/
theorem exec_absorb_refused_of_span (hlen : len ≠ 0) (h : s.checkOther ctx 1 ptr (spanRegion ptr len) = some v) :
    exec (.absorb ctx ptr len) s = .refused v := by
  refine exec_refused_of_check ?_
  rw [State.check, State.checkAbsorb, (contextReady_iff s ctx).1 hc, (s.checkPhase_eq_none ctx).2 hactive, if_neg hlen]
  exact h

/-- On an Active context in order, FINAL is refused by the digest region alone. -/
theorem exec_final_refused_of_digest (h : s.checkOther ctx 1 out (digestRegion out) = some v) : exec (.final ctx out) s = .refused v := by
  refine exec_refused_of_check ?_
  rw [State.check, State.checkFinal, (contextReady_iff s ctx).1 hc, (s.checkPhase_eq_none ctx).2 hactive]
  exact h

end

/-- An empty span has no byte in common with anything. -/
theorem noCommonByte_empty (a n b : Nat) : NoCommonByte a n b 0 := by
  intro x hx
  omega

/-- Settles O29: the context is checked first, then the span or the digest region, validity before overlap. -/
theorem eachViolationIsRefusedByName : Obligations.EachViolationIsRefusedByName := by
  unfold Obligations.EachViolationIsRefusedByName
  intro s ctx ptr len out
  refine ⟨fun hmisaligned => ?_, fun haligned hinvalid => ?_, fun hc hactive => ⟨fun hlen hspan => ?_, fun hdigest => ?_,
    fun hspan hmeets => ?_, fun hdigest hmeets => ?_⟩⟩
  · exact exec_refused_of_context (checkContext_of_misaligned hmisaligned) ptr len out
  · exact exec_refused_of_context (checkContext_of_invalid haligned hinvalid) ptr len out
  · exact exec_absorb_refused_of_span hc hactive hlen (checkOther_of_invalid hspan)
  · exact exec_final_refused_of_digest hc hactive (checkOther_of_invalid hdigest)
  · have hlen : len ≠ 0 := by
      rintro rfl
      exact hmeets (noCommonByte_empty _ _ _)
    exact exec_absorb_refused_of_span hc hactive hlen (checkOther_of_common hspan hmeets)
  · exact exec_final_refused_of_digest hc hactive (checkOther_of_common hdigest hmeets)

end Sys2Proof.Machine
end

section
/-! No valid command is turned away (spec/60_exceptions.md R190, spec/70_reset_and_hazards.md R226): while it waits for an engine, the
commands in progress complete, the oldest first, and leave it in order (log entry 10). -/

namespace Sys2Proof.Machine

variable {s : State} {d : Descriptor} {i : Instr}

/-- A running command completes and leaves in order the commands still in progress and every other it does not conflict with (R215). -/
theorem InFlightSound.complete (h : InFlightSound s) {n : Nat} {j : Instr} (hj : s.running[n]? = some j) :
    ∃ t, s.complete n = .next t ∧ t.platform = s.platform ∧ t.pending = s.pending ∧ t.inFlight = s.inFlight.eraseIdx n ∧
      InFlightSound t ∧ ∀ i, Ready s i → conflicts j i = false → Ready t i := by
  have hin := State.inFlight_of_running hj
  have hready : ∀ i, Ready s i → Ready (s.setInFlight (s.inFlight.eraseIdx n)) i := fun i hi => hi.congr rfl fun _ => rfl
  have hrun := hready j (h.ready (List.mem_of_getElem? hin))
  have hafter : ∀ i, Ready s i → conflicts j i = false → Ready ((s.setInFlight (s.inFlight.eraseIdx n)).effect j) i :=
    fun i hi hfree => hrun.after (hready i hi) hfree
  have hframe := effect_commits hrun
  refine ⟨_, ?_, hframe.platform, hframe.pending, hframe.inFlight, ⟨?_, fun k hk => ?_⟩, hafter⟩
  · rw [State.complete, hj]
    exact exec_of_ready hrun
  · rw [hframe.inFlight]
    exact h.1.sublist (List.eraseIdx_sublist _ n)
  · rw [hframe.inFlight] at hk
    exact (ready_iff_check _ k).1 (hafter k (h.ready (List.mem_of_mem_eraseIdx hk)) (h.eraseIdx_free hin k hk))

/-! ### A command that may be issued -/

/-- The commands in progress are sound, and `i` is in order and conflicts with none of them. -/
structure Admissible (s : State) (i : Instr) : Prop where
  sound : InFlightSound s
  ready : Ready s i
  allowed : s.admission i = none

theorem Admissible.setPending (h : Admissible s i) (l : List Input) : Admissible (s.setPending l) i := by
  obtain ⟨⟨hpair, hcheck⟩, hready, hallowed⟩ := h
  exact ⟨⟨hpair, fun j hj => (check_setPending s l j).trans (hcheck j hj)⟩, hready.congr rfl fun _ => rfl, hallowed⟩

/-- The oldest command in progress completes and leaves `i` admissible. -/
theorem Admissible.complete_oldest (h : Admissible s i) (hne : s.inFlight ≠ []) :
    ∃ t, s.complete 0 = .next t ∧ t.platform = s.platform ∧ t.pending = s.pending ∧ t.inFlight = s.inFlight.drop 1 ∧
      Admissible t i := by
  obtain ⟨j, l, hflight⟩ := List.exists_cons_of_ne_nil hne
  have hrunning : s.running[0]? = some j := by rw [State.running_zero, hflight, List.getElem?_cons_zero]
  have hfree := admission_eq_none.1 h.allowed
  obtain ⟨t, hstep, hplatform, hpending, hrest, hsound, hready⟩ := h.sound.complete hrunning
  rw [hflight] at hfree hrest ⊢
  refine ⟨t, hstep, hplatform, hpending, hrest, hsound, hready i h.ready ?_, admission_eq_none.2 fun k hk => ?_⟩
  · exact conflicts_symm (hfree j List.mem_cons_self)
  · rw [hrest] at hk
    exact hfree k (List.mem_cons_of_mem j hk)

/-- With an idle engine an issued command runs at once. -/
theorem Admissible.issue_of_idleEngine (h : Admissible s i) (hd : decodeDescriptor d = .ok i) (hengine : s.hasIdleEngine = true) :
    s.issue d = exec i s := by
  simp only [State.issue, hd, h.allowed, hengine, if_true]

/-- With every engine busy the issue stays the next input, and the oldest command in progress completes. -/
theorem Admissible.step_of_waiting (h : Admissible s i) {rest : List Input} (hd : decodeDescriptor d = .ok i)
    (hp : s.pending = .issue d :: rest) (hengine : s.hasIdleEngine = false) : step s = s.complete 0 := by
  have hallowed : (s.setPending rest).admission i = none := h.allowed
  have hbusy : (s.setPending rest).hasIdleEngine = false := hengine
  have hback : (s.setPending rest).setPending (.issue d :: (s.setPending rest).pending) = s := s.setPending_self hp
  rw [step_of_pending hp]
  simp only [State.take, State.issue, hd, hallowed, hbusy, hback, Bool.false_eq_true, if_false]

/-- A started command is put among those in progress. -/
theorem Admissible.start (h : Admissible s i) (hd : decodeDescriptor d = .ok i) :
    s.start d = .next (s.setInFlight (s.inFlight ++ [i])) := by
  simp only [State.start, hd, h.allowed, (ready_iff_check s i).1 h.ready, Option.none_or, guarded]

theorem hasIdleEngine_eq_true : s.hasIdleEngine = true ↔ s.inFlight.length ≤ s.platform.moreEngines := by
  simp [State.hasIdleEngine]

theorem hasIdleEngine_eq_false : s.hasIdleEngine = false ↔ s.platform.moreEngines < s.inFlight.length := by
  rw [Bool.eq_false_iff, ne_eq, hasIdleEngine_eq_true, not_le]

/-- An issue waits for one step per command in progress beyond the number of engines less one. -/
theorem Admissible.stepTimes_of_waiting {rest : List Input} (hd : decodeDescriptor d = .ok i) {n : Nat} (h : Admissible s i)
    (hp : s.pending = .issue d :: rest) (hn : n = s.inFlight.length - s.platform.moreEngines) :
    ∃ u, stepTimes n s = .next u ∧ u.platform = s.platform ∧ u.pending = .issue d :: rest ∧ u.inFlight = s.inFlight.drop n ∧
      Admissible u i := by
  induction n generalizing s with
  | zero => exact ⟨s, rfl, rfl, hp, rfl, h⟩
  | succ n ih =>
    have hne : s.inFlight ≠ [] := List.ne_nil_of_length_pos (by omega)
    obtain ⟨t, hstep, hplatform, hpending, hflight, ht⟩ := h.complete_oldest hne
    have hwait := h.step_of_waiting hd hp (hasIdleEngine_eq_false.2 (by omega))
    obtain ⟨u, hrun, hu, hup, huf, hua⟩ := ih ht (hpending.trans hp) (by rw [hflight, hplatform, List.length_drop]; omega)
    refine ⟨u, (stepTimes_succ_of_next (hwait.trans hstep)).trans hrun, hu.trans hplatform, hup, ?_, hua⟩
    rw [huf, hflight, List.drop_drop, Nat.add_comm]

/-- Settles O49: by induction on the commands that have to complete first, each of which leaves the issued one admissible. -/
theorem everyValidCommandIsTaken : Obligations.EveryValidCommandIsTaken := by
  unfold Obligations.EveryValidCommandIsTaken
  intro s d i rest hsound hd hready hfree
  have h : Admissible s i := ⟨hsound, hready, by simp [State.admission, hfree]⟩
  refine ⟨fun hp => ?_, fun hp => (step_of_pending hp).trans ((h.setPending rest).start hd)⟩
  obtain ⟨u, hrun, hplatform, hpending, hflight, hu⟩ := h.stepTimes_of_waiting hd hp rfl
  have hidle : (u.setPending rest).hasIdleEngine = true := by
    refine hasIdleEngine_eq_true.2 ?_
    rw [State.setPending_inFlight, State.setPending_platform, hflight, hplatform, List.length_drop]
    omega
  have hrest := hu.setPending rest
  have hexec := exec_of_ready hrest.ready
  exact ⟨u, hrun, hpending, hflight, _,
    (step_of_pending hpending).trans ((hrest.issue_of_idleEngine hd hidle).trans hexec), hexec⟩

end Sys2Proof.Machine
end

section
/-! The host's moves (spec/70_reset_and_hazards.md R228): a step takes the next input, a command in progress freezes its regions (R215, R216),
and what a host write, a host read and a hardware reset leave (R210, R217). -/

namespace Sys2Proof.Machine

variable {s : State} {d : Descriptor} {i : Instr} {a : Word} {bs : List Byte} {n : Nat}

/-! ### Issued commands and ticks -/

/-- With an idle engine an admitted command runs at once. -/
theorem issue_of_admitted (hd : decodeDescriptor d = .ok i) (hadmitted : s.admission i = none) (hengine : s.hasIdleEngine = true) :
    s.issue d = exec i s := by
  simp only [State.issue, hd, hadmitted, hengine, if_true]

/-- Settles O31: both inputs are handed to exec; with no command in progress nothing conflicts and every engine is idle. -/
theorem stepRunsTheDecodedInstruction : Obligations.StepRunsTheDecodedInstruction := by
  unfold Obligations.StepRunsTheDecodedInstruction
  refine ⟨fun s d i rest hp hd hfree => ?_, fun s rest hp => step_of_pending hp⟩
  rw [step_of_pending hp]
  rcases hfree with ⟨hadmitted, hengine⟩ | hidle
  · exact issue_of_admitted hd hadmitted hengine
  · exact issue_of_idle hidle hd

/-! ### Regions in use -/

theorem anyOverlap_eq_true {rs qs : List Region} : anyOverlap rs qs = true ↔ ∃ r ∈ rs, ∃ q ∈ qs, r.overlaps q = true := by
  simp [anyOverlap]

theorem anyOverlap_singleton (r : Region) (qs : List Region) : anyOverlap [r] qs = qs.any fun q => q.overlaps r := by
  rw [anyOverlap_comm]
  simp [anyOverlap]

theorem busyToWrite_eq (r : Region) : s.busyToWrite r = s.inFlight.any fun i => (usedRegions i).any fun q => q.overlaps r := by
  simp only [State.busyToWrite, anyOverlap_singleton]

theorem busyToRead_eq (r : Region) : s.busyToRead r = s.inFlight.any fun i => (writtenRegions i).any fun q => q.overlaps r := by
  simp only [State.busyToRead, anyOverlap_singleton]

theorem admission_of_conflict {j : Instr} (hi : i ∈ s.inFlight) (h : conflicts i j = true) :
    s.admission j = some .concurrentAccess := by
  have hbusy : s.busyFor j = true := List.any_eq_true.2 ⟨i, hi, by rwa [conflicts_comm]⟩
  rw [State.admission, if_pos hbusy]

theorem issue_of_notAdmitted {v : Refusal} (hd : decodeDescriptor d = .ok i) (h : s.admission i = some v) : s.issue d = .refused v := by
  simp only [State.issue, hd, h]

/-- What admission refuses is refused whatever the preconditions say (log entry 12). -/
theorem start_of_notAdmitted {v : Refusal} (hd : decodeDescriptor d = .ok i) (h : s.admission i = some v) : s.start d = .refused v := by
  simp only [State.start, hd, h, Option.some_or, guarded]

/-! ### Host writes and reads, case by case -/

theorem hostWrite_of_free (hfit : a.toNat + bs.length ≤ Config.addressSpace) (hfree : s.busyToWrite ⟨a.toNat, bs.length⟩ = false) :
    s.hostWrite a bs = .next ((s.writeBytes a.toNat bs).retire ⟨a.toNat, bs.length⟩) := by
  simp only [State.hostWrite, hfree, Nat.not_lt.2 hfit, if_false, Bool.false_eq_true]

theorem hostWrite_of_busy (hfit : a.toNat + bs.length ≤ Config.addressSpace) (hbusy : s.busyToWrite ⟨a.toNat, bs.length⟩ = true) :
    s.hostWrite a bs = .refused .concurrentAccess := by
  simp only [State.hostWrite, hbusy, Nat.not_lt.2 hfit, if_false, if_true]

theorem hostRead_of_outside (hout : Config.addressSpace < a.toNat + n) : s.hostRead a n = .fault .outsideAddressSpace := by
  simp only [State.hostRead, hout, if_true]

theorem hostRead_of_free (hfit : a.toNat + n ≤ Config.addressSpace) (hfree : s.busyToRead ⟨a.toNat, n⟩ = false) :
    s.hostRead a n = .next (s.setHostData (s.readBytes a.toNat n)) := by
  simp only [State.hostRead, hfree, Nat.not_lt.2 hfit, if_false, Bool.false_eq_true]

theorem hostRead_of_busy (hfit : a.toNat + n ≤ Config.addressSpace) (hbusy : s.busyToRead ⟨a.toNat, n⟩ = true) :
    s.hostRead a n = .refused .concurrentAccess := by
  simp only [State.hostRead, hbusy, Nat.not_lt.2 hfit, if_false, if_true]

/-! ### What the host's moves leave -/

/-- Settles O33: the bytes are written and the contexts they meet retired; each claim is a law of one of the two. -/
theorem hostWriteRetiresTheContextsItMeets : Obligations.HostWriteRetiresTheContextsItMeets := by
  unfold Obligations.HostWriteRetiresTheContextsItMeets
  intro s a bs rest hp hfit hfree
  have hinternal : SameInternal s (s.setPending rest) := ⟨rfl, rfl, rfl, rfl, rfl, rfl⟩
  have hfree' : (s.setPending rest).busyToWrite ⟨a.toNat, bs.length⟩ = false := by simpa [busyToWrite_eq] using hfree
  refine ⟨_, (step_of_pending hp).trans (hostWrite_of_free hfit hfree'), ?_, fun x hout => ?_, fun c => ?_,
    hinternal.writeBytes a.toNat bs, by simp, by simp, by simp, by simp⟩
  · rw [State.readBytes_retire, State.readBytes_writeBytes_same _ rfl]
  · rw [State.readByte_retire,
      State.readByte_writeBytes_of_outside _ (Region.holds_eq_false.1 (hout _ List.mem_cons_self)), State.readByte_setPending]
  · rw [State.phaseOf_retire, State.phaseOf, State.writeBytes_phases]
    rfl

/-- Settles O34: one case of the host read for each clause. -/
theorem hostReadReturnsTheBytes : Obligations.HostReadReturnsTheBytes := by
  unfold Obligations.HostReadReturnsTheBytes
  intro s a n rest hp
  rw [step_of_pending hp]
  refine ⟨hostRead_of_outside, fun hfit => ⟨fun hfree => ?_, fun hbusy => ?_⟩⟩
  · have hfree' : (s.setPending rest).busyToRead ⟨a.toNat, n⟩ = false := by simpa [busyToRead_eq] using hfree
    have hread := hostRead_of_free hfit hfree'
    rwa [State.readBytes_setPending] at hread
  · exact hostRead_of_busy hfit (by simpa [busyToRead_eq] using hbusy)

/-- Settles O35: a host write that meets a used region finds it busy, a conflicting command is not admitted. -/
theorem regionsInUseAreFrozen : Obligations.RegionsInUseAreFrozen := by
  unfold Obligations.RegionsInUseAreFrozen
  intro s i rest hi
  refine ⟨fun a bs hp hfit hmeets => ?_, fun d j hd hmeets => ?_⟩
  · have hbusy : (s.setPending rest).busyToWrite ⟨a.toNat, bs.length⟩ = true := by
      simpa [busyToWrite_eq] using ⟨i, hi, hmeets⟩
    exact (step_of_pending hp).trans (hostWrite_of_busy hfit hbusy)
  · have hconflict : conflicts i j = true := by
      rwa [conflicts, Bool.or_eq_true, anyOverlap_eq_true, anyOverlap_eq_true]
    have hrefused : (s.setPending rest).admission j = some .concurrentAccess := admission_of_conflict hi hconflict
    exact ⟨fun hp => (step_of_pending hp).trans (issue_of_notAdmitted hd hrefused),
      fun hp => (step_of_pending hp).trans (start_of_notAdmitted hd hrefused)⟩

/-- Settles O37: a reset empties the lists of memory, phases and commands in progress, and every claim reads off an empty list. -/
theorem hardwareResetLeavesNoContextLive : Obligations.HardwareResetLeavesNoContextLive := by
  unfold Obligations.HardwareResetLeavesNoContextLive
  exact fun s rest hp => ⟨_, step_of_pending hp, fun _ => rfl, rfl, fun _ => rfl, rfl, rfl⟩

end Sys2Proof.Machine
end

section
/-! Runs of the machine (spec/70_reset_and_hazards.md R225 to R227, R229): the commands in progress run dry, and the invariant holds where a run
starts and along an infinite one. -/

namespace Sys2Proof.Machine

variable {s : State} {i : Instr} {n : Nat}

/-! ### The commands in progress run dry -/

theorem InFlightSound.setPending (h : InFlightSound s) (l : List Input) : InFlightSound (s.setPending l) :=
  ⟨h.1, fun i hi => (check_setPending s l i).trans (h.2 i hi)⟩

theorem complete_of_running (h : s.running[n]? = some i) : s.complete n = exec i (s.setInFlight (s.inFlight.eraseIdx n)) := by
  rw [State.complete, h]

/-- With no input left the oldest command in progress completes. -/
theorem step_of_noInput {l : List Instr} (hp : s.pending = []) (hflight : s.inFlight = i :: l) : step s = s.complete 0 := by
  simp only [step, hp, State.idle, hflight]

/-- Each step of a run without input completes one command and leaves the others in order, until none is left. -/
theorem InFlightSound.runsDry (h : InFlightSound s) (hp : s.pending = []) (hn : s.inFlight.length = n) :
    ∃ t, stepTimes n s = .next t ∧ RunOver t := by
  induction n generalizing s with
  | zero => exact ⟨s, rfl, hp, List.length_eq_zero_iff.1 hn⟩
  | succ n ih =>
    obtain ⟨j, l, hflight⟩ := List.exists_cons_of_length_eq_add_one hn
    have hrunning : s.running[0]? = some j := by rw [State.running_zero, hflight, List.getElem?_cons_zero]
    obtain ⟨t, hcomplete, -, hpending, hrest, hsound, -⟩ := h.complete hrunning
    have hlength : t.inFlight.length = n := by
      rw [hrest, List.length_eraseIdx_of_lt (by omega), hn, Nat.add_sub_cancel]
    obtain ⟨u, hrun, hover⟩ := ih hsound (hpending.trans hp) hlength
    exact ⟨u, (stepTimes_succ_of_next ((step_of_noInput hp hflight).trans hcomplete)).trans hrun, hover⟩

/-- Settles O48: a command in order completes, and leaves the others so. -/
theorem commandsInProgressRunDry : Obligations.CommandsInProgressRunDry := by
  unfold Obligations.CommandsInProgressRunDry
  refine fun s hsound => ⟨fun n i rest hp hrunning => ?_, fun hp => hsound.runsDry hp rfl⟩
  have hrunning' : (s.setPending rest).running[n]? = some i := hrunning
  obtain ⟨t, hcomplete, -⟩ := (hsound.setPending rest).complete hrunning'
  exact ⟨t, (step_of_pending hp).trans hcomplete, (complete_of_running hrunning').symm.trans hcomplete⟩

/-! ### Where a run starts -/

/-- Settles O39: at reset no context is live and no command in progress. -/
theorem resetMeetsTheInvariant : Obligations.ResetMeetsTheInvariant :=
  ⟨rfl, rfl, ⟨nofun, nofun⟩, .nil, nofun⟩

/-- To represent a message is to have its abstract value (R26). -/
theorem represents_iff_abstractValue {c : Nat} {msg : List Byte} : Represents s c msg ↔ s.abstractValue c = .ofMessage msg := by
  rw [State.abstractValue, AbstractValue.ofMessage, AbstractValue.mk.injEq, Represents, State.fillLevel]
  refine and_congr_right fun _ => and_congr_right fun hcount => ?_
  rw [hcount, fillOf_bitLength]

/-- Settles O50: an Active context represents the message of its listed value, a Finalized one is given its final state. -/
theorem startPremisesGiveTheInvariant : Obligations.StartPremisesGiveTheInvariant := by
  unfold Obligations.StartPremisesGiveTheInvariant
  rintro listed s ⟨hidle, hphases, hvalues⟩ hmem hwf hlisted hapart
  have hmapped : ∀ e ∈ s.phases, ∃ x ∈ listed, (x.1, x.2.phase) = e := fun e he => by rwa [hphases, List.mem_map] at he
  refine ⟨hmem, hwf, ⟨fun e he => ?_, fun e he f hf hne => ?_⟩, by simp [InFlightSound, hidle]⟩
  · obtain ⟨⟨c, start⟩, hx, rfl⟩ := hmapped e he
    obtain ⟨haligned, hfits, hfinal⟩ := hlisted _ hx
    refine ⟨haligned, hfits, ?_⟩
    cases start with
    | active v =>
      obtain ⟨hvalue, msg, rfl⟩ := hvalues _ hx v rfl
      exact ⟨msg, represents_iff_abstractValue.2 hvalue⟩
    | finalized => exact hfinal rfl
  · obtain ⟨x, hx, rfl⟩ := hmapped e he
    obtain ⟨y, hy, rfl⟩ := hmapped f hf
    exact (noCommonByte_iff (by decide)).1 (hapart x hx y hy hne)

/-! ### Infinite runs -/

section
variable {moves : Nat → Input} {start : State} {states : Nat → State} {next : Nat → Nat}

theorem InfiniteRun.invariant (h : InfiniteRun moves start states next) (hstart : Invariant start) (n : Nat) : Invariant (states n) := by
  induction n with
  | zero => rwa [h.starts.1]
  | succ n ih => exact everyStepKeepsTheInvariant _ _ (ih.setPending _) (h.steps n)

/-- A step takes the next move, or none. -/
theorem InfiniteRun.next_succ (h : InfiniteRun moves start states next) (n : Nat) : next (n + 1) = next n ∨ next (n + 1) = next n + 1 := by
  rw [h.taken]
  split
  · exact .inr rfl
  · exact .inl rfl

theorem InfiniteRun.next_le (h : InfiniteRun moves start states next) (n : Nat) : next n ≤ n := by
  induction n with
  | zero => exact h.starts.2.le
  | succ n ih =>
    have hsucc := h.next_succ n
    omega

/-- The number of moves taken passes through every number on its way. -/
theorem InfiniteRun.next_reaches (h : InfiniteRun moves start states next) {n m : Nat} (hm : m ≤ next n) : ∃ i, i ≤ n ∧ next i = m := by
  induction n with
  | zero =>
    have hzero := h.starts.2
    exact ⟨0, le_rfl, by omega⟩
  | succ n ih =>
    by_cases hbefore : m ≤ next n
    · obtain ⟨i, hi, hreached⟩ := ih hbefore
      exact ⟨i, hi.trans n.le_succ, hreached⟩
    · have hsucc := h.next_succ n
      exact ⟨n + 1, le_rfl, by omega⟩

end

/-- Settles O51: by induction along the run, every step of which keeps the invariant and takes at most one move. -/
theorem infiniteRunsKeepTheInvariant : Obligations.InfiniteRunsKeepTheInvariant := by
  unfold Obligations.InfiniteRunsKeepTheInvariant
  exact fun moves start states next hstart h n =>
    ⟨h.invariant hstart n, h.next_le n, fun m => h.next_reaches, fun hp => (h.taken n).trans (if_pos hp)⟩

end Sys2Proof.Machine
end
